-- ==== Sys2Proof/Word.lean ====
section
/-! DEFINITION. The widths of the block: registers, addresses on the link and payload bytes have 8 bits
(R6 REG_BYTE, ADDR_BITS), the frame identifier word 32 (R6 IDENT_WORD). No value is signed (R8, R13). -/

namespace Sys2Proof

/-- A register's contents, an address byte or a payload byte (R6 REG_BYTE and ADDR_BITS). -/
abbrev Byte := BitVec 8

/-- The frame identifier word with its flags (R6 IDENT_WORD, R116). -/
abbrev IdentWord := BitVec 32

end Sys2Proof
end

