-- ==== Sys2Proof/Config.lean ====
section
/-! DEFINITION. What is fixed for one machine (the parameters of R6), the free values, and the data the host
calls carry: the controller configuration record (R33), frames (R11), modes (R119). -/

namespace Sys2Proof

/-- The free values, numbered: the spec's `draw` (R9: "a value the model leaves free; every claim must hold for
every draw"). No body, so nothing can be proved of a value. DESIGN CHOICE, log 4: the form only. -/
opaque Config.freeByte : Nat → Byte

/-! ## The parameters of R6

Every parameter that R6 marks GK is an argument of the model: a field of `ChipParams`, which State carries and no step
changes. The spec's defaults are `ChipParams.standard` (Machine/Registers.lean); log 8 and log 9. -/

/-- CMD_RESET, CMD_READ, CMD_WRITE, CMD_BITMOD, CMD_RDSTATUS (R6, R111). -/
structure CommandBytes where
  reset    : Byte
  read     : Byte
  write    : Byte
  bitmod   : Byte
  rdstatus : Byte
  deriving DecidableEq, Repr

/-- The addresses of the registers of one acceptance filter or mask (R39). -/
structure FilterAddresses where
  SIDH : Nat
  SIDL : Nat
  EID8 : Nat
  EID0 : Nat
  deriving DecidableEq, Repr

/-- The addresses of the registers of one transmit or receive buffer (R37, R38). -/
structure BufferAddresses where
  CTRL : Nat
  SIDH : Nat
  SIDL : Nat
  EID8 : Nat
  EID0 : Nat
  DLC  : Nat
  D0   : Nat
  D1   : Nat
  D2   : Nat
  D3   : Nat
  D4   : Nat
  D5   : Nat
  D6   : Nat
  D7   : Nat
  deriving DecidableEq, Repr

/-- The register addresses, one per named register (R6, R36). MF clears filters and masks as runs from RXF0SIDH, RXF3SIDH and
RXM0SIDH (R39), so no rule reaches their other registers by an address of their own (log 28). -/
structure RegAddresses where
  RXF0      : FilterAddresses
  RXF1      : FilterAddresses
  RXF2      : FilterAddresses
  BFPCTRL   : Nat
  TXRTSCTRL : Nat
  CANSTAT   : Nat
  CANCTRL   : Nat
  RXF3      : FilterAddresses
  RXF4      : FilterAddresses
  RXF5      : FilterAddresses
  TEC       : Nat
  REC       : Nat
  RXM0      : FilterAddresses
  RXM1      : FilterAddresses
  CNF3      : Nat
  CNF2      : Nat
  CNF1      : Nat
  CANINTE   : Nat
  CANINTF   : Nat
  EFLG      : Nat
  TXB0      : BufferAddresses
  TXB1      : BufferAddresses
  TXB2      : BufferAddresses
  RXB0      : BufferAddresses
  RXB1      : BufferAddresses
  deriving DecidableEq, Repr

/-- The flag bit positions (R6): CANINTF and CANINTE (R45, R46), the status byte (R53), and the fields of the control
and buffer registers that a rule reads or writes (R40, R41, R47 to R52). -/
structure BitPositions where
  RX0IF : Nat
  RX1IF : Nat
  TX0IF : Nat
  TX1IF : Nat
  TX2IF : Nat
  ERRIF : Nat
  WAKIF : Nat
  MERRF : Nat
  /-- RX0IF's place in the status byte; the next seven likewise. -/
  statusRX0IF  : Nat
  statusRX1IF  : Nat
  statusTXREQ0 : Nat
  statusTX0IF  : Nat
  statusTXREQ1 : Nat
  statusTX1IF  : Nat
  statusTXREQ2 : Nat
  statusTX2IF  : Nat
  /-- CANSTAT.ICOD's lowest bit. OPMOD's place is MF's: the top 3 bits. -/
  ICOD  : Nat
  /-- CANCTRL.REQOP's lowest bit. -/
  REQOP : Nat
  ABTF  : Nat
  MLOA  : Nat
  TXERR : Nat
  TXREQ : Nat
  /-- RXBnCTRL.RXM's lowest bit. -/
  RXM   : Nat
  RXRTR : Nat
  RX0OVR : Nat
  RX1OVR : Nat
  /-- TXRTSCTRL.B0RTS, the level of transmit buffer 0's pin. -/
  B0RTS  : Nat
  B1RTS  : Nat
  B2RTS  : Nat
  /-- TXRTSCTRL.B0RTSM, the mode of transmit buffer 0's pin. -/
  B0RTSM : Nat
  B1RTSM : Nat
  B2RTSM : Nat
  /-- SIDL.IDE of a receive buffer. -/
  IDE : Nat
  /-- The DLC field's lowest bit in a buffer's DLC register. -/
  DLC : Nat
  deriving DecidableEq, Repr

/-- The codes of the mode field (R119). -/
structure ModeCodes where
  normal     : BitVec 3
  sleep      : BitVec 3
  loopback   : BitVec 3
  listenOnly : BitVec 3
  configure  : BitVec 3
  deriving DecidableEq, Repr

/-- One row of R36's table. `home` is the address under which the register is stored: the row's own, or for a mirror
the one it mirrors (R35). RESET_VALUE is split: bit i is drawn by RESET if `drawn` has it, else it is `fixed`'s bit. -/
structure RegInfo where
  home  : Fin 128
  impl  : Byte
  wmask : Byte
  bm    : Bool
  prot  : Bool
  fixed : Byte
  drawn : Byte
  deriving DecidableEq, Repr

/-- The constants of one controller chip (R2, R6): everything R6 marks GK but PROTECTED_WRITE_EFFECT. -/
structure Chip where
  commands : CommandBytes
  addr     : RegAddresses
  bits     : BitPositions
  modes    : ModeCodes
  /-- The rows that replace rows of R36's table, by address: IMPL, WMASK, BITMOD_CAPABLE, CONFIG_PROTECTED,
  RESET_VALUE. A row not listed is R36's. -/
  rows     : List (Nat × RegInfo)
  deriving DecidableEq, Repr

/-- PROTECTED_WRITE_EFFECT (R6, R89): what a write to a configuration-protected register does outside Configure
mode. -/
inductive ProtectedWriteEffect where
  /-- The register keeps its value (the spec's default). -/
  | ignored
  /-- The write rule R86 applies as usual. -/
  | applied
  /-- The register takes a free value. -/
  | draw
  deriving DecidableEq, Repr

/-- The parameters (R6). The two pin-mode bytes BFPCTRL_VAL and TXRTSCTRL_VAL are the configuration record's
(R193). -/
structure ChipParams where
  chip                 : Chip
  protectedWriteEffect : ProtectedWriteEffect
  deriving DecidableEq, Repr

/-! ## The data the calls carry -/

/-- The five operating modes (R119, R283). -/
inductive Mode where
  | normal
  | sleep
  | loopback
  | listenOnly
  | configure
  deriving DecidableEq, Repr

/-- setMode's argument: one of the five enumerators, or a value outside them (R125, R256; the spec's own example is
`setMode(5)`). -/
inductive ModeArg where
  | enumerator (m : Mode)
  | outside (v : Nat)
  deriving DecidableEq, Repr

/-- What getMode answers (R254): a mode, or `Invalid(v)` for the reserved values 5 to 7. -/
inductive ModeReport where
  | mode (m : Mode)
  | invalid (v : BitVec 3)
  deriving DecidableEq, Repr

/-- writeRegister's data operand (R155): one byte, or a sequence of bytes. -/
inductive ByteOrBytes where
  | byte (b : Byte)
  | bytes (bs : List Byte)
  deriving DecidableEq, Repr

/-- The controller configuration record (R33). The numeric fields are unbounded: a value outside its range is what
validateConfig reports (R183). `rxPinMode` and `txRtsPinMode` are the bytes BFPCTRL_VAL and TXRTSCTRL_VAL that the
toggles give (R193; log 13). -/
structure ControllerConfig where
  sjw            : Nat
  brp            : Nat
  propSeg        : Nat
  phaseSeg1      : Nat
  phaseSeg2      : Nat
  samplingMode   : Nat
  baudRateSelect : Nat
  sof            : Bool
  wakeFilter     : Bool
  rxPinMode      : Byte
  txRtsPinMode   : Byte
  filtersEnabled : Bool
  deriving DecidableEq, Repr

/-- A frame record (R11). It is raw data: R11's invariant is `Frame.wf`, and writeFrame checks it (R231). -/
structure Frame where
  ident         : IdentWord
  payloadLength : Nat
  payload       : List Byte
  deriving DecidableEq, Repr

end Sys2Proof
end

