-- ==== Sys2Proof/Syntax.lean ====
section
/-! DEFINITION. The instructions: one constructor per row of spec/opcode_table.json (R111, R124, R125). -/

namespace Sys2Proof

/-- The 17 rows of the opcode table: five SPI commands, five transport calls, seven host calls. -/
inductive Instr where
  /-- RESET (R150). -/
  | reset
  /-- READ a, n (R152). -/
  | read (a : Byte) (n : Nat)
  /-- WRITE a, d0..d(n-1) (R154). -/
  | write (a : Byte) (ds : List Byte)
  /-- BITMOD a, m, v (R156). -/
  | bitmod (a m v : Byte)
  /-- RDSTATUS (R158). -/
  | rdstatus
  /-- The transport call reset() (R151). -/
  | resetCall
  /-- The transport call readRegister(a, n = 1) (R153). -/
  | readRegister (a : Byte) (n : Nat := 1)
  /-- The transport call writeRegister(a, byteOrBytes) (R155). -/
  | writeRegister (a : Byte) (data : ByteOrBytes)
  /-- The transport call modifyRegister(a, m, v) (R157). -/
  | modifyRegister (a m v : Byte)
  /-- The transport call readStatus() (R159). -/
  | readStatus
  /-- The host call ctor(config) (R190). -/
  | ctor (config : ControllerConfig)
  /-- The host call readFrame(n) (R215). -/
  | readFrame (n : Nat)
  /-- The host call readFrame(), poll-and-decode (R220). -/
  | pollFrame
  /-- The host call writeFrame(f, n) (R233). -/
  | writeFrame (f : Frame) (n : Nat)
  /-- The host call isFrameAvailable(), alias hasFrameAvailable() (R250). -/
  | isFrameAvailable
  /-- The host call getMode() (R254). -/
  | getMode
  /-- The host call setMode(mode) (R256). -/
  | setMode (mode : ModeArg)
  deriving DecidableEq, Repr

end Sys2Proof
end

