-- ==== Sys2Proof/WellFormed.lean ====
section
/-! DEFINITION. Which instructions have their operands inside the domains the spec gives (R11, R33, R82, R125). An
ill-formed SPI command or transport call names a register that does not exist and is refused (R82); an ill-formed host
call is caller misuse, which the call itself reports (R272). -/

namespace Sys2Proof

/-- Every register that n bytes from address a touch exists, and so does a itself when n = 0 (R82, R152). -/
def admittedRange (a n : Nat) : Bool :=
  decide (a ≤ 0x7F) && decide (a + n ≤ 0x80)

/-- The legal ranges of R33, as R183 checks them. -/
def ControllerConfig.wf (c : ControllerConfig) : Bool :=
  decide (1 ≤ c.sjw ∧ c.sjw ≤ 4) && decide (1 ≤ c.brp ∧ c.brp ≤ 64) && decide (1 ≤ c.propSeg ∧ c.propSeg ≤ 8) &&
    decide (1 ≤ c.phaseSeg1 ∧ c.phaseSeg1 ≤ 8) && decide (1 ≤ c.phaseSeg2 ∧ c.phaseSeg2 ≤ 8) &&
    decide (c.samplingMode = 0x00 ∨ c.samplingMode = 0x40) && decide (c.baudRateSelect ≤ 1)

/-- R11's invariant of a frame, with R116's reserved bit 29 clear. -/
def Frame.wf (f : Frame) : Bool :=
  decide (f.payloadLength ≤ 8) && decide (f.payload.length = f.payloadLength) && !f.ident[29]

/-- How many bytes writeRegister's data operand holds (R155). -/
def ByteOrBytes.length : ByteOrBytes → Nat
  | .byte _ => 1
  | .bytes bs => bs.length

/-- Operands inside their domains. -/
def Instr.wf : Instr → Bool
  | .reset => true
  | .read a n => admittedRange a.toNat n
  | .write a ds => admittedRange a.toNat ds.length
  | .bitmod a _ _ => admittedRange a.toNat 1
  | .rdstatus => true
  | .resetCall => true
  | .readRegister a n => admittedRange a.toNat n
  | .writeRegister a data => admittedRange a.toNat data.length
  | .modifyRegister a _ _ => admittedRange a.toNat 1
  | .readStatus => true
  | .ctor config => config.wf
  | .readFrame n => decide (n < 2)
  | .pollFrame => true
  | .writeFrame f n => f.wf && decide (n < 3)
  | .isFrameAvailable => true
  | .getMode => true
  | .setMode (.enumerator _) => true
  | .setMode (.outside _) => false

end Sys2Proof
end

