-- ==== Sys2Proof/Decode.lean ====
section
/-! DEFINITION. The bytes of a transaction (R110 to R113): ENGINE's decoder, total on any byte sequence and rejecting
by name, and the encoder HOST uses. Then the opcode table's numbering of a transaction's bits. -/

namespace Sys2Proof

/-! ## Command bytes (R111) -/

/-- R111's values. -/
def CommandBytes.standard : CommandBytes where
  reset := 0xC0
  read := 0x03
  write := 0x02
  bitmod := 0x05
  rdstatus := 0xA0

/-- The five command bytes are different, so that a transaction's bytes name one command. -/
def CommandBytes.distinct (cmd : CommandBytes) : Prop :=
  [cmd.reset, cmd.read, cmd.write, cmd.bitmod, cmd.rdstatus].Nodup

/-- The five commands by name, as E_TRANSPORT reports them (R271). -/
inductive CommandKind where
  | reset
  | read
  | write
  | bitmod
  | rdstatus
  deriving DecidableEq, Repr

/-- The bytes of writeRegister's data operand: a single byte b is the sequence [b] (R155). -/
def ByteOrBytes.toList : ByteOrBytes → List Byte
  | .byte b => [b]
  | .bytes bs => bs

/-- A transaction ENGINE admits by its form (R112): the command with its operands. -/
inductive Command where
  | reset
  | read (a : Byte) (n : Nat)
  | write (a : Byte) (ds : List Byte)
  | bitmod (a m v : Byte)
  | rdstatus
  deriving DecidableEq, Repr

/-- The command's name. -/
def Command.kind : Command → CommandKind
  | .reset => .reset
  | .read _ _ => .read
  | .write _ _ => .write
  | .bitmod _ _ _ => .bitmod
  | .rdstatus => .rdstatus

/-- The command's address byte, where its format has one (R112). -/
def Command.address? : Command → Option Byte
  | .read a _ => some a
  | .write a _ => some a
  | .bitmod a _ _ => some a
  | .reset => none
  | .rdstatus => none

/-- The SPI command as an instruction of the opcode table. -/
def Command.toInstr : Command → Instr
  | .reset => .reset
  | .read a n => .read a n
  | .write a ds => .write a ds
  | .bitmod a m v => .bitmod a m v
  | .rdstatus => .rdstatus

/-- Why a byte sequence is no transaction (R160). -/
inductive DecodeError where
  /-- No byte at all: a transaction has at least one (R110). -/
  | emptyTransaction
  /-- The first byte is not one of the five of R111 (R121). -/
  | unknownCommand (c : Byte)
  /-- The length does not match the command (R113). -/
  | wrongLength (k : CommandKind) (length : Nat)
  deriving DecidableEq, Repr

/-! ## The decoder (R110, R112, R113) -/

/-- ENGINE's reading of a transaction from its MOSI bytes alone (R81). Byte 0 selects the command by exact match
(R110); the length must be the command's (R113). Placeholder bytes carry no meaning, so their values are not looked
at (R81; DEDUCED, log 12). The command bytes are a parameter (R111). -/
def decodeCommand (cmd : CommandBytes) : List Byte → Except DecodeError Command
  | [] => .error .emptyTransaction
  | c :: rest =>
    if c = cmd.reset then
      match rest with
      | [] => .ok .reset
      | _ :: _ => .error (.wrongLength .reset (rest.length + 1))
    else if c = cmd.read then
      match rest with
      | a :: placeholders => .ok (.read a placeholders.length)
      | [] => .error (.wrongLength .read 1)
    else if c = cmd.write then
      match rest with
      | a :: ds => .ok (.write a ds)
      | [] => .error (.wrongLength .write 1)
    else if c = cmd.bitmod then
      match rest with
      | [a, m, v] => .ok (.bitmod a m v)
      | _ => .error (.wrongLength .bitmod (rest.length + 1))
    else if c = cmd.rdstatus then
      match rest with
      | [_] => .ok .rdstatus
      | _ => .error (.wrongLength .rdstatus (rest.length + 1))
    else .error (.unknownCommand c)

/-- The decoder of a transaction into the instruction it is. -/
def decode (cmd : CommandBytes) (mosi : List Byte) : Except DecodeError Instr :=
  match decodeCommand cmd mosi with
  | .ok c => .ok c.toInstr
  | .error e => .error e

/-! ## The encoder (R112, R124) -/

/-- The MOSI bytes of a command (R112); HOST sends 0x00 as every placeholder (R81). -/
def encodeCommand (cmd : CommandBytes) : Command → List Byte
  | .reset => [cmd.reset]
  | .read a n => cmd.read :: a :: List.replicate n 0x00
  | .write a ds => cmd.write :: a :: ds
  | .bitmod a m v => [cmd.bitmod, a, m, v]
  | .rdstatus => [cmd.rdstatus, 0x00]

/-- The one transaction an SPI command is or a transport call expands to (R124). A host call has no bit pattern
(R125). -/
def Instr.command? : Instr → Option Command
  | .reset => some .reset
  | .read a n => some (.read a n)
  | .write a ds => some (.write a ds)
  | .bitmod a m v => some (.bitmod a m v)
  | .rdstatus => some .rdstatus
  | .resetCall => some .reset
  | .readRegister a n => some (.read a n)
  | .writeRegister a data => some (.write a data.toList)
  | .modifyRegister a m v => some (.bitmod a m v)
  | .readStatus => some .rdstatus
  | .ctor _ => none
  | .readFrame _ => none
  | .pollFrame => none
  | .writeFrame _ _ => none
  | .isFrameAvailable => none
  | .getMode => none
  | .setMode _ => none

/-- The bytes of an instruction that has an encoding: an SPI command's own, a transport call's one transaction (R124);
none for a host call (R125). -/
def encode (cmd : CommandBytes) (i : Instr) : Option (List Byte) :=
  i.command?.map (encodeCommand cmd)

/-! ## The opcode table's numbering: bit 0 is the least significant bit of the first byte -/

/-- The first k bytes of the number w, least significant byte first. -/
def tableWordBytes (k w : Nat) : List Byte :=
  (List.range k).map fun i => BitVec.ofNat 8 (w >>> (8 * i))

/-- The shortest length of a transaction with command byte c (R113), with the table's command bytes. -/
def shortestLength (c : Byte) : Nat :=
  let cmd := CommandBytes.standard
  if c = cmd.read ∨ c = cmd.write ∨ c = cmd.rdstatus then 2
  else if c = cmd.bitmod then 4
  else 1

/-- The transaction whose first nbits bits are w, as sent on the link: bytes the table gives no bits are 0, up to the
shortest length of the command. -/
def tableTransaction (nbits w : Nat) : List Byte :=
  let given := tableWordBytes ((nbits + 7) / 8) w
  given ++ List.replicate (shortestLength (given.headD 0) - given.length) 0x00

/-- The instruction the decoder reads from that transaction, with the table's command bytes. -/
def decodeTableWord (nbits w : Nat) : Option Instr :=
  match decode CommandBytes.standard (tableTransaction nbits w) with
  | .ok i => some i
  | .error _ => none

end Sys2Proof
end

