-- ==== Sys2Proof/Machine/Registers.lean ====
section
/-! DEFINITION. The register map (R34 to R39) with its columns IMPL, WMASK, BM, PROT and reset (R36), the other values
R6 gives as defaults, the chip's constants as functions, and the storage of the register file. -/

namespace Sys2Proof.Machine

/-! ## R36's addresses by name -/

/-- The first register of filter group 1 (R39). -/
abbrev RXF0SIDH : Nat := 0x00
/-- Receive-pin output mode (R52). -/
abbrev BFPCTRL : Nat := 0x0C
/-- Transmit-request-to-send pin mode (R52). -/
abbrev TXRTSCTRL : Nat := 0x0D
/-- Controller status: OPMOD and ICOD (R40). -/
abbrev CANSTAT : Nat := 0x0E
/-- Controller control: REQOP, ABAT, OSM, CLKEN, CLKPRE (R41). -/
abbrev CANCTRL : Nat := 0x0F
/-- The first register of filter group 2 (R39). -/
abbrev RXF3SIDH : Nat := 0x10
/-- Transmit error counter (R47). -/
abbrev TEC : Nat := 0x1C
/-- Receive error counter (R47). -/
abbrev REC : Nat := 0x1D
/-- The first register of the mask group (R39). -/
abbrev RXM0SIDH : Nat := 0x20
/-- Bit timing 3 (R44). -/
abbrev CNF3 : Nat := 0x28
/-- Bit timing 2 (R43). -/
abbrev CNF2 : Nat := 0x29
/-- Bit timing 1 (R42). -/
abbrev CNF1 : Nat := 0x2A
/-- Interrupt enables (R45). -/
abbrev CANINTE : Nat := 0x2B
/-- Interrupt flags (R46). -/
abbrev CANINTF : Nat := 0x2C
/-- Error flags (R47). -/
abbrev EFLG : Nat := 0x2D

/-- R37's TXB(n), the base of transmit buffer n and the address of TXBnCTRL. -/
def txb (n : Nat) : Nat := 0x30 + 0x10 * n

/-- R38's RXB(n), the base of receive buffer n and the address of RXBnCTRL. -/
def rxb (n : Nat) : Nat := 0x60 + 0x10 * n

/-! ## The columns of R36's table -/

/-- Filter register at offset k of a filter, at address a (R36 rows RXF0 to RXF5). -/
def filterInfo (a : Fin 128) (k : Nat) : RegInfo :=
  let m : Byte := if k = 1 then 0xEB else 0xFF
  ⟨a, m, m, false, true, 0x00, m⟩

/-- Mask register at offset k of a mask, at address a (R36 rows RXM0, RXM1). -/
def maskInfo (a : Fin 128) (k : Nat) : RegInfo :=
  let m : Byte := if k = 1 then 0xE3 else 0xFF
  ⟨a, m, m, false, true, 0x00, 0x00⟩

/-- Transmit-buffer register at offset k, at address a (R36 rows TXB0 to TXB2). -/
def txbInfo (a : Fin 128) (k : Nat) : RegInfo :=
  if k = 0 then ⟨a, 0x7B, 0x0B, true, false, 0x00, 0x00⟩
  else
    let m : Byte := if k = 2 then 0xEB else if k = 5 then 0x4F else 0xFF
    ⟨a, m, m, false, false, 0x00, m⟩

/-- Receive-buffer register at offset k of buffer n, at address a (R36 rows RXB0, RXB1). -/
def rxbInfo (a : Fin 128) (n k : Nat) : RegInfo :=
  if k = 0 then ⟨a, 0x6F, if n = 0 then 0x64 else 0x60, true, false, 0x00, 0x00⟩
  else
    let m : Byte := if k = 2 then 0xFB else if k = 5 then 0x7F else 0xFF
    ⟨a, m, 0x00, false, false, 0x00, m⟩

/-- R36's table by address, mirrors included (R35). It says something of addresses up to 0x7F only. -/
def regInfo (a : Nat) : RegInfo :=
  let h := Fin.ofNat 128 a
  if a % 16 = 14 then ⟨14, 0xEE, 0x00, false, false, 0x80, 0x00⟩
  else if a % 16 = 15 then ⟨15, 0xFF, 0xFF, true, false, 0x87, 0x00⟩
  else if a < 0x0C then filterInfo h (a % 4)
  else if a = 0x0C then ⟨h, 0x3F, 0x3F, true, false, 0x00, 0x00⟩
  else if a = 0x0D then ⟨h, 0x3F, 0x07, true, true, 0x00, 0x38⟩
  else if a < 0x1C then filterInfo h (a % 4)
  else if a < 0x20 then ⟨h, 0xFF, 0x00, false, false, 0x00, 0x00⟩
  else if a < 0x28 then maskInfo h (a % 4)
  else if a = 0x28 then ⟨h, 0xC7, 0xC7, true, true, 0x00, 0x00⟩
  else if a < 0x2B then ⟨h, 0xFF, 0xFF, true, true, 0x00, 0x00⟩
  else if a < 0x2D then ⟨h, 0xFF, 0xFF, true, false, 0x00, 0x00⟩
  else if a = 0x2D then ⟨h, 0xFF, 0xC0, true, false, 0x00, 0x00⟩
  else if a < 0x60 then txbInfo h (a % 16)
  else rxbInfo h ((a - 0x60) / 16) (a % 16)

end Sys2Proof.Machine

/-! ## The defaults of R6 -/

namespace Sys2Proof

open Sys2Proof.Machine

/-- The addresses of a filter or mask whose first register is at address a (R39). -/
def filterAt (a : Nat) : FilterAddresses where
  SIDH := a
  SIDL := a + 1
  EID8 := a + 2
  EID0 := a + 3

/-- The addresses of a buffer at base a (R37, R38). -/
def bufferAt (a : Nat) : BufferAddresses where
  CTRL := a
  SIDH := a + 1
  SIDL := a + 2
  EID8 := a + 3
  EID0 := a + 4
  DLC := a + 5
  D0 := a + 6
  D1 := a + 7
  D2 := a + 8
  D3 := a + 9
  D4 := a + 10
  D5 := a + 11
  D6 := a + 12
  D7 := a + 13

/-- R36's addresses. -/
def RegAddresses.standard : RegAddresses where
  RXF0 := filterAt RXF0SIDH
  RXF1 := filterAt 0x04
  RXF2 := filterAt 0x08
  BFPCTRL := Machine.BFPCTRL
  TXRTSCTRL := Machine.TXRTSCTRL
  CANSTAT := Machine.CANSTAT
  CANCTRL := Machine.CANCTRL
  RXF3 := filterAt RXF3SIDH
  RXF4 := filterAt 0x14
  RXF5 := filterAt 0x18
  TEC := Machine.TEC
  REC := Machine.REC
  RXM0 := filterAt RXM0SIDH
  RXM1 := filterAt 0x24
  CNF3 := Machine.CNF3
  CNF2 := Machine.CNF2
  CNF1 := Machine.CNF1
  CANINTE := Machine.CANINTE
  CANINTF := Machine.CANINTF
  EFLG := Machine.EFLG
  TXB0 := bufferAt (txb 0)
  TXB1 := bufferAt (txb 1)
  TXB2 := bufferAt (txb 2)
  RXB0 := bufferAt (rxb 0)
  RXB1 := bufferAt (rxb 1)

/-- The bit positions of R40, R41, R46 to R53. -/
def BitPositions.standard : BitPositions where
  RX0IF := 0
  RX1IF := 1
  TX0IF := 2
  TX1IF := 3
  TX2IF := 4
  ERRIF := 5
  WAKIF := 6
  MERRF := 7
  statusRX0IF := 0
  statusRX1IF := 1
  statusTXREQ0 := 2
  statusTX0IF := 3
  statusTXREQ1 := 4
  statusTX1IF := 5
  statusTXREQ2 := 6
  statusTX2IF := 7
  ICOD := 1
  REQOP := 5
  ABTF := 6
  MLOA := 5
  TXERR := 4
  TXREQ := 3
  RXM := 5
  RXRTR := 3
  RX0OVR := 6
  RX1OVR := 7
  B0RTS := 3
  B1RTS := 4
  B2RTS := 5
  B0RTSM := 0
  B1RTSM := 1
  B2RTSM := 2
  IDE := 3
  DLC := 0

/-- The mode codes of R119. -/
def ModeCodes.standard : ModeCodes where
  normal := 0
  sleep := 1
  loopback := 2
  listenOnly := 3
  configure := 4

/-- The chip whose every constant is the spec's default (R6). -/
def Chip.standard : Chip where
  commands := CommandBytes.standard
  addr := RegAddresses.standard
  bits := BitPositions.standard
  modes := ModeCodes.standard
  rows := []

/-- The defaults of R6. -/
def ChipParams.standard : ChipParams where
  chip := Chip.standard
  protectedWriteEffect := .ignored

/-! ## A chip's constants as functions -/

/-- The row of the register map at address a (R36). -/
def Chip.info (c : Chip) (a : Nat) : RegInfo :=
  match c.rows.lookup a with
  | some r => r
  | none => regInfo a

/-- IMPL(a): the implemented bits (R36). -/
def Chip.impl (c : Chip) (a : Nat) : Byte := (c.info a).impl
/-- WMASK(a): the bits WRITE and BITMOD can change (R36). -/
def Chip.wmask (c : Chip) (a : Nat) : Byte := (c.info a).wmask
/-- BITMOD_CAPABLE(a) (R36, R88). -/
def Chip.bitmodCapable (c : Chip) (a : Nat) : Bool := (c.info a).bm
/-- CONFIG_PROTECTED(a) (R36, R89). -/
def Chip.configProtected (c : Chip) (a : Nat) : Bool := (c.info a).prot

/-- RESET_VALUE(a), given the value drawn for the register (R36, R58). -/
def Chip.resetValue (c : Chip) (a : Nat) (d : Byte) : Byte :=
  let i := c.info a
  if i.drawn = 0 then i.fixed else i.fixed ||| (d &&& i.drawn)

/-- The address under which the register at address a is stored: its own, or for a mirror the one it mirrors (R35). An
address past 0x7F names no register (R34). -/
def Chip.home (c : Chip) (a : Nat) : Nat := if a < 0x80 then (c.info a).home.val else a

/-- The registers of transmit buffer n (R37). -/
def Chip.txb (c : Chip) (n : Nat) : BufferAddresses :=
  if n = 0 then c.addr.TXB0 else if n = 1 then c.addr.TXB1 else c.addr.TXB2

/-- The registers of receive buffer n (R38). -/
def Chip.rxb (c : Chip) (n : Nat) : BufferAddresses := if n = 0 then c.addr.RXB0 else c.addr.RXB1

/-- The data registers of a buffer, D0 first. -/
def BufferAddresses.data (b : BufferAddresses) : List Nat := [b.D0, b.D1, b.D2, b.D3, b.D4, b.D5, b.D6, b.D7]

/-- The registers of a buffer that hold its frame, in R37's and R38's order. -/
def BufferAddresses.frame (b : BufferAddresses) : List Nat := [b.SIDH, b.SIDL, b.EID8, b.EID0, b.DLC] ++ b.data

/-- The addresses of a filter's or mask's registers. -/
def FilterAddresses.toList (f : FilterAddresses) : List Nat := [f.SIDH, f.SIDL, f.EID8, f.EID0]

/-- The addresses of the named registers, in the order of R36's table. -/
def RegAddresses.toList (r : RegAddresses) : List Nat :=
  r.RXF0.toList ++ r.RXF1.toList ++ r.RXF2.toList ++ [r.BFPCTRL, r.TXRTSCTRL, r.CANSTAT, r.CANCTRL] ++
    r.RXF3.toList ++ r.RXF4.toList ++ r.RXF5.toList ++ [r.TEC, r.REC] ++ r.RXM0.toList ++ r.RXM1.toList ++
    [r.CNF3, r.CNF2, r.CNF1, r.CANINTE, r.CANINTF, r.EFLG] ++
    [r.TXB0, r.TXB1, r.TXB2, r.RXB0, r.RXB1].flatMap fun b => b.CTRL :: b.frame

/-- The code of a mode (R119). -/
def Chip.modeCode (c : Chip) : Mode → BitVec 3
  | .normal => c.modes.normal
  | .sleep => c.modes.sleep
  | .loopback => c.modes.loopback
  | .listenOnly => c.modes.listenOnly
  | .configure => c.modes.configure

end Sys2Proof

namespace Sys2Proof.Machine

/-! ## Storage -/

/-- ENGINE's register file R (R34): the register at address a stands at place `home a`; the places of mirrors stay
0. -/
abbrev RegFile := Vector Byte 128

/-- R[a] (R9). -/
def regGet (c : Chip) (r : RegFile) (a : Nat) : Byte := (r[c.home a]?).getD 0

/-- R[a] <- v, unfiltered (R9). -/
def regSet (c : Chip) (r : RegFile) (a : Nat) (v : Byte) : RegFile := r.setIfInBounds (c.home a) v

/-- A register file whose place k holds f k, where an address is stored there. -/
def fillRegs (c : Chip) (f : Nat → Byte) : RegFile :=
  Vector.ofFn fun k => if c.home k.val = k.val then f k.val else 0

/-- The register file after RESET, its draws taken from the free values from number d on (R150, R301). -/
def resetRegs (c : Chip) (d : Nat) : RegFile :=
  fillRegs c fun a => c.resetValue a (Config.freeByte (d + a))

/-- The register file at power-on: a free value within IMPL in every register (R300, R59; log 24). -/
def powerOnRegs (c : Chip) (d : Nat) : RegFile :=
  fillRegs c fun a => Config.freeByte (d + a) &&& c.impl a

end Sys2Proof.Machine
end

