-- ==== Sys2Proof/Machine/State.lean ====
section
/-! DEFINITION. The state of the three agents (R30 to R61), the model's inputs and observations, the reasons a step
stops, and the state right after reset. -/

namespace Sys2Proof.Machine

/-! ## HOST's results and errors (R270) -/

/-- HOST's status (R32). -/
inductive HostStatus where
  | unconstructed
  | ready
  | failed
  deriving DecidableEq, Repr

/-- The argument an E_ARGUMENT names (R183, R217, R231, R256, R272). -/
inductive ArgName where
  | sjw
  | brp
  | propSeg
  | phaseSeg1
  | phaseSeg2
  | samplingMode
  | baudRateSelect
  | bufferNumber
  | bufferIndex
  | payloadLength
  | ident
  | mode
  deriving DecidableEq, Repr

/-- The four error categories with the information each carries (R270 to R274). -/
inductive HostError where
  /-- E_TRANSPORT: the failing transaction's command, and its address where it has one (R271). -/
  | transport (k : CommandKind) (a : Option Byte)
  /-- E_CORRUPT_FRAME: the buffer and the DLC read (R273). -/
  | corruptFrame (buffer dlc : Nat)
  /-- E_ARGUMENT: the offending argument (R272). -/
  | argument (name : ArgName)
  /-- E_UNSUPPORTED: extended or RTR transmission (R274). -/
  | unsupported
  deriving DecidableEq, Repr

/-- What a transport or host call returns. -/
inductive Value where
  /-- `()`. -/
  | unit
  /-- readRegister's bytes (R153). -/
  | bytes (bs : List Byte)
  /-- readStatus's status byte (R159). -/
  | statusByte (s : Byte)
  /-- isFrameAvailable's answer (R250). -/
  | bool (b : Bool)
  /-- getMode's answer (R254). -/
  | mode (m : ModeReport)
  /-- A decoded frame (R215). -/
  | frame (f : Frame)
  /-- The empty result of poll-and-decode, not an error (R221). -/
  | noFrame
  deriving DecidableEq, Repr

/-- How a transport or host call ended (R270; a refusal is an outcome of the step). -/
inductive Result where
  | returned (v : Value)
  | raised (e : HostError)
  deriving DecidableEq, Repr

/-! ## The environment (R60, R161) -/

/-- One CANSIDE step with the values CANSIDE chooses (R60). A step whose precondition fails does not occur (log 3);
bits of a value outside what the effect may write are ignored. -/
inductive CanStep where
  /-- E1: receive into buffer n the values of registers +1 to +13, and the read-only bits of RXBnCTRL. -/
  | receive (n : Fin 2) (values : Vector Byte 13) (ctrl : Byte)
  /-- E1, both buffers full: set EFLG.RXnOVR. -/
  | overflow (n : Fin 2)
  /-- E2(a): transmission of buffer n completed. -/
  | transmitDone (n : Fin 3)
  /-- E2(b): any of ABTF, MLOA, TXERR (`status`), possibly ERRIF and MERRF (`flags`), possibly clearing TXREQ. -/
  | transmitError (n : Fin 3) (status flags : Byte) (clearRequest : Bool)
  /-- E3: TEC, REC, EFLG (bits 7:6 set only), possibly ERRIF, WAKIF, MERRF (`flags`). -/
  | errorUpdate (tec rec eflg flags : Byte)
  /-- E4: OPMOD takes the requested mode; possibly a value for ICOD. -/
  | applyMode (icod : Option (BitVec 3))
  /-- E4: wake-up from Sleep into Listen-Only; possibly a value for ICOD. -/
  | wakeUp (icod : Option (BitVec 3))
  /-- E5: the pin levels TXRTSCTRL[5:3], and which buffers a pin requests transmission of (bits 2:0). -/
  | pins (levels requests : Byte)
  deriving DecidableEq, Repr

/-- How a HOST exchange ends (R80, R161). -/
inductive XferEnd where
  /-- It completes. -/
  | completes
  /-- It fails and ENGINE's state is unchanged. -/
  | failsUnchanged
  /-- It fails after its full effect. -/
  | failsApplied
  /-- It fails after the first k data bytes of a WRITE; for any other command, which is all-or-nothing, unchanged
  (log 23). -/
  | failsAfter (k : Nat)
  deriving DecidableEq, Repr

/-- What the schedule says of one HOST transaction: the CANSIDE steps just before it, and how it ends. -/
structure XferSlot where
  before : List CanStep := []
  ending : XferEnd := .completes
  deriving DecidableEq, Repr

/-- One exchange on the link: the bytes sent, and the bytes captured, none where it failed (R80). -/
structure Exchange where
  mosi : List Byte
  miso : Option (List Byte)
  deriving DecidableEq, Repr

/-- One pending input (log 6). -/
inductive Input where
  /-- A transaction arrives at ENGINE on the link. -/
  | link (mosi : List Byte)
  /-- The caller makes a call. -/
  | call (i : Instr)
  /-- CANSIDE takes a step between two instructions. -/
  | canside (e : CanStep)
  deriving DecidableEq, Repr

/-- A call in progress: HOST's place in its transaction sequence (R31), which is the call and the MISO bytes of the
transactions it has completed (log 1). -/
structure Running where
  call      : Instr
  responses : List (List Byte)
  deriving DecidableEq, Repr

/-! ## The state -/

/-- The whole machine. `regs` is ENGINE's (R34 to R59); `status`, `config` and `running` are HOST's (R31, R32);
`params` are the parameters of R6; the other fields are the model's own (INVENTORY, State). -/
structure State where
  /-- ENGINE's register file (R34, R36). -/
  regs   : RegFile
  /-- HOST's status (R32). -/
  status : HostStatus
  /-- HOST's configuration record, none while not yet given (R32, R300). -/
  config : Option ControllerConfig
  /-- HOST's place in the call it is performing, none between calls (R31, R319). -/
  running : Option Running
  /-- The parameters (R6; log 8). No step changes them. -/
  params : ChipParams
  /-- How many free values have been taken (log 4). -/
  draws  : Nat
  /-- The schedule of the coming HOST transactions; past its end none fails and CANSIDE is quiet (log 2). -/
  sched  : List XferSlot
  /-- The pending inputs, oldest first (log 6). -/
  inbox  : List Input
  /-- The exchanges of the latest instruction, oldest first (log 20). -/
  bus    : List Exchange
  /-- How the latest transport or host call ended (log 20). -/
  result : Option Result
  deriving DecidableEq, Repr

/-- The reasons the machine stops. The spec gives the machine no fault: HOST's errors are results (R270, R279) and
ENGINE raises nothing (R275). -/
inductive Fault where
  /-- Raised by the step when no call is in progress and no input is pending: no agent has a step to take. Safe: the
  run stops where the machine waits (log 7). -/
  | noInput
  deriving DecidableEq, Repr

/-- The reasons an instruction is given no meaning. -/
inductive Refusal where
  /-- Raised by exec's arm of an instruction that has no meaning yet. Safe. -/
  | notModelled (mnemonic : String)
  /-- Raised by the step and by Xfer for bytes that are no transaction: unknown command, wrong length (R113, R121,
  R160: "refused"). Safe. -/
  | notATransaction (e : DecodeError)
  /-- Raised by ENGINE for a transaction that reaches an address of 0x80 or more (R82: "refused"). Safe. -/
  | addressOutOfRange
  /-- Raised by a host call other than ctor while HOST's status is not Ready (R303: "refused"). Safe. -/
  | hostNotReady
  /-- Raised by ctor while HOST's status is not Unconstructed (R303: "ctor itself is refused"). Safe. -/
  | alreadyConstructed
  deriving DecidableEq, Repr

/-- The machine right after reset: HOST as at power-on (R300), the register file as the RESET command leaves it
(R301, R36's reset column), nothing pending. Log 5. -/
def State.reset : State where
  regs := resetRegs Chip.standard 0
  status := .unconstructed
  config := none
  running := none
  params := ChipParams.standard
  draws := 128
  sched := []
  inbox := []
  bus := []
  result := none

/-- The machine at power-on, before any RESET: the register file holds draws (R300). -/
def State.powerOn : State :=
  { State.reset with regs := powerOnRegs Chip.standard 0 }

end Sys2Proof.Machine
end

