-- ==== Sys2Proof/Machine/Ops.lean ====
section
/-! DEFINITION. The named operations: reading and writing registers with the rules R86 to R89, free values, HOST's
operations as sequences of transactions, raising an error (R279) and ending a call (R270, R319). -/

namespace Sys2Proof.Machine

/-! ## Registers -/

/-- The chip's constants (R6). -/
abbrev State.chip (s : State) : Chip := s.params.chip

/-- R[a] (R9). -/
def State.reg (s : State) (a : Nat) : Byte := regGet s.chip s.regs a

/-- R[a] <- v, unfiltered. -/
def State.putReg (s : State) (a : Nat) (v : Byte) : State := { s with regs := regSet s.chip s.regs a v }

/-- Replace the whole register file. -/
def State.setRegs (s : State) (r : RegFile) : State := { s with regs := r }

/-- Count k free values as taken. -/
def State.drew (s : State) (k : Nat) : State := { s with draws := s.draws + k }

/-- What a READ of register a returns (R87). -/
def State.readReg (s : State) (a : Nat) : Byte := s.reg a &&& s.chip.impl a

/-- The 3-bit field of a byte whose lowest bit is i. -/
def fieldAt (i : Nat) (b : Byte) : BitVec 3 := b.extractLsb' i 3

/-- A 3-bit value in the place of a byte whose lowest bit is i. -/
def atField (i : Nat) (v : BitVec 3) : Byte := v.setWidth 8 <<< i

/-- OPMOD of a CANSTAT byte: "the status register's mode bits (top 3 bits)" (R40). -/
def opmodOf (b : Byte) : BitVec 3 := fieldAt 5 b

/-- CANSTAT.OPMOD, the mode the controller is in (R40, R55). -/
def State.opmod (s : State) : BitVec 3 := opmodOf (s.reg s.chip.addr.CANSTAT)

/-- CANCTRL.REQOP, the requested mode (R41, R55). -/
def State.reqop (s : State) : BitVec 3 := fieldAt s.chip.bits.REQOP (s.reg s.chip.addr.CANCTRL)

/-- The write rule (R86), with WMASK: bits outside it keep their value. -/
def maskedWrite (wmask old v : Byte) : Byte := (old &&& ~~~wmask) ||| (v &&& wmask)

/-- The value BITMOD stores before the write rule (R88): the mask counts where the register honours it. -/
def bitmodValue (capable : Bool) (old m v : Byte) : Byte :=
  let m' : Byte := if capable then m else 0xFF
  (old &&& ~~~m') ||| (v &&& m')

/-- Whether register a is protected now (R89). -/
def State.protectedNow (s : State) (a : Nat) : Bool :=
  s.chip.configProtected a && decide (s.opmod ≠ s.chip.modeCode .configure)

/-- Store a value that WRITE or BITMOD carries into register a: configuration protection (R89), then the write rule
(R86). A drawn value lies within IMPL (R59; log 8). -/
def State.storeReg (s : State) (a : Nat) (v : Byte) : State :=
  if s.protectedNow a then
    match s.params.protectedWriteEffect with
    | .ignored => s
    | .applied => s.putReg a (maskedWrite (s.chip.wmask a) (s.reg a) v)
    | .draw => (s.putReg a (Config.freeByte s.draws &&& s.chip.impl a)).drew 1
  else s.putReg a (maskedWrite (s.chip.wmask a) (s.reg a) v)

/-- MemRead(a, n) as a READ sees it (R9, R83, R87). -/
def State.readRegs (s : State) (a n : Nat) : List Byte :=
  (List.range n).map fun i => s.readReg (a + i)

/-- MemWrite(a, n, ds): the bytes land in ascending address order (R9, R83, R154). -/
def State.storeRegs (s : State) (a : Nat) : List Byte → State
  | [] => s
  | d :: ds => (s.storeReg a d).storeRegs (a + 1) ds

/-- k free values from number d on. -/
def freeBytes (d k : Nat) : List Byte :=
  (List.range k).map fun i => Config.freeByte (d + i)

/-! ## HOST's operations

A host operation is "a finite sequence of transactions, possibly conditional on earlier responses" (R7). It holds no
state of its own: what it does next depends on the MISO bytes so far alone (R32). -/

/-- A host operation from here on. -/
inductive Prog where
  /-- `return v` (R9). -/
  | ret (v : Value)
  /-- `raise E(info)` (R9, R279): the operation ends; no later transaction is issued, and nothing is saved or
  changed. -/
  | raise (e : HostError)
  /-- `Xfer(mosi)` (R80), and what follows it for each sequence of MISO bytes. -/
  | xfer (mosi : List Byte) (next : List Byte → Prog)

/-- The operation after the transactions whose MISO bytes are given, oldest first. -/
def Prog.resume : Prog → List (List Byte) → Prog
  | p, [] => p
  | .xfer _ next, miso :: rest => (next miso).resume rest
  | .ret v, _ :: _ => .ret v
  | .raise e, _ :: _ => .raise e

/-! ## Calls -/

/-- Record how a call ended (R270). -/
def State.ended (s : State) (r : Result) : State := { s with result := some r }

/-- Set HOST's status (R32). -/
def State.setStatus (s : State) (h : HostStatus) : State := { s with status := h }

/-- HOST takes the configuration record it is constructed with (R32; log 15). -/
def State.setConfig (s : State) (c : ControllerConfig) : State := { s with config := some c }

/-- Forget the exchanges of the previous instruction (log 20). -/
def State.clearBus (s : State) : State := { s with bus := [] }

/-- Record an exchange of this instruction (log 20). -/
def State.logged (s : State) (x : Exchange) : State := { s with bus := s.bus ++ [x] }

/-- HOST's place in a call (R31). -/
def State.setRunning (s : State) (r : Option Running) : State := { s with running := r }

/-- The status a constructor leaves: Ready after the sequencer completes, Failed after it raises any error (R32,
R195). -/
def statusAfterCtor : Result → HostStatus
  | .returned _ => .ready
  | .raised _ => .failed

/-- A constructor ends: the result is recorded and HOST's status set (R195). -/
def State.ctorEnded (s : State) (r : Result) : State := (s.ended r).setStatus (statusAfterCtor r)

/-- The numeric code of an error category (R270). -/
def errorCode : HostError → Nat
  | .transport _ _ => 1
  | .corruptFrame _ _ => 2
  | .argument _ => 3
  | .unsupported => 4

end Sys2Proof.Machine
end

