-- ==== Sys2Proof/Machine/Flags.lean ====
section
/-! DEFINITION. Flags and derived status: the status byte (R53), its interpretation (R252), the interrupt flags and
enables (R45, R46, R54, R276), the receive-buffer lock (R56), the pending mode request (R55). -/

namespace Sys2Proof.Machine

/-- Bit i of a byte, as a byte. -/
def bitOf (b : Byte) (i : Nat) : Byte := (b >>> i) &&& 1

/-- The byte with bit i set and no other. -/
def bit (i : Nat) : Byte := 1#8 <<< i

/-- RXnIF in CANINTF (R46). -/
def rxIF (c : Chip) (n : Nat) : Byte := bit (if n = 0 then c.bits.RX0IF else c.bits.RX1IF)

/-- TXnIF in CANINTF (R46). -/
def txIF (c : Chip) (n : Nat) : Byte :=
  bit (if n = 0 then c.bits.TX0IF else if n = 1 then c.bits.TX1IF else c.bits.TX2IF)

/-- ERRIF in CANINTF (R46). -/
def errIF (c : Chip) : Byte := bit c.bits.ERRIF
/-- WAKIF in CANINTF (R46). -/
def wakIF (c : Chip) : Byte := bit c.bits.WAKIF
/-- MERRF in CANINTF (R46). -/
def merrF (c : Chip) : Byte := bit c.bits.MERRF

/-- TXREQ in TXBnCTRL (R48). -/
def txreq (c : Chip) : Byte := bit c.bits.TXREQ

/-- BnRTSM in TXRTSCTRL (R52). -/
def pinMode (c : Chip) (n : Nat) : Byte :=
  bit (if n = 0 then c.bits.B0RTSM else if n = 1 then c.bits.B1RTSM else c.bits.B2RTSM)

/-- B0RTS, B1RTS and B2RTS in TXRTSCTRL (R52). -/
def pinLevels (c : Chip) : Byte := bit c.bits.B0RTS ||| bit c.bits.B1RTS ||| bit c.bits.B2RTS

/-- CANINTF.RXnIF. -/
def State.rxFlag (s : State) (n : Nat) : Bool := s.reg s.chip.addr.CANINTF &&& rxIF s.chip n != 0

/-- Receive buffer n is locked (R56). -/
def State.rxLocked (s : State) (n : Nat) : Bool := s.rxFlag n

/-- TXBnCTRL.TXREQ. -/
def State.txRequested (s : State) (n : Nat) : Bool := s.reg (s.chip.txb n).CTRL &&& txreq s.chip != 0

/-- The status byte S, computed from the register file (R53, R158). -/
def State.statusByte (s : State) : Byte :=
  let b := s.chip.bits
  let f := s.reg s.chip.addr.CANINTF
  bitOf f b.RX0IF <<< b.statusRX0IF ||| bitOf f b.RX1IF <<< b.statusRX1IF |||
    bitOf (s.reg (s.chip.txb 0).CTRL) b.TXREQ <<< b.statusTXREQ0 ||| bitOf f b.TX0IF <<< b.statusTX0IF |||
    bitOf (s.reg (s.chip.txb 1).CTRL) b.TXREQ <<< b.statusTXREQ1 ||| bitOf f b.TX1IF <<< b.statusTX1IF |||
    bitOf (s.reg (s.chip.txb 2).CTRL) b.TXREQ <<< b.statusTXREQ2 ||| bitOf f b.TX2IF <<< b.statusTX2IF

/-- A bit of the status byte. -/
def statusBit (s : Byte) (i : Nat) : Bool := bitOf s i != 0

/-- rxAvailable(s) (R252). -/
def rxAvailable (c : Chip) (s : Byte) : Bool := statusBit s c.bits.statusRX0IF || statusBit s c.bits.statusRX1IF

/-- rxBuffer(s) (R252): buffer 0 has priority (R221). -/
def rxBuffer (c : Chip) (s : Byte) : Option Nat :=
  if statusBit s c.bits.statusRX0IF then some 0 else if statusBit s c.bits.statusRX1IF then some 1 else none

/-- The eight fields of the status byte (R252). -/
structure StatusFields where
  rx0if   : Bool
  rx1if   : Bool
  txb0req : Bool
  tx0if   : Bool
  txb1req : Bool
  tx1if   : Bool
  txb2req : Bool
  tx2if   : Bool
  deriving DecidableEq, Repr

/-- statusFields(s) (R252). -/
def statusFields (c : Chip) (s : Byte) : StatusFields where
  rx0if := statusBit s c.bits.statusRX0IF
  rx1if := statusBit s c.bits.statusRX1IF
  txb0req := statusBit s c.bits.statusTXREQ0
  tx0if := statusBit s c.bits.statusTX0IF
  txb1req := statusBit s c.bits.statusTXREQ1
  tx1if := statusBit s c.bits.statusTX1IF
  txb2req := statusBit s c.bits.statusTXREQ2
  tx2if := statusBit s c.bits.statusTX2IF

/-- The interrupt source of CANINTF bit i is pending (R276). -/
def State.interruptPending (s : State) (i : Fin 8) : Bool := (s.reg s.chip.addr.CANINTF)[i.val]

/-- The interrupt source of CANINTF bit i is enabled, by CANINTE bit i (R45, R276). -/
def State.interruptEnabled (s : State) (i : Fin 8) : Bool := (s.reg s.chip.addr.CANINTE)[i.val]

/-- The INT output is driven active (R276). Nothing in the block observes it. -/
def State.intActive (s : State) : Bool := s.reg s.chip.addr.CANINTF &&& s.reg s.chip.addr.CANINTE != 0

/-- A mode request is pending (R55). -/
def State.modePending (s : State) : Bool := decide (s.reqop ≠ s.opmod)

end Sys2Proof.Machine
end

