-- ==== Sys2Proof/Machine/Operands.lean ====
section
/-! DEFINITION. The operand forms and the pure functions over them: bit-timing packing and its validation (R180 to
R183), identifier packing (R114, R115, R210 to R214), the DLC (R212), frame validation (R231), mode values (R254). -/

namespace Sys2Proof

/-- R33's defaults. `filtersEnabled` has none, so the caller gives it (U25; log 14). -/
def ControllerConfig.defaults (filtersEnabled : Bool) : ControllerConfig where
  sjw := 1
  brp := 1
  propSeg := 2
  phaseSeg1 := 4
  phaseSeg2 := 3
  samplingMode := 0x40
  baudRateSelect := 1
  sof := false
  wakeFilter := false
  rxPinMode := 0x00
  txRtsPinMode := 0x00
  filtersEnabled := filtersEnabled

end Sys2Proof

namespace Sys2Proof.Machine

/-! ## Bit timing (R180 to R183) -/

/-- packCNF1 (R180). -/
def packCNF1 (sjw brp : Nat) : Byte :=
  BitVec.ofNat 8 (((sjw - 1) <<< 6) ||| (brp - 1))

/-- packCNF2 (R181); R181's formula governs over MF's literal 0x83 (90_conflicts.md C2). -/
def packCNF2 (baudRateSelect samplingMode phaseSeg1 propSeg : Nat) : Byte :=
  BitVec.ofNat 8 ((baudRateSelect <<< 7) ||| samplingMode ||| ((phaseSeg1 - 1) <<< 3) ||| (propSeg - 1))

/-- packCNF3 (R182). -/
def packCNF3 (sof wakeFilter : Bool) (phaseSeg2 : Nat) : Byte :=
  BitVec.ofNat 8 ((if sof then 0x80 else 0) ||| (if wakeFilter then 0x40 else 0) ||| (phaseSeg2 - 1))

/-- validateConfig (R183): the first field out of its range, in R183's order, or none. -/
def configFault (c : ControllerConfig) : Option ArgName :=
  if ¬(1 ≤ c.sjw ∧ c.sjw ≤ 4) then some .sjw
  else if ¬(1 ≤ c.brp ∧ c.brp ≤ 64) then some .brp
  else if ¬(1 ≤ c.propSeg ∧ c.propSeg ≤ 8) then some .propSeg
  else if ¬(1 ≤ c.phaseSeg1 ∧ c.phaseSeg1 ≤ 8) then some .phaseSeg1
  else if ¬(1 ≤ c.phaseSeg2 ∧ c.phaseSeg2 ≤ 8) then some .phaseSeg2
  else if ¬(c.samplingMode = 0x00 ∨ c.samplingMode = 0x40) then some .samplingMode
  else if ¬(c.baudRateSelect = 0 ∨ c.baudRateSelect = 1) then some .baudRateSelect
  else none

/-! ## Identifiers (R114 to R116, R210, R211, R214) -/

/-- EFF_FLAG (R116). -/
abbrev EFF_FLAG : IdentWord := 0x80000000
/-- RTR_FLAG (R116). -/
abbrev RTR_FLAG : IdentWord := 0x40000000
/-- ERR_FLAG, the reserved bit 29 (R116). -/
abbrev ERR_FLAG : IdentWord := 0x20000000
/-- EFF_MASK (R116). -/
abbrev EFF_MASK : IdentWord := 0x1FFFFFFF
/-- SFF_MASK (R116). -/
abbrev SFF_MASK : IdentWord := 0x000007FF

/-- baseId of R114 and R210, in the width of the identifier word. -/
def baseId (sidh sidl : Byte) : IdentWord :=
  (sidh.setWidth 32 <<< 3) ||| (sidl.setWidth 32 >>> 5)

/-- decodeIdent (R210), the extended-identifier flag at SIDL bit `ide` (R51). -/
def decodeIdent (ide : Nat) (sidh sidl eid8 eid0 : Byte) : IdentWord :=
  if sidl &&& (1#8 <<< ide) != 0 then
    ((((baseId sidh sidl <<< 2) ||| (sidl &&& 0x03).setWidth 32) <<< 16) ||| (eid8.setWidth 32 <<< 8) |||
      eid0.setWidth 32) ||| EFF_FLAG
  else baseId sidh sidl

/-- RTR tagging by bit `rxrtr` of the receive buffer's control register (R211). -/
def tagRtr (rxrtr : Nat) (ctrl : Byte) (ident : IdentWord) : IdentWord :=
  if ctrl &&& (1#8 <<< rxrtr) != 0 then ident ||| RTR_FLAG else ident

/-- encodeStdId (R214, R114): SIDH and SIDL of a standard identifier. -/
def encodeStdId (id : IdentWord) : Byte × Byte :=
  ((id >>> 3).setWidth 8, (id <<< 5).setWidth 8)

/-- The four identifier registers of an extended identifier: SIDH, SIDL, EID8, EID0 (R115), the extended-identifier flag
at SIDL bit `ide`. No host call writes this layout (R232); decodeIdent reads it. -/
def storeExtId (ide : Nat) (id : IdentWord) : Byte × Byte × Byte × Byte :=
  ((id >>> 21).setWidth 8,
   ((id >>> 13).setWidth 8 &&& 0xE0#8) ||| (1#8 <<< ide) ||| ((id >>> 16).setWidth 8 &&& 0x03#8),
   (id >>> 8).setWidth 8,
   id.setWidth 8)

/-! ## DLC and frames (R212, R231) -/

/-- dlcOf (R212), the field's lowest bit at `pos` (R51). -/
def dlcOf (pos : Nat) (b : Byte) : Nat := ((b >>> pos) &&& 0x0F).toNat

/-- The DLC byte that writeFrame writes (R117): the payload length, in the field's place. -/
def dlcByte (pos length : Nat) : Byte := BitVec.ofNat 8 length <<< pos

/-- writeFrame's validation (R231): the first check that fails, in R231's order, or none. -/
def frameFault (f : Frame) (n : Nat) : Option HostError :=
  if ¬n < 3 then some (.argument .bufferIndex)
  else if 8 < f.payloadLength ∨ f.payload.length ≠ f.payloadLength then some (.argument .payloadLength)
  else if f.ident &&& ERR_FLAG ≠ 0 then some (.argument .ident)
  else if f.ident &&& (EFF_FLAG ||| RTR_FLAG) ≠ 0 then some .unsupported
  else if SFF_MASK < f.ident then some (.argument .ident)
  else none

/-! ## Modes and addresses -/

/-- getMode's reading of a mode field (R254, R119). -/
def modeOfField (c : Chip) (v : BitVec 3) : ModeReport :=
  if v = c.modes.normal then .mode .normal
  else if v = c.modes.sleep then .mode .sleep
  else if v = c.modes.loopback then .mode .loopback
  else if v = c.modes.listenOnly then .mode .listenOnly
  else if v = c.modes.configure then .mode .configure
  else .invalid v

/-- The value is the code of one of the five modes (R119). -/
def isModeCode (c : Chip) (v : BitVec 3) : Bool :=
  [c.modes.normal, c.modes.sleep, c.modes.loopback, c.modes.listenOnly, c.modes.configure].contains v

/-- The mask of CANCTRL.REQOP, 0xE0 by default (R256). -/
def reqopMask (c : Chip) : Byte := atField c.bits.REQOP 0x7

/-- A mode's code at its place in CANCTRL: `c << 5` by default (R256). -/
def modeBits (c : Chip) (m : Mode) : Byte := atField c.bits.REQOP (c.modeCode m)

/-- Every register that n bytes from address a touch exists, and so does a itself when n = 0 (R82, R152). -/
def registersExist (a n : Nat) : Bool :=
  decide (a ≤ 0x7F) && decide (a + n ≤ 0x80)

/-- An address as the address byte sent on the link. -/
def addressByte (a : Nat) : Byte := BitVec.ofNat 8 a

end Sys2Proof.Machine
end

