-- ==== Sys2Proof/Machine/CanSide.lean ====
section
/-! DEFINITION. The environment agent CANSIDE: its effects E1 to E5 on the register file (R60), each only where its
precondition holds (log 3). It narrows nothing by mode (R60, R283). -/

namespace Sys2Proof.Machine

/-- Set the bits of m in register a. -/
def State.setBits (s : State) (a : Nat) (m : Byte) : State := s.putReg a (s.reg a ||| m)

/-- Clear the bits of m in register a. -/
def State.clearBits (s : State) (a : Nat) (m : Byte) : State := s.putReg a (s.reg a &&& ~~~m)

/-- Write the bits of m in register a from v. -/
def State.putBits (s : State) (a : Nat) (m v : Byte) : State := s.putReg a ((s.reg a &&& ~~~m) ||| (v &&& m))

/-- Write values within IMPL to registers, each to its own address. -/
def State.loadRegs (s : State) : List Nat → List Byte → State
  | a :: as, d :: ds => (s.putReg a (d &&& s.chip.impl a)).loadRegs as ds
  | [], _ => s
  | _ :: _, [] => s

/-- The read-only bits of register a: implemented, and not writable from the link. -/
def readOnlyBits (c : Chip) (a : Nat) : Byte := c.impl a &&& ~~~c.wmask a

/-- Write CANSTAT.ICOD (R40), where CANSIDE chooses to. -/
def State.putIcod (s : State) : Option (BitVec 3) → State
  | none => s
  | some i => s.putBits s.chip.addr.CANSTAT (atField s.chip.bits.ICOD 0x7) (atField s.chip.bits.ICOD i)

/-- Write CANSTAT.OPMOD (R40). -/
def State.putOpmod (s : State) (m : BitVec 3) : State := s.putBits s.chip.addr.CANSTAT 0xE0 (atField 5 m)

/-- Set TXBnCTRL.TXREQ for the buffer whose pin requests it and whose pin mode admits it (R60 E5). -/
def State.pinRequest (s : State) (modes requests : Byte) (n : Nat) : State :=
  if modes &&& pinMode s.chip n != 0 && requests &&& bit n != 0 then s.setBits (s.chip.txb n).CTRL (txreq s.chip)
  else s

/-- ABTF, MLOA and TXERR of TXBnCTRL (R48). -/
def outcomeBits (c : Chip) : Byte := bit c.bits.ABTF ||| bit c.bits.MLOA ||| bit c.bits.TXERR

/-- RX0OVR and RX1OVR of EFLG (R47). -/
def overflowBits (c : Chip) : Byte := bit c.bits.RX0OVR ||| bit c.bits.RX1OVR

/-- Whether the precondition of a CANSIDE step holds (R60). -/
def State.admitsCanStep (s : State) : CanStep → Bool
  | .receive n _ _ => !s.rxFlag n
  | .overflow _ => s.rxFlag 0 && s.rxFlag 1
  | .transmitDone n => s.txRequested n
  | .transmitError n _ _ _ => s.txRequested n
  | .errorUpdate _ _ _ _ => true
  | .applyMode _ => isModeCode s.chip s.reqop
  | .wakeUp _ => decide (s.opmod = s.chip.modeCode .sleep)
  | .pins _ _ => true

/-- The effect of a CANSIDE step whose precondition holds (R60). -/
def State.canEffect (s : State) : CanStep → State
  | .receive n values ctrl =>
    let b := s.chip.rxb n
    ((s.loadRegs b.frame values.toList).putBits b.CTRL (readOnlyBits s.chip b.CTRL) ctrl).setBits s.chip.addr.CANINTF
      (rxIF s.chip n)
  | .overflow n => s.setBits s.chip.addr.EFLG (bit (if n = 0 then s.chip.bits.RX0OVR else s.chip.bits.RX1OVR))
  | .transmitDone n => (s.clearBits (s.chip.txb n).CTRL (txreq s.chip)).setBits s.chip.addr.CANINTF (txIF s.chip n)
  | .transmitError n status flags clearRequest =>
    let t := (s.setBits (s.chip.txb n).CTRL (status &&& outcomeBits s.chip)).setBits s.chip.addr.CANINTF
      (flags &&& (errIF s.chip ||| merrF s.chip))
    if clearRequest then t.clearBits (s.chip.txb n).CTRL (txreq s.chip) else t
  | .errorUpdate tec rec eflg flags =>
    let t := ((s.putReg s.chip.addr.TEC (tec &&& s.chip.impl s.chip.addr.TEC)).putReg s.chip.addr.REC
      (rec &&& s.chip.impl s.chip.addr.REC)).putBits s.chip.addr.EFLG
      (s.chip.impl s.chip.addr.EFLG &&& ~~~overflowBits s.chip) eflg
    (t.setBits s.chip.addr.EFLG (eflg &&& overflowBits s.chip)).setBits s.chip.addr.CANINTF
      (flags &&& (errIF s.chip ||| wakIF s.chip ||| merrF s.chip))
  | .applyMode icod => (s.putOpmod s.reqop).putIcod icod
  | .wakeUp icod =>
    ((s.putOpmod (s.chip.modeCode .listenOnly)).setBits s.chip.addr.CANINTF (wakIF s.chip)).putIcod icod
  | .pins levels requests =>
    let t := s.putBits s.chip.addr.TXRTSCTRL (pinLevels s.chip) levels
    let modes := s.reg s.chip.addr.TXRTSCTRL
    ((t.pinRequest modes requests 0).pinRequest modes requests 1).pinRequest modes requests 2

/-- A CANSIDE step: its effect where it may occur, nothing where it may not (R60; log 3). -/
def State.canStep (s : State) (e : CanStep) : State :=
  if s.admitsCanStep e then s.canEffect e else s

/-- The CANSIDE steps that a schedule places before a transaction, in order. -/
def State.canSteps (s : State) : List CanStep → State
  | [] => s
  | e :: es => (s.canStep e).canSteps es

end Sys2Proof.Machine
end

