-- ==== Sys2Proof/Machine/SpiCommands.lean ====
section
/-! DEFINITION. ENGINE: what a transaction does to the register file and what it answers (R150, R152, R154, R156,
R158), and the meanings of the five SPI commands. -/

namespace Sys2Proof.Machine

/-- The registers a transaction touches exist (R82). -/
def commandAdmitted : Command → Bool
  | .reset => true
  | .read a n => registersExist a.toNat n
  | .write a ds => registersExist a.toNat ds.length
  | .bitmod a _ _ => registersExist a.toNat 1
  | .rdstatus => true

/-- RESET on the register file: every register takes its reset value, draws drawn afresh (R150). -/
def State.resetRegisters (s : State) : State :=
  (s.setRegs (resetRegs s.chip s.draws)).drew 128

/-- BITMOD on the register file (R156). -/
def State.bitmodReg (s : State) (a : Nat) (m v : Byte) : State :=
  s.storeReg a (bitmodValue (s.chip.bitmodCapable a) (s.reg a) m v)

/-- A transaction's effect on ENGINE's state, as one atomic step (R84). READ and RDSTATUS have none (R87). -/
def State.engineEffect (s : State) : Command → State
  | .reset => s.resetRegisters
  | .read _ _ => s
  | .write a ds => s.storeRegs a.toNat ds
  | .bitmod a m v => s.bitmodReg a.toNat m v
  | .rdstatus => s

/-- How many MISO bytes of no meaning precede the response (R81, R112). -/
def fillerLength : Command → Nat
  | .reset => 1
  | .read _ _ => 2
  | .write _ ds => 2 + ds.length
  | .bitmod _ _ _ => 4
  | .rdstatus => 1

/-- The MISO bytes that carry a response (R112, R152, R158). -/
def State.engineResponse (s : State) : Command → List Byte
  | .reset => []
  | .read a n => s.readRegs a.toNat n
  | .write _ _ => []
  | .bitmod _ _ _ => []
  | .rdstatus => [s.statusByte]

/-- ENGINE executes a transaction whose bytes decode to c: the MISO bytes and the state after it. Bytes of no meaning
are free values (R81). -/
def State.engine (s : State) (c : Command) : List Byte × State :=
  let t := s.engineEffect c
  (freeBytes t.draws (fillerLength c) ++ s.engineResponse c, t.drew (fillerLength c))

/-- An SPI command as an instruction: one transaction on the link. It raises nothing (R275); one that reaches an
address of 0x80 or more is refused (R82). -/
def linkCommand (c : Command) (s : State) : Host.Outcome State Fault Refusal :=
  if commandAdmitted c then
    .next ((s.clearBus.engine c).2.logged ⟨encodeCommand s.chip.commands c, some (s.clearBus.engine c).1⟩)
  else .refused .addressOutOfRange

/-- RESET (R150). -/
def execReset (s : State) : Host.Outcome State Fault Refusal := linkCommand .reset s

/-- READ a, n (R152). -/
def execRead (a : Byte) (n : Nat) (s : State) : Host.Outcome State Fault Refusal := linkCommand (.read a n) s

/-- WRITE a, d0..d(n-1) (R154). -/
def execWrite (a : Byte) (ds : List Byte) (s : State) : Host.Outcome State Fault Refusal := linkCommand (.write a ds) s

/-- BITMOD a, m, v (R156). -/
def execBitmod (a m v : Byte) (s : State) : Host.Outcome State Fault Refusal := linkCommand (.bitmod a m v) s

/-- RDSTATUS (R158). -/
def execRdstatus (s : State) : Host.Outcome State Fault Refusal := linkCommand .rdstatus s

end Sys2Proof.Machine
end

