-- ==== Sys2Proof/Machine/Transport.lean ====
section
/-! DEFINITION. HOST's side of the link: `Xfer` with the schedule of CANSIDE steps and failures (R80, R96, R161), a host
operation run on a state, the transport calls (R151, R153, R155, R157, R159), and their meanings as instructions. -/

namespace Sys2Proof.Machine

/-! ## Xfer -/

/-- The schedule's word on the next HOST transaction: quiet and completing past its end (log 2). -/
def State.nextSlot (s : State) : XferSlot := s.sched.headD {}

/-- The schedule's word on the next transaction is used up. -/
def State.slotTaken (s : State) : State := { s with sched := s.sched.tail }

/-- The first CANSIDE step that the schedule places before the next transaction is used up. -/
def State.canStepTaken (s : State) : State :=
  { s with sched := { s.nextSlot with before := s.nextSlot.before.tail } :: s.sched.tail }

/-- The state in which ENGINE meets the next HOST transaction: the slot is used up and the CANSIDE steps it places
before the transaction have been taken (R96). -/
def State.beforeXfer (s : State) : State := s.slotTaken.canSteps s.nextSlot.before

/-- ENGINE's state after a failed exchange of c (R161): unchanged, the full effect, or for WRITE the effect of the
first k data bytes. -/
def State.failedEffect (s : State) (c : Command) : XferEnd → State
  | .completes => s
  | .failsUnchanged => s
  | .failsApplied => s.engineEffect c
  | .failsAfter k =>
    match c with
    | .write a ds => s.storeRegs a.toNat (ds.take k)
    | .reset => s
    | .read _ _ => s
    | .bitmod _ _ _ => s
    | .rdstatus => s

/-- What an exchange comes to. -/
inductive XferResult where
  /-- It completed with these MISO bytes. -/
  | completed (miso : List Byte) (t : State)
  /-- It failed, and HOST sees this error. -/
  | failed (e : HostError) (t : State)
  /-- The bytes are no transaction or reach no register: it has no step (R160). -/
  | refused (r : Refusal)

/-- One transaction, decoded by ENGINE from its bytes (R81) in the state given, completing or failing as said. HOST
sees a failure as E_TRANSPORT with the command and address (R271) and no MISO bytes (R161). -/
def State.exchange (s : State) (mosi : List Byte) (ending : XferEnd) : XferResult :=
  match decodeCommand s.chip.commands mosi with
  | .error e => .refused (.notATransaction e)
  | .ok c =>
    if commandAdmitted c then
      match ending with
      | .completes => .completed (s.engine c).1 ((s.engine c).2.logged ⟨mosi, some (s.engine c).1⟩)
      | e => .failed (.transport c.kind c.address?) ((s.failedEffect c e).logged ⟨mosi, none⟩)
    else .refused .addressOutOfRange

/-- `Xfer(mosi) -> miso` (R80), after the CANSIDE steps that the schedule places before it. -/
def State.xfer (s : State) (mosi : List Byte) : XferResult := s.beforeXfer.exchange mosi s.nextSlot.ending

/-! ## A host operation run to its end -/

/-- Run an operation to its end (R270, R319): a result or one raised error is recorded by `ends` and the machine goes
on; a refusal has no step. Ending with an error changes nothing else (R279). -/
def Prog.run (ends : State → Result → State) : Prog → State → Host.Outcome State Fault Refusal
  | .ret v, s => .next (ends s (.returned v))
  | .raise e, s => .next (ends s (.raised e))
  | .xfer mosi next, s =>
    match s.xfer mosi with
    | .completed miso t => (next miso).run ends t
    | .failed e t => .next (ends t (.raised e))
    | .refused r => .refused r

/-- A call whose operation is p, in every status of HOST. -/
def anyCall (p : Prog) (s : State) : Host.Outcome State Fault Refusal := p.run State.ended s.clearBus

/-- A host call other than ctor whose operation is p: refused unless HOST's status is Ready (R303). -/
def readyCall (p : Prog) (s : State) : Host.Outcome State Fault Refusal :=
  if s.status = .ready then p.run State.ended s.clearBus else .refused .hostNotReady

/-! ## The transport calls -/

/-- reset() (R151), then p. -/
def resetCall (c : Chip) (p : Prog) : Prog :=
  .xfer (encodeCommand c.commands .reset) fun _ => p

/-- readRegister(a, n) (R153): MISO bytes 2 to n+1. -/
def readRegister (c : Chip) (a : Byte) (n : Nat) (next : List Byte → Prog) : Prog :=
  .xfer (encodeCommand c.commands (.read a n)) fun miso => next ((miso.drop 2).take n)

/-- writeRegister(a, bytes) (R155), then p. -/
def writeRegister (c : Chip) (a : Byte) (bytes : List Byte) (p : Prog) : Prog :=
  .xfer (encodeCommand c.commands (.write a bytes)) fun _ => p

/-- modifyRegister(a, m, v) (R157), then p: one BITMOD, never a READ followed by a WRITE (R99). -/
def modifyRegister (c : Chip) (a m v : Byte) (p : Prog) : Prog :=
  .xfer (encodeCommand c.commands (.bitmod a m v)) fun _ => p

/-- readStatus() (R159): MISO byte 1. -/
def readStatus (c : Chip) (next : Byte → Prog) : Prog :=
  .xfer (encodeCommand c.commands .rdstatus) fun miso => next (miso.getD 1 0)

/-! ## The transport calls as instructions (R124). They have no status precondition (log 22). -/

/-- reset() as an operation of its own. -/
def resetProg (c : Chip) : Prog := resetCall c (.ret .unit)

/-- readRegister(a, n) as an operation of its own. -/
def readRegisterProg (c : Chip) (a : Byte) (n : Nat) : Prog := readRegister c a n fun bs => .ret (.bytes bs)

/-- writeRegister(a, byteOrBytes) as an operation of its own. -/
def writeRegisterProg (c : Chip) (a : Byte) (data : ByteOrBytes) : Prog := writeRegister c a data.toList (.ret .unit)

/-- modifyRegister(a, m, v) as an operation of its own. -/
def modifyRegisterProg (c : Chip) (a m v : Byte) : Prog := modifyRegister c a m v (.ret .unit)

/-- readStatus() as an operation of its own. -/
def readStatusProg (c : Chip) : Prog := readStatus c fun b => .ret (.statusByte b)

/-- reset() (R151). -/
def execResetCall (s : State) : Host.Outcome State Fault Refusal := anyCall (resetProg s.chip) s

/-- readRegister(a, n) (R153). -/
def execReadRegister (a : Byte) (n : Nat) (s : State) : Host.Outcome State Fault Refusal :=
  anyCall (readRegisterProg s.chip a n) s

/-- writeRegister(a, byteOrBytes) (R155). -/
def execWriteRegister (a : Byte) (data : ByteOrBytes) (s : State) : Host.Outcome State Fault Refusal :=
  anyCall (writeRegisterProg s.chip a data) s

/-- modifyRegister(a, m, v) (R157). -/
def execModifyRegister (a m v : Byte) (s : State) : Host.Outcome State Fault Refusal :=
  anyCall (modifyRegisterProg s.chip a m v) s

/-- readStatus() (R159). -/
def execReadStatus (s : State) : Host.Outcome State Fault Refusal := anyCall (readStatusProg s.chip) s

end Sys2Proof.Machine
end

