-- ==== Sys2Proof/Machine/StatusMode.lean ====
section
/-! DEFINITION. The status and interrupt-flag interpreter (43_status_interrupt.md): isFrameAvailable, getMode,
setMode, and the flag-clearing discipline (R258). -/

namespace Sys2Proof.Machine

/-- getMode() (R254): one READ of CANSTAT; the mode in effect, not the requested one. -/
def getMode (c : Chip) (next : ModeReport → Prog) : Prog :=
  readRegister c (addressByte c.addr.CANSTAT) 1 fun b => next (modeOfField c (opmodOf (b.getD 0 0)))

/-- setMode's transaction for an enumerator (R256), then p: a masked modify of REQOP, never a WRITE (R258). -/
def requestMode (c : Chip) (m : Mode) (p : Prog) : Prog :=
  modifyRegister c (addressByte c.addr.CANCTRL) (reqopMask c) (modeBits c m) p

/-- The clear of a consumed flag (R216, R258), then p: BITMOD CANINTF, 1 << n, 0x00, never a WRITE. -/
def clearRxFlag (c : Chip) (n : Nat) (p : Prog) : Prog :=
  modifyRegister c (addressByte c.addr.CANINTF) (rxIF c n) 0x00 p

/-- isFrameAvailable() (R250): a function of the one status byte it reads. -/
def isFrameAvailableProg (c : Chip) : Prog := readStatus c fun b => .ret (.bool (rxAvailable c b))

/-- getMode() (R254). -/
def getModeProg (c : Chip) : Prog := getMode c fun m => .ret (.mode m)

/-- setMode(mode) (R256): a mode outside the enumerators is E_ARGUMENT before any bus access. -/
def setModeProg (c : Chip) : ModeArg → Prog
  | .enumerator m => requestMode c m (.ret .unit)
  | .outside _ => .raise (.argument .mode)

/-- isFrameAvailable() (R250). -/
def execIsFrameAvailable (s : State) : Host.Outcome State Fault Refusal := readyCall (isFrameAvailableProg s.chip) s

/-- getMode() (R254). -/
def execGetMode (s : State) : Host.Outcome State Fault Refusal := readyCall (getModeProg s.chip) s

/-- setMode(mode) (R256). -/
def execSetMode (mode : ModeArg) (s : State) : Host.Outcome State Fault Refusal := readyCall (setModeProg s.chip mode) s

end Sys2Proof.Machine
end

