-- ==== Sys2Proof/Machine/FrameCodec.lean ====
section
/-! DEFINITION. The frame codec (42_frame_codec.md): receive decode, poll-and-decode, transmit encode. -/

namespace Sys2Proof.Machine

/-- readFrame(n) for a receive buffer that exists (R215): T1 and T2, the DLC check (R213), T3, T4. T1 and T3 are runs of
registers, from SIDH and from D0 (R38). -/
def decodeBuffer (c : Chip) (n : Nat) : Prog :=
  readRegister c (addressByte (c.rxb n).SIDH) 5 fun ids =>
  readRegister c (addressByte (c.rxb n).CTRL) 1 fun ctrl =>
  let ident := tagRtr c.bits.RXRTR (ctrl.getD 0 0)
    (decodeIdent c.bits.IDE (ids.getD 0 0) (ids.getD 1 0) (ids.getD 2 0) (ids.getD 3 0))
  let dlc := dlcOf c.bits.DLC (ids.getD 4 0)
  if 8 < dlc then .raise (.corruptFrame n dlc)
  else
    readRegister c (addressByte (c.rxb n).D0) dlc fun payload =>
    clearRxFlag c n
    (.ret (.frame { ident := ident, payloadLength := dlc, payload := payload }))

/-- readFrame(n) (R215): an index outside 0 and 1 is E_ARGUMENT before any bus access (R217). -/
def readFrameProg (c : Chip) (n : Nat) : Prog :=
  if n < 2 then decodeBuffer c n else .raise (.argument .bufferNumber)

/-- readFrame() (R220): the first flag set decides, buffer 0 before buffer 1 (R221). -/
def pollFrameProg (c : Chip) : Prog :=
  readStatus c fun b =>
  match rxBuffer c b with
  | some n => readFrameProg c n
  | none => .ret .noFrame

/-- The payload WRITEs of writeFrame (R233 lines W4+i), then p: one data register each, D0 first. -/
def writePayload (c : Chip) (p : Prog) : List Nat → List Byte → Prog
  | a :: as, b :: bs => writeRegister c (addressByte a) [b] (writePayload c p as bs)
  | [], _ => p
  | _ :: _, [] => p

/-- writeFrame's transactions for a frame that passed validation (R233), ending with the transmit request (R234). -/
def encodeFrame (c : Chip) (f : Frame) (n : Nat) : Prog :=
  writeRegister c (addressByte (c.txb n).SIDH) [(encodeStdId f.ident).1] <|
  writeRegister c (addressByte (c.txb n).SIDL) [(encodeStdId f.ident).2] <|
  writeRegister c (addressByte (c.txb n).DLC) [dlcByte c.bits.DLC f.payloadLength] <|
  writePayload c (modifyRegister c (addressByte (c.txb n).CTRL) (txreq c) (txreq c) (.ret .unit)) (c.txb n).data f.payload

/-- writeFrame(f, n) (R233): validation first, before any bus access (R231, R232). -/
def writeFrameProg (c : Chip) (f : Frame) (n : Nat) : Prog :=
  match frameFault f n with
  | some e => .raise e
  | none => encodeFrame c f n

/-- readFrame(n) (R215). -/
def execReadFrame (n : Nat) (s : State) : Host.Outcome State Fault Refusal := readyCall (readFrameProg s.chip n) s

/-- readFrame() (R220). -/
def execPollFrame (s : State) : Host.Outcome State Fault Refusal := readyCall (pollFrameProg s.chip) s

/-- writeFrame(f, n) (R233). -/
def execWriteFrame (f : Frame) (n : Nat) (s : State) : Host.Outcome State Fault Refusal :=
  readyCall (writeFrameProg s.chip f n) s

end Sys2Proof.Machine
end

