-- ==== Sys2Proof/Machine/Sequencer.lean ====
section
/-! DEFINITION. The configuration sequencer (41_configuration.md): ctor(config) with its transaction list and its
failure policy. -/

namespace Sys2Proof.Machine

/-- INTE_VAL: RX0IE, RX1IE, TX0IE, ERRIE, MERRE, each at its flag's place; 0xA7 by default (R45, R120, R194). -/
def inteVal (c : Chip) : Byte := rxIF c 0 ||| rxIF c 1 ||| txIF c 0 ||| errIF c ||| merrF c

/-- TXB_CLEAR_LEN (R6, R191). -/
abbrev TXB_CLEAR_LEN : Nat := 13
/-- FILTER_GROUP_LEN (R6). -/
abbrev FILTER_GROUP_LEN : Nat := 12
/-- MASK_GROUP_LEN (R6). -/
abbrev MASK_GROUP_LEN : Nat := 8

/-- k zero bytes, `0×k` in R123's syntax. -/
def zeros (k : Nat) : List Byte := List.replicate k 0x00

/-- RXBnCTRL.RXM, 0x60 by default (R50, R192). -/
def rxmMask (c : Chip) : Byte := (3#8 <<< c.bits.RXM)

/-- RXM's value for the filter toggle (R192). -/
def filterMode (c : Chip) (filtersEnabled : Bool) : Byte := if filtersEnabled then 0x00 else rxmMask c

/-- Lines 2 and 3 of R190, then p: read the mode, and request Configure unless it is already in effect. -/
def forceConfigure (c : Chip) (p : Prog) : Prog :=
  getMode c fun m => if m = .mode .configure then p else requestMode c .configure p

/-- Lines 4 to 9 of R190, then p: bit timing, filters and masks. -/
def configureTiming (c : Chip) (config : ControllerConfig) (p : Prog) : Prog :=
  writeRegister c (addressByte c.addr.CNF1) [packCNF1 config.sjw config.brp] <|
  writeRegister c (addressByte c.addr.CNF2)
    [packCNF2 config.baudRateSelect config.samplingMode config.phaseSeg1 config.propSeg] <|
  writeRegister c (addressByte c.addr.CNF3) [packCNF3 config.sof config.wakeFilter config.phaseSeg2] <|
  writeRegister c (addressByte c.addr.RXF0.SIDH) (zeros FILTER_GROUP_LEN) <|
  writeRegister c (addressByte c.addr.RXF3.SIDH) (zeros FILTER_GROUP_LEN) <|
  writeRegister c (addressByte c.addr.RXM0.SIDH) (zeros MASK_GROUP_LEN) p

/-- Lines 10 to 14 of R190, then p: transmit and receive control (R191). -/
def clearBuffers (c : Chip) (p : Prog) : Prog :=
  writeRegister c (addressByte (c.txb 0).CTRL) (zeros TXB_CLEAR_LEN) <|
  writeRegister c (addressByte (c.txb 1).CTRL) (zeros TXB_CLEAR_LEN) <|
  writeRegister c (addressByte (c.txb 2).CTRL) (zeros TXB_CLEAR_LEN) <|
  writeRegister c (addressByte (c.rxb 0).CTRL) [0x00] <|
  writeRegister c (addressByte (c.rxb 1).CTRL) [0x00] p

/-- Lines 15 to 20 of R190, then p: interrupts (R194), pins (R193), hardware filtering (R192), Normal mode. -/
def enableOperation (c : Chip) (config : ControllerConfig) (p : Prog) : Prog :=
  writeRegister c (addressByte c.addr.CANINTE) [inteVal c] <|
  writeRegister c (addressByte c.addr.BFPCTRL) [config.rxPinMode] <|
  writeRegister c (addressByte c.addr.TXRTSCTRL) [config.txRtsPinMode] <|
  modifyRegister c (addressByte (c.rxb 0).CTRL) (rxmMask c) (filterMode c config.filtersEnabled) <|
  modifyRegister c (addressByte (c.rxb 1).CTRL) (rxmMask c) (filterMode c config.filtersEnabled) <|
  requestMode c .normal p

/-- The sequencer (R190): validation before any bus access (R183), then the transactions in R304's order. -/
def ctorProg (c : Chip) (config : ControllerConfig) : Prog :=
  match configFault config with
  | some name => .raise (.argument name)
  | none =>
    resetCall c <| forceConfigure c <| configureTiming c config <| clearBuffers c <| enableOperation c config (.ret .unit)

/-- ctor(config) (R190): refused unless HOST is Unconstructed (R303). -/
def execCtor (config : ControllerConfig) (s : State) : Host.Outcome State Fault Refusal :=
  if s.status = .unconstructed then (ctorProg s.chip config).run State.ctorEnded (s.clearBus.setConfig config)
  else .refused .alreadyConstructed

end Sys2Proof.Machine
end

