-- ==== Sys2Proof/Machine/Dispatch.lean ====
section
/-! DEFINITION. One arm per row of the opcode table. -/

namespace Sys2Proof.Machine

def exec (i : Instr) (s : State) : Host.Outcome State Fault Refusal :=
  match i with
  | .reset => Sys2Proof.Machine.execReset s
  | .read a n => Sys2Proof.Machine.execRead a n s
  | .write a ds => Sys2Proof.Machine.execWrite a ds s
  | .bitmod a m v => Sys2Proof.Machine.execBitmod a m v s
  | .rdstatus => Sys2Proof.Machine.execRdstatus s
  | .resetCall => Sys2Proof.Machine.execResetCall s
  | .readRegister a n => Sys2Proof.Machine.execReadRegister a n s
  | .writeRegister a data => Sys2Proof.Machine.execWriteRegister a data s
  | .modifyRegister a m v => Sys2Proof.Machine.execModifyRegister a m v s
  | .readStatus => Sys2Proof.Machine.execReadStatus s
  | .ctor config => Sys2Proof.Machine.execCtor config s
  | .readFrame n => Sys2Proof.Machine.execReadFrame n s
  | .pollFrame => Sys2Proof.Machine.execPollFrame s
  | .writeFrame f n => Sys2Proof.Machine.execWriteFrame f n s
  | .isFrameAvailable => Sys2Proof.Machine.execIsFrameAvailable s
  | .getMode => Sys2Proof.Machine.execGetMode s
  | .setMode mode => Sys2Proof.Machine.execSetMode mode s

end Sys2Proof.Machine
end

