-- ==== Sys2Proof/Machine/Calls.lean ====
section
/-! DEFINITION. A call taken one step at a time (R7, R95): the operation each call performs, how it begins and ends, and
HOST's next action in it, one CANSIDE step or one exchange. -/

namespace Sys2Proof.Machine

/-- The operation a call performs; none for an SPI command, which is one transaction and no call. -/
def callProg (c : Chip) : Instr → Option Prog
  | .reset => none
  | .read _ _ => none
  | .write _ _ => none
  | .bitmod _ _ _ => none
  | .rdstatus => none
  | .resetCall => some (resetProg c)
  | .readRegister a n => some (readRegisterProg c a n)
  | .writeRegister a data => some (writeRegisterProg c a data)
  | .modifyRegister a m v => some (modifyRegisterProg c a m v)
  | .readStatus => some (readStatusProg c)
  | .ctor config => some (ctorProg c config)
  | .readFrame n => some (readFrameProg c n)
  | .pollFrame => some (pollFrameProg c)
  | .writeFrame f n => some (writeFrameProg c f n)
  | .isFrameAvailable => some (isFrameAvailableProg c)
  | .getMode => some (getModeProg c)
  | .setMode mode => some (setModeProg c mode)

/-- The instruction is one of the six host calls that need HOST Ready (R303). -/
def needsReady : Instr → Bool
  | .readFrame _ => true
  | .pollFrame => true
  | .writeFrame _ _ => true
  | .isFrameAvailable => true
  | .getMode => true
  | .setMode _ => true
  | .reset => false
  | .read _ _ => false
  | .write _ _ => false
  | .bitmod _ _ _ => false
  | .rdstatus => false
  | .resetCall => false
  | .readRegister _ _ => false
  | .writeRegister _ _ => false
  | .modifyRegister _ _ _ => false
  | .readStatus => false
  | .ctor _ => false

/-- The record a constructor is called with. -/
def ctorConfig : Instr → Option ControllerConfig
  | .ctor config => some config
  | .reset => none
  | .read _ _ => none
  | .write _ _ => none
  | .bitmod _ _ _ => none
  | .rdstatus => none
  | .resetCall => none
  | .readRegister _ _ => none
  | .writeRegister _ _ => none
  | .modifyRegister _ _ _ => none
  | .readStatus => none
  | .readFrame _ => none
  | .pollFrame => none
  | .writeFrame _ _ => none
  | .isFrameAvailable => none
  | .getMode => none
  | .setMode _ => none

/-- Why the call is refused in this state, if it is (R303). -/
def State.callRefused (s : State) (i : Instr) : Option Refusal :=
  if needsReady i ∧ s.status ≠ .ready then some .hostNotReady
  else if (ctorConfig i).isSome ∧ s.status ≠ .unconstructed then some .alreadyConstructed
  else none

/-- The state in which the call's operation begins. -/
def State.callBegun (s : State) (i : Instr) : State :=
  match ctorConfig i with
  | some config => s.clearBus.setConfig config
  | none => s.clearBus

/-- How a call's result is recorded; a constructor's also sets HOST's status (R195, R270). -/
def callEnds (i : Instr) (s : State) (r : Result) : State :=
  match ctorConfig i with
  | some _ => s.ctorEnded r
  | none => s.ended r

/-- The call ends with this result; no call is in progress (R319). -/
def State.callEnded (i : Instr) (s : State) (r : Result) : State := (callEnds i s r).setRunning none

/-- What HOST does at this point of a call, given what is left of its operation: it ends the call, or waits for its
next transaction. -/
def State.settled (i : Instr) (responses : List (List Byte)) (s : State) : Prog → State
  | .ret v => s.callEnded i (.returned v)
  | .raise e => s.callEnded i (.raised e)
  | .xfer _ _ => s.setRunning (some ⟨i, responses⟩)

/-- One step of a call whose operation has p left: the next CANSIDE step that the schedule places before the next
transaction, or else that transaction as one exchange. An operation with no transaction ends at once (log 1). -/
def State.callStep (s : State) (i : Instr) (responses : List (List Byte)) : Prog → Host.Outcome State Fault Refusal
  | .ret v => .next (s.callEnded i (.returned v))
  | .raise e => .next (s.callEnded i (.raised e))
  | .xfer mosi next =>
    match s.nextSlot.before with
    | e :: _ => .next ((s.canStepTaken.canStep e).setRunning (some ⟨i, responses⟩))
    | [] =>
      match s.slotTaken.exchange mosi s.nextSlot.ending with
      | .completed miso t => .next (t.settled i (responses ++ [miso]) (next miso))
      | .failed e t => .next (t.callEnded i (.raised e))
      | .refused r => .refused r

/-- The first step of a call (R303). An SPI command given as a call is its one transaction. -/
def State.beginCall (s : State) (i : Instr) : Host.Outcome State Fault Refusal :=
  match callProg s.chip i with
  | none => exec i s
  | some p =>
    match s.callRefused i with
    | some r => .refused r
    | none => (s.callBegun i).callStep i [] p

/-- The next step of the call in progress. An SPI command is never one (log 29). -/
def State.continueCall (s : State) (r : Running) : Host.Outcome State Fault Refusal :=
  match callProg s.chip r.call with
  | none => .next (s.setRunning none)
  | some p => s.callStep r.call r.responses (p.resume r.responses)

end Sys2Proof.Machine
end

