-- ==== Sys2Proof/Machine/Fetch.lean ====
section
/-! DEFINITION. Taking one pending input: a transaction on the link, the first step of a call, or a CANSIDE
step (R95; log 6). -/

namespace Sys2Proof.Machine

/-- The machine after the oldest pending input is taken. -/
def State.took (s : State) : State := { s with inbox := s.inbox.tail }

/-- Run one input on the state from which it has been taken. A transaction that is none of the five forms has no step
(R160). -/
def runInput (s : State) : Input → Host.Outcome State Fault Refusal
  | .link mosi =>
    match decode s.chip.commands mosi with
    | .ok i => exec i s
    | .error e => .refused (.notATransaction e)
  | .call i => s.beginCall i
  | .canside e => .next (s.canStep e)

/-- Take the oldest pending input and run it; with none pending no agent has a step (log 7). -/
def takeInput (s : State) : Host.Outcome State Fault Refusal :=
  match s.inbox.head? with
  | none => .fault .noInput
  | some x => runInput s.took x

/-- No call in progress, and a transaction before every pending input. -/
def State.withTransaction (s : State) (mosi : List Byte) : State :=
  { s with running := none, inbox := .link mosi :: s.inbox }

end Sys2Proof.Machine
end

