-- ==== Sys2Proof/Machine/Step.lean ====
section
/-! DEFINITION. One step of the machine (R7, R95): one exchange or one CANSIDE step, of the call in progress or of the
oldest pending input (log 1). -/

namespace Sys2Proof.Machine

/-- One step. -/
def step (s : State) : Host.Outcome State Fault Refusal :=
  match s.running with
  | some r => s.continueCall r
  | none => takeInput s

/-- s with the transaction the opcode table writes as the word w placed where the step takes its next input. -/
def State.withFetchWord (s : State) (nbits w : Nat) : State := s.withTransaction (tableTransaction nbits w)

end Sys2Proof.Machine
end

