-- ==== Sys2Proof/Safety.lean ====
section
/-! DEFINITION. The terms claims are stated in: schedules without failures or without CANSIDE steps, the parameters,
the invariant that every step keeps, the frame a receive buffer holds, and what two states have in common. -/

namespace Sys2Proof.Machine

/-! ## Schedules -/

/-- No exchange on the schedule fails (R161). -/
def State.busCompletes (s : State) : Prop := ∀ x ∈ s.sched, x.ending = .completes

/-- The schedule places no CANSIDE step inside a call (R197: "no CANSIDE step ... intervened"). -/
def State.canQuiet (s : State) : Prop := ∀ x ∈ s.sched, x.before = []

/-! ## The parameters -/

/-- Every constant of the chip is the spec's default (R6). PROTECTED_WRITE_EFFECT is free. -/
abbrev State.standard (s : State) : Prop := s.chip = Chip.standard

/-! ## The invariant -/

/-- Unimplemented bits are 0 in every register (R59). -/
def State.implementedOnly (s : State) : Prop := ∀ a, a < 0x80 → s.reg a &&& ~~~s.chip.impl a = 0

/-- The mode in effect is one of the five (R119). -/
def State.modeLegal (s : State) : Prop := s.opmod.toNat ≤ 4

/-- HOST is Ready only with a configuration record that passed validation (R32, R183). -/
def State.readyConfigured (s : State) : Prop :=
  s.status = .ready → ∃ c, s.config = some c ∧ configFault c = none

/-- A call in progress is one that HOST's status admits, and HOST holds the record of a constructor in progress (R32,
R303). -/
def State.runningAdmitted (s : State) : Prop :=
  ∀ r, s.running = some r → (callProg s.chip r.call).isSome = true ∧ s.callRefused r.call = none ∧
    ∀ c, r.call = .ctor c → s.config = some c

/-- The invariant, for the chip with the spec's constants. -/
structure State.Inv (s : State) : Prop where
  standard        : s.standard
  implementedOnly : s.implementedOnly
  modeLegal       : s.modeLegal
  readyConfigured : s.readyConfigured
  runningAdmitted : s.runningAdmitted

/-! ## Frames in receive buffers -/

/-- The DLC that receive buffer n shows (R212). -/
def State.rxDlc (s : State) (n : Nat) : Nat := dlcOf s.chip.bits.DLC (s.readReg (s.chip.rxb n).DLC)

/-- The frame that receive buffer n shows: identifier, RTR tag, DLC and payload (R210, R211, R212, R215). -/
def State.frameIn (s : State) (n : Nat) : Frame where
  ident := tagRtr s.chip.bits.RXRTR (s.readReg (s.chip.rxb n).CTRL) (decodeIdent s.chip.bits.IDE
    (s.readReg (s.chip.rxb n).SIDH) (s.readReg (s.chip.rxb n).SIDL) (s.readReg (s.chip.rxb n).EID8)
    (s.readReg (s.chip.rxb n).EID0))
  payloadLength := s.rxDlc n
  payload := s.readRegs (s.chip.rxb n).D0 (s.rxDlc n)

/-! ## What two states have in common -/

/-- Every register except those that share storage with an address of `changed` reads the same. -/
def sameRegsExcept (changed : List Nat) (s t : State) : Prop :=
  ∀ b, b < 0x80 → (∀ a ∈ changed, s.chip.home a ≠ s.chip.home b) → t.reg b = s.reg b

/-- HOST's own state, its place in a call, the parameters and the pending inputs are the same. -/
def sameHost (s t : State) : Prop :=
  t.status = s.status ∧ t.config = s.config ∧ t.running = s.running ∧ t.params = s.params ∧ t.inbox = s.inbox

/-! ## Several steps -/

/-- k steps, ending early at a fault or a refusal. -/
def State.steps (s : State) : Nat → Host.Outcome State Fault Refusal
  | 0 => .next s
  | k + 1 =>
    match step s with
    | .next t => t.steps k
    | .fault f => .fault f
    | .refused r => .refused r

/-! ## Calls -/

/-- The 19 transactions of a construction that reads Configure at line 2 of R190, in order, with the spec's
constants. -/
def constructionCommands (c : ControllerConfig) : List Command :=
  let f : Byte := if c.filtersEnabled then 0x00 else 0x60
  [.reset, .read 0x0E 1,
   .write 0x2A [packCNF1 c.sjw c.brp],
   .write 0x29 [packCNF2 c.baudRateSelect c.samplingMode c.phaseSeg1 c.propSeg],
   .write 0x28 [packCNF3 c.sof c.wakeFilter c.phaseSeg2],
   .write 0x00 (zeros 12), .write 0x10 (zeros 12), .write 0x20 (zeros 8),
   .write 0x30 (zeros 13), .write 0x40 (zeros 13), .write 0x50 (zeros 13), .write 0x60 [0x00], .write 0x70 [0x00],
   .write 0x2B [0xA7], .write 0x0C [c.rxPinMode], .write 0x0D [c.txRtsPinMode],
   .bitmod 0x60 0x60 f, .bitmod 0x70 0x60 f, .bitmod 0x0F 0xE0 0x00]

/-- The most transactions an instruction issues (R318). -/
def transactionBound : Instr → Nat
  | .ctor _ => 20
  | .pollFrame => 5
  | .readFrame _ => 4
  | .writeFrame _ _ => 12
  | .reset => 1
  | .read _ _ => 1
  | .write _ _ => 1
  | .bitmod _ _ _ => 1
  | .rdstatus => 1
  | .resetCall => 1
  | .readRegister _ _ => 1
  | .writeRegister _ _ => 1
  | .modifyRegister _ _ _ => 1
  | .readStatus => 1
  | .isFrameAvailable => 1
  | .getMode => 1
  | .setMode _ => 1

end Sys2Proof.Machine
end

