-- ==== Sys2Proof/Certificates/Slice0/Obligations.lean ====
section
/-! DEFINITION. The statements for the provers. They quantify over every state, hence over every schedule of CANSIDE
steps and failures and every free value. Where a statement writes the spec's own numbers (addresses, bit positions,
command bytes, masks), it is about the chip with those constants, `State.standard`, whatever PROTECTED_WRITE_EFFECT is;
the others hold of every chip (R6). Registers are read through `State.reg` (R[a]) and `State.readReg` (what a READ
returns). -/

open Sys2Proof Sys2Proof.Machine

/-! ## Reset -/

/-- The model's State.reset (log 5): HOST as at power-on, the register file with the values R301 gives. -/
def Obligations.ResetStateIsUnconstructedInConfigureMode : Prop :=
  State.reset.status = .unconstructed ∧ State.reset.config = none ∧ State.reset.running = none ∧
    State.reset.params = ChipParams.standard ∧
    State.reset.opmod = 4 ∧ State.reset.reqop = 4 ∧
    State.reset.reg CANINTE = 0x00 ∧ State.reset.reg CANINTF = 0x00 ∧ State.reset.reg EFLG = 0x00 ∧
    (∀ n, n < 3 → State.reset.txRequested n = false) ∧
    (∀ a, a < 0x80 → State.reset.reg a = Chip.standard.resetValue a (Config.freeByte (Chip.standard.home a)))

/-- R301: after the RESET command every register has R36's reset value; the registers R36 marks `draw` hold free values
within IMPL. -/
def Obligations.ResetCommandLoadsEveryResetValue : Prop :=
  ∀ s : State, s.standard → ∃ t, exec .reset s = .next t ∧ sameHost s t ∧ t.sched = s.sched ∧ t.result = s.result ∧
    (∃ x, t.bus = [⟨[0xC0], some [x]⟩]) ∧
    (∀ a, a < 0x80 → t.reg a = s.chip.resetValue a (Config.freeByte (s.draws + s.chip.home a))) ∧
    t.reg CANSTAT = 0x80 ∧ t.reg CANCTRL = 0x87 ∧ t.opmod = 4 ∧ t.reqop = 4 ∧
    t.reg CANINTE = 0x00 ∧ t.reg CANINTF = 0x00 ∧ t.reg EFLG = 0x00 ∧ t.reg TEC = 0x00 ∧ t.reg REC = 0x00 ∧
    t.reg CNF1 = 0x00 ∧ t.reg CNF2 = 0x00 ∧ t.reg CNF3 = 0x00 ∧ t.reg BFPCTRL = 0x00 ∧ t.reg TXRTSCTRL &&& 0x07 = 0x00 ∧
    (∀ n, n < 3 → t.reg (txb n) = 0x00) ∧ (∀ n, n < 2 → t.reg (rxb n) = 0x00) ∧
    (∀ k, k < 8 → t.reg (RXM0SIDH + k) = 0x00) ∧
    (∀ k, k < 12 → ∃ d, t.reg (RXF0SIDH + k) = Config.freeByte d &&& s.chip.impl (RXF0SIDH + k)) ∧
    (∀ k, k < 12 → ∃ d, t.reg (RXF3SIDH + k) = Config.freeByte d &&& s.chip.impl (RXF3SIDH + k)) ∧
    (∀ n k, n < 3 → 1 ≤ k → k < 14 → ∃ d, t.reg (txb n + k) = Config.freeByte d &&& s.chip.impl (txb n + k)) ∧
    (∀ n k, n < 2 → 1 ≤ k → k < 14 → ∃ d, t.reg (rxb n + k) = Config.freeByte d &&& s.chip.impl (rxb n + k))

/-! ## The five SPI commands -/

/-- R152, of every chip: READ returns the registers in ascending order with the unimplemented bits 0, changes none, and
is refused past 0x7F. -/
def Obligations.ReadReturnsImplementedBitsAndChangesNothing : Prop :=
  ∀ (s : State) (a : Byte) (n : Nat),
    (a.toNat ≤ 0x7F ∧ a.toNat + n ≤ 0x80 →
      exec (.read a n) s = .next { s with
        draws := s.draws + 2
        bus := [⟨s.chip.commands.read :: a :: List.replicate n 0x00,
          some (Config.freeByte s.draws :: Config.freeByte (s.draws + 1) ::
            (List.range n).map fun i => s.reg (a.toNat + i) &&& s.chip.impl (a.toNat + i))⟩] }) ∧
    (¬(a.toNat ≤ 0x7F ∧ a.toNat + n ≤ 0x80) → exec (.read a n) s = .refused .addressOutOfRange)

/-- R154: WRITE stores its bytes in ascending order through WMASK and configuration protection and changes no other
register; past 0x7F it is refused. A byte whose register a later byte reaches again at a mirror is overwritten by it.
Two clauses are the model's choice: that a protected write under `draw` takes a value within IMPL (log 8), and that
RXB0CTRL bit 1, which R50 makes a copy of BUKT, stays as it was when BUKT is written (log 11). -/
def Obligations.WriteStoresThroughWriteMaskAndProtection : Prop :=
  ∀ (s : State) (a : Byte) (ds : List Byte), s.standard →
    (¬(a.toNat ≤ 0x7F ∧ a.toNat + ds.length ≤ 0x80) → exec (.write a ds) s = .refused .addressOutOfRange) ∧
    (a.toNat ≤ 0x7F ∧ a.toNat + ds.length ≤ 0x80 →
      ∃ t, exec (.write a ds) s = .next t ∧ sameHost s t ∧ t.sched = s.sched ∧ t.result = s.result ∧
        (∃ filler, filler.length = 2 + ds.length ∧ t.bus = [⟨0x02 :: a :: ds, some filler⟩]) ∧
        sameRegsExcept ((List.range ds.length).map (a.toNat + ·)) s t ∧
        ∀ i, (hi : i < ds.length) →
          (∀ j, i < j → j < ds.length → s.chip.home (a.toNat + j) ≠ s.chip.home (a.toNat + i)) →
          (s.chip.configProtected (a.toNat + i) = false ∨ s.opmod = 4 →
            t.reg (a.toNat + i) = (s.reg (a.toNat + i) &&& ~~~s.chip.wmask (a.toNat + i)) |||
              (ds[i] &&& s.chip.wmask (a.toNat + i))) ∧
          (s.chip.configProtected (a.toNat + i) = true ∧ s.opmod ≠ 4 →
            (s.params.protectedWriteEffect = .ignored → t.reg (a.toNat + i) = s.reg (a.toNat + i)) ∧
            (s.params.protectedWriteEffect = .applied → t.reg (a.toNat + i) =
              (s.reg (a.toNat + i) &&& ~~~s.chip.wmask (a.toNat + i)) |||
                (ds[i] &&& s.chip.wmask (a.toNat + i))) ∧
            (s.params.protectedWriteEffect = .draw →
              ∃ d, t.reg (a.toNat + i) = Config.freeByte d &&& s.chip.impl (a.toNat + i))))

/-- R156, of every chip: BITMOD changes the masked bits of one register (all of them where the register is not
bit-modify capable), through WMASK and configuration protection, and no other register; past 0x7F it is refused. Two
clauses are the model's choice: that a protected write under `draw` takes a value within IMPL (log 8), and that
RXB0CTRL bit 1 does not follow BUKT (log 11). -/
def Obligations.BitmodChangesOnlyMaskedBits : Prop :=
  ∀ (s : State) (a m v : Byte),
    let cap := s.chip.bitmodCapable a.toNat
    let prot := s.chip.configProtected a.toNat
    let w := s.chip.wmask a.toNat
    (0x80 ≤ a.toNat → exec (.bitmod a m v) s = .refused .addressOutOfRange) ∧
    (a.toNat < 0x80 →
      ∃ t, exec (.bitmod a m v) s = .next t ∧ sameHost s t ∧ t.sched = s.sched ∧ t.result = s.result ∧
        (∃ filler, filler.length = 4 ∧ t.bus = [⟨[s.chip.commands.bitmod, a, m, v], some filler⟩]) ∧
        sameRegsExcept [a.toNat] s t ∧
        (prot = false ∨ s.opmod = s.chip.modes.configure ∨ s.params.protectedWriteEffect = .applied →
          (cap = true → t.reg a.toNat = (s.reg a.toNat &&& ~~~(m &&& w)) ||| (v &&& m &&& w)) ∧
          (cap = false → t.reg a.toNat = (s.reg a.toNat &&& ~~~w) ||| (v &&& w))) ∧
        (prot = true ∧ s.opmod ≠ s.chip.modes.configure →
          (s.params.protectedWriteEffect = .ignored → t.reg a.toNat = s.reg a.toNat) ∧
          (s.params.protectedWriteEffect = .draw →
            ∃ d, t.reg a.toNat = Config.freeByte d &&& s.chip.impl a.toNat)))

/-- R53: the eight bits of the status byte, computed from the register file of this instant, and that RDSTATUS returns
it. -/
def Obligations.StatusByteCollectsFlagsAndRequests : Prop :=
  ∀ s : State, s.standard →
    s.statusByte[0] = (s.reg CANINTF)[0] ∧ s.statusByte[1] = (s.reg CANINTF)[1] ∧
    s.statusByte[2] = (s.reg 0x30)[3] ∧ s.statusByte[3] = (s.reg CANINTF)[2] ∧
    s.statusByte[4] = (s.reg 0x40)[3] ∧ s.statusByte[5] = (s.reg CANINTF)[3] ∧
    s.statusByte[6] = (s.reg 0x50)[3] ∧ s.statusByte[7] = (s.reg CANINTF)[4] ∧
    ∃ t x, exec .rdstatus s = .next t ∧ t.bus = [⟨[0xA0, 0x00], some [x, s.statusByte]⟩]

/-- R158, of every chip: RDSTATUS returns the status byte of this instant and changes nothing. -/
def Obligations.RdstatusReturnsStatusByteAndChangesNothing : Prop :=
  ∀ s : State, exec .rdstatus s = .next { s with
    draws := s.draws + 1
    bus := [⟨[s.chip.commands.rdstatus, 0x00], some [Config.freeByte s.draws, s.statusByte]⟩] }

/-- R86's last sentence: CANSTAT (at any mirror), TEC, REC and the receive buffers' identifier, DLC and data registers
take no write from the link. -/
def Obligations.ReadOnlyRegistersTakeNoWrite : Prop :=
  ∀ (s t : State) (i : Instr), s.standard → ((∃ a ds, i = .write a ds) ∨ (∃ a m v, i = .bitmod a m v)) →
    exec i s = .next t →
    ∀ b, b < 0x80 → (b % 16 = 14 ∨ b = TEC ∨ b = REC ∨ (∃ n k, n < 2 ∧ 1 ≤ k ∧ k < 14 ∧ b = rxb n + k)) →
      t.reg b = s.reg b

/-- R35: all mirrors of CANSTAT, and all of CANCTRL, name the same 8 bits, and no other two addresses share storage. -/
def Obligations.MirrorsNameOneRegister : Prop :=
  (∀ (s : State) a, s.standard → a < 0x80 →
    (a % 16 = 14 → s.reg a = s.reg CANSTAT) ∧ (a % 16 = 15 → s.reg a = s.reg CANCTRL)) ∧
  (∀ (s : State) (a v : Byte), s.standard → a.toNat < 0x80 → a.toNat % 16 = 15 →
    ∃ t, exec (.write a [v]) s = .next t ∧ ∀ b, b < 0x80 → t.reg b = if b % 16 = 15 then v else s.reg b) ∧
  (∀ a b, a < 0x80 → b < 0x80 → Chip.standard.home a = Chip.standard.home b →
    a = b ∨ (a % 16 = 14 ∧ b % 16 = 14) ∨ (a % 16 = 15 ∧ b % 16 = 15))

/-- R92: READ, RDSTATUS, WRITE and BITMOD are idempotent. For a WRITE or BITMOD the protected-write draw is left out:
it draws afresh each time. -/
def Obligations.RepeatedTransactionsAreIdempotent : Prop :=
  ∀ (s t : State) (i : Instr), s.standard →
    ((∃ a n, i = .read a n) ∨ i = .rdstatus ∨
      (s.params.protectedWriteEffect ≠ .draw ∧ ((∃ a ds, i = .write a ds) ∨ (∃ a m v, i = .bitmod a m v)))) →
    exec i s = .next t →
    ∃ u, exec i t = .next u ∧ u.regs = t.regs ∧
      (∀ a n, i = .read a n → ∃ x y x' y' data, t.bus.map (·.miso) = [some (x :: y :: data)] ∧
        u.bus.map (·.miso) = [some (x' :: y' :: data)]) ∧
      (i = .rdstatus → ∃ x x' b, t.bus.map (·.miso) = [some [x, b]] ∧ u.bus.map (·.miso) = [some [x', b]])

/-! ## Encoding and the step -/

/-- R110 to R113: exactly the five forms are transactions; any other byte sequence is refused and has no step. That the
values of READ's and RDSTATUS's placeholder bytes do not matter is deduced from R81 (log 12). -/
def Obligations.OnlyFiveFormsAreTransactions : Prop :=
  ∀ (s : State) (mosi : List Byte) (rest : List Input), s.standard → s.running = none → s.inbox = .link mosi :: rest →
    ((∃ e, step s = .refused (.notATransaction e)) ↔
      ¬(mosi = [0xC0] ∨ (∃ a placeholders, mosi = 0x03 :: a :: placeholders) ∨ (∃ a ds, mosi = 0x02 :: a :: ds) ∨
        (∃ a m v, mosi = [0x05, a, m, v]) ∨ (∃ x, mosi = [0xA0, x])))

/-- Decode and encode agree, whatever five different command bytes the chip has: the decoder reads back every encoded
SPI command with its operands, and every transport call as the one command it expands to (R124); and what the decoder
accepts is, up to the values of placeholder bytes, what the encoder writes. -/
def Obligations.DecodeEncodeAgree : Prop :=
  ∀ cmd : CommandBytes, cmd.distinct →
    (∀ (i : Instr) (c : Command), i.command? = some c →
      ∃ bs, encode cmd i = some bs ∧ decode cmd bs = .ok c.toInstr) ∧
    (∀ c : Command, c.toInstr.command? = some c) ∧
    (∀ (mosi : List Byte) (i : Instr), decode cmd mosi = .ok i → ∃ bs, encode cmd i = some bs ∧
      bs.length = mosi.length ∧ bs.head? = mosi.head? ∧ (i ≠ .rdstatus → bs.take 2 = mosi.take 2)) ∧
    (∀ (mosi : List Byte) (i : Instr), decode cmd mosi = .ok i → (∀ a n, i ≠ .read a n) → i ≠ .rdstatus →
      encode cmd i = some mosi)

/-- Words written out from R111 and R112 decode to the instruction they stand for. -/
def Obligations.WrittenOutTransactionsDecode : Prop :=
  decode CommandBytes.standard [0b11000000] = .ok .reset ∧
  decode CommandBytes.standard [0b00000011, 0x61, 0, 0, 0, 0, 0] = .ok (.read 0x61 5) ∧
  decode CommandBytes.standard [0b00000010, 0x2A, 0x44] = .ok (.write 0x2A [0x44]) ∧
  decode CommandBytes.standard [0b00000101, 0x2C, 0x01, 0x00] = .ok (.bitmod 0x2C 0x01 0x00) ∧
  decode CommandBytes.standard [0b10100000, 0x00] = .ok .rdstatus ∧
  decode CommandBytes.standard [0x81] = .error (.unknownCommand 0x81) ∧
  decode CommandBytes.standard [0x05, 0x2C, 0x01] = .error (.wrongLength .bitmod 3) ∧
  decode CommandBytes.standard [0xA0, 0x00, 0x00] = .error (.wrongLength .rdstatus 3)

/-- Where no call is in progress, a step takes the oldest pending input: a transaction's bytes run exactly the
instruction they decode to, and a CANSIDE step is taken as it is; `CallsRunAsTheirSteps` says what a call does. That
inputs wait in one queue, oldest first, and `withFetchWord` are the model's choice (log 6), the fault of a step with
nothing pending too (log 7); what one step is follows R95 (log 1). -/
def Obligations.StepRunsTheOldestInput : Prop :=
  (∀ (s : State) (rest : List Input), s.running = none →
    (∀ mosi i, s.inbox = .link mosi :: rest → decode s.chip.commands mosi = .ok i →
      step s = exec i { s with inbox := rest }) ∧
    (∀ e, s.inbox = .canside e :: rest → step s = .next (({ s with inbox := rest } : State).canStep e)) ∧
    (s.inbox = [] → step s = .fault .noInput)) ∧
  (∀ (s : State) (nbits w : Nat) (i : Instr), s.chip.commands = CommandBytes.standard →
    decodeTableWord nbits w = some i → step (s.withFetchWord nbits w) = exec i { s with running := none })

/-! ## Transport calls -/

/-- R151, R153, R155, R157, R159, of every chip whose five command bytes differ: a transport call whose exchange
completes issues exactly its one transaction, has its ENGINE effect on the registers CANSIDE left, and returns what
its rule says. -/
def Obligations.TransportCallsIssueOneTransaction : Prop :=
  ∀ s : State, s.chip.commands.distinct → s.nextSlot.ending = .completes →
    let cmd := s.chip.commands
    (∃ t, exec .resetCall s = .next t ∧ sameHost s t ∧ t.sched = s.sched.tail ∧
      t.result = some (.returned .unit) ∧ t.bus.map (·.mosi) = [[cmd.reset]] ∧
      t.regs = s.beforeXfer.resetRegisters.regs ∧
      (s.standard → ∀ b, b < 0x80 → t.reg b = s.chip.resetValue b (Config.freeByte (s.draws + s.chip.home b)))) ∧
    (∀ (a : Byte) (n : Nat), a.toNat ≤ 0x7F → a.toNat + n ≤ 0x80 →
      ∃ t, exec (.readRegister a n) s = .next t ∧ sameHost s t ∧ t.sched = s.sched.tail ∧
        t.result = some (.returned (.bytes ((List.range n).map fun i =>
          s.beforeXfer.reg (a.toNat + i) &&& s.chip.impl (a.toNat + i)))) ∧
        t.bus.map (·.mosi) = [cmd.read :: a :: List.replicate n 0x00] ∧ t.regs = s.beforeXfer.regs) ∧
    (∀ (a : Byte) (data : ByteOrBytes), a.toNat ≤ 0x7F → a.toNat + data.toList.length ≤ 0x80 →
      ∃ t, exec (.writeRegister a data) s = .next t ∧ sameHost s t ∧ t.sched = s.sched.tail ∧
        t.result = some (.returned .unit) ∧ t.bus.map (·.mosi) = [cmd.write :: a :: data.toList] ∧
        t.regs = (s.beforeXfer.storeRegs a.toNat data.toList).regs) ∧
    (∀ a m v : Byte, a.toNat < 0x80 →
      ∃ t, exec (.modifyRegister a m v) s = .next t ∧ sameHost s t ∧ t.sched = s.sched.tail ∧
        t.result = some (.returned .unit) ∧ t.bus.map (·.mosi) = [[cmd.bitmod, a, m, v]] ∧
        t.regs = (s.beforeXfer.bitmodReg a.toNat m v).regs) ∧
    (∃ t, exec .readStatus s = .next t ∧ sameHost s t ∧ t.sched = s.sched.tail ∧
      t.result = some (.returned (.statusByte s.beforeXfer.statusByte)) ∧
      t.bus.map (·.mosi) = [[cmd.rdstatus, 0x00]] ∧ t.regs = s.beforeXfer.regs)

/-- R82: a transaction that reaches an address of 0x80 or more is refused, from the link and from HOST alike. -/
def Obligations.AddressesPastTheFileAreRefused : Prop :=
  ∀ (s : State) (a m v : Byte) (n : Nat) (data : ByteOrBytes), s.chip.commands.distinct →
    (0x7F < a.toNat ∨ 0x80 < a.toNat + n →
      exec (.read a n) s = .refused .addressOutOfRange ∧ exec (.readRegister a n) s = .refused .addressOutOfRange) ∧
    (0x7F < a.toNat ∨ 0x80 < a.toNat + data.toList.length →
      exec (.write a data.toList) s = .refused .addressOutOfRange ∧
      exec (.writeRegister a data) s = .refused .addressOutOfRange) ∧
    (0x7F < a.toNat →
      exec (.bitmod a m v) s = .refused .addressOutOfRange ∧
      exec (.modifyRegister a m v) s = .refused .addressOutOfRange)

/-- R161, R271: a failed exchange raises E_TRANSPORT with its command and address, is not retried, and leaves ENGINE
unchanged, with the full effect, or, for WRITE only, with the effect of a prefix of its data. -/
def Obligations.FailedExchangeRaisesTransportError : Prop :=
  ∀ (s : State) (i : Instr) (c : Command), s.chip.commands.distinct → i.command? = some c → i ≠ c.toInstr →
    commandAdmitted c = true →
    s.nextSlot.ending ≠ .completes →
    ∃ t, exec i s = .next t ∧ sameHost s t ∧ t.sched = s.sched.tail ∧
      t.result = some (.raised (.transport c.kind c.address?)) ∧ t.bus = [⟨encodeCommand s.chip.commands c, none⟩] ∧
      (t.regs = s.beforeXfer.regs ∨ t.regs = (s.beforeXfer.engineEffect c).regs ∨
        ∃ a ds k, c = .write a ds ∧ k < ds.length ∧
          t.regs = (s.beforeXfer.storeRegs a.toNat (ds.take k)).regs) ∧
      (c.kind = .read ∨ c.kind = .rdstatus → t.regs = s.beforeXfer.regs) ∧
      (s.nextSlot.ending = .failsUnchanged → t.regs = s.beforeXfer.regs) ∧
      (s.nextSlot.ending = .failsApplied → t.regs = (s.beforeXfer.engineEffect c).regs) ∧
      (∀ a ds k, c = .write a ds → s.nextSlot.ending = .failsAfter k →
        t.regs = (s.beforeXfer.storeRegs a.toNat (ds.take k)).regs)

/-- R161, R271, R279, of every transport and host call: a failed exchange is the last one, the call then ends with
E_TRANSPORT naming its command and address, and E_TRANSPORT is raised for no other reason. -/
def Obligations.FailedExchangeEndsTheCall : Prop :=
  ∀ (s t : State) (i : Instr), (∀ c : Command, i ≠ c.toInstr) → exec i s = .next t →
    (∀ x ∈ t.bus.dropLast, x.miso ≠ none) ∧
    (∀ x, t.bus.getLast? = some x → x.miso = none →
      ∃ c, decodeCommand s.chip.commands x.mosi = .ok c ∧ t.result = some (.raised (.transport c.kind c.address?))) ∧
    (∀ k a, t.result = some (.raised (.transport k a)) → ∃ x, t.bus.getLast? = some x ∧ x.miso = none)

/-! ## CANSIDE -/

/-- R61: what CANSIDE never does. -/
def Obligations.CanSideNeverDoes : Prop :=
  ∀ (s : State) (e : CanStep), s.standard →
    (∀ n, n < 2 → s.rxFlag n = true → (s.canStep e).rxFlag n = true) ∧
    (∀ n k, n < 2 → k < 14 → s.rxFlag n = true → (s.canStep e).reg (rxb n + k) = s.reg (rxb n + k)) ∧
    (∀ b, b ∈ [CNF1, CNF2, CNF3, CANINTE, CANCTRL, BFPCTRL] → (s.canStep e).reg b = s.reg b) ∧
    (∀ b, b < 0x0C ∨ (0x10 ≤ b ∧ b < 0x1C) ∨ (0x20 ≤ b ∧ b < 0x28) → (s.canStep e).reg b = s.reg b) ∧
    (s.canStep e).reg TXRTSCTRL &&& 0x07 = s.reg TXRTSCTRL &&& 0x07 ∧
    (∀ n k, n < 3 → 1 ≤ k → k < 14 → (s.canStep e).reg (txb n + k) = s.reg (txb n + k)) ∧
    (∀ n, n < 3 → s.txRequested n = false → (s.canStep e).txRequested n = true →
      ∃ l r, e = .pins l r ∧ s.reg TXRTSCTRL &&& (1#8 <<< n) ≠ 0) ∧
    sameHost s (s.canStep e) ∧ (s.canStep e).sched = s.sched ∧ (s.canStep e).draws = s.draws

/-- R60, E1 and E2: reception into an unlocked buffer, overflow, the outcomes of a transmission; where the precondition
fails the step does not occur (log 3). -/
def Obligations.CanSideReceivesAndTransmits : Prop :=
  (∀ (s : State) (n : Fin 2) (v : Vector Byte 13) (c : Byte), s.standard → s.rxFlag n = false →
    let t := s.canStep (.receive n v c)
    (∀ k, (hk : k < 13) → t.reg (rxb n + 1 + k) = v[k] &&& s.chip.impl (rxb n + 1 + k)) ∧
    t.reg (rxb n) = (s.reg (rxb n) &&& ~~~(s.chip.impl (rxb n) &&& ~~~s.chip.wmask (rxb n))) |||
      (c &&& (s.chip.impl (rxb n) &&& ~~~s.chip.wmask (rxb n))) ∧
    t.reg CANINTF = s.reg CANINTF ||| (1#8 <<< n.val) ∧
    sameRegsExcept (CANINTF :: (List.range 14).map (rxb n + ·)) s t) ∧
  (∀ (s : State) (n : Fin 2) (v : Vector Byte 13) (c : Byte), s.standard → s.rxFlag n = true →
    s.canStep (.receive n v c) = s) ∧
  (∀ (s : State) (n : Fin 2), s.standard →
    (s.rxFlag 0 = true ∧ s.rxFlag 1 = true → (s.canStep (.overflow n)).reg EFLG = s.reg EFLG ||| (0x40#8 <<< n.val) ∧
      sameRegsExcept [EFLG] s (s.canStep (.overflow n))) ∧
    (s.rxFlag 0 = false ∨ s.rxFlag 1 = false → s.canStep (.overflow n) = s)) ∧
  (∀ (s : State) (n : Fin 3), s.standard → s.txRequested n = true →
    let t := s.canStep (.transmitDone n)
    t.reg (txb n) = s.reg (txb n) &&& ~~~0x08#8 ∧ t.reg CANINTF = s.reg CANINTF ||| (0x04#8 <<< n.val) ∧
    sameRegsExcept [txb n, CANINTF] s t) ∧
  (∀ (s : State) (n : Fin 3) (x y : Byte) (abort : Bool), s.standard → s.txRequested n = true →
    let t := s.canStep (.transmitError n x y abort)
    t.reg (txb n) = (s.reg (txb n) ||| (x &&& 0x70)) &&& (if abort then ~~~0x08#8 else 0xFF) ∧
    t.reg CANINTF = s.reg CANINTF ||| (y &&& 0xA0) ∧
    sameRegsExcept [txb n, CANINTF] s t) ∧
  (∀ (s : State) (n : Fin 3) (x y : Byte) (abort : Bool), s.standard → s.txRequested n = false →
    s.canStep (.transmitDone n) = s ∧ s.canStep (.transmitError n x y abort) = s)

/-- R60, E3 to E5: error bookkeeping, mode changes, pins. CANSTAT.ICOD takes the value the step carries, if it carries
one, and stays otherwise. Where the precondition of a mode change or of a wake-up fails the step does not occur; that
REQOP values 5 to 7 are such a case is the model's choice (log 3). -/
def Obligations.CanSideErrorsModesAndPins : Prop :=
  ∀ s : State, s.standard →
    let icodOf : State → BitVec 3 := fun u => (u.reg CANSTAT >>> 1).setWidth 3
    (∀ tec rec eflg flags : Byte,
      let t := s.canStep (.errorUpdate tec rec eflg flags)
      t.reg TEC = tec ∧ t.reg REC = rec ∧ t.reg EFLG = (s.reg EFLG &&& 0xC0) ||| eflg ∧
      t.reg CANINTF = s.reg CANINTF ||| (flags &&& 0xE0) ∧ sameRegsExcept [TEC, REC, EFLG, CANINTF] s t) ∧
    (∀ icod : Option (BitVec 3),
      let t := s.canStep (.applyMode icod)
      (s.reqop.toNat ≤ 4 → t.opmod = s.reqop ∧ icodOf t = icod.getD (icodOf s) ∧
        t.reg CANSTAT &&& 0x11 = s.reg CANSTAT &&& 0x11 ∧ sameRegsExcept [CANSTAT] s t) ∧
      (4 < s.reqop.toNat → t = s)) ∧
    (∀ icod : Option (BitVec 3),
      let t := s.canStep (.wakeUp icod)
      (s.opmod = 1 → t.opmod = 3 ∧ icodOf t = icod.getD (icodOf s) ∧
        t.reg CANSTAT &&& 0x11 = s.reg CANSTAT &&& 0x11 ∧ t.reg CANINTF = s.reg CANINTF ||| 0x40 ∧
        sameRegsExcept [CANSTAT, CANINTF] s t) ∧
      (s.opmod ≠ 1 → t = s)) ∧
    (∀ l r : Byte,
      let t := s.canStep (.pins l r)
      t.reg TXRTSCTRL = (s.reg TXRTSCTRL &&& ~~~0x38#8) ||| (l &&& 0x38) ∧
      (∀ n, n < 3 → t.reg (txb n) =
        if s.reg TXRTSCTRL &&& r &&& (1#8 <<< n) = 0 then s.reg (txb n) else s.reg (txb n) ||| 0x08) ∧
      sameRegsExcept [TXRTSCTRL, txb 0, txb 1, txb 2] s t)

/-- R55, R283: the mode in effect changes only by RESET or by a CANSIDE step. -/
def Obligations.ModeChangesOnlyByResetOrCanSide : Prop :=
  ∀ (s t : State) (i : Instr), s.standard → s.canQuiet → i ≠ .reset → i ≠ .resetCall → (∀ c, i ≠ .ctor c) →
    exec i s = .next t →
    t.reg CANSTAT = s.reg CANSTAT

/-! ## Pure functions -/

/-- R180, R181, R182: for legal operands the packed byte is the formula's number, nothing is cut off, and every
parameter stands, less one, in its own field. -/
def Obligations.PackedTimingFieldsAreExact : Prop :=
  (∀ sjw brp, 1 ≤ sjw → sjw ≤ 4 → 1 ≤ brp → brp ≤ 64 →
    (packCNF1 sjw brp).toNat = (((sjw - 1) <<< 6) ||| (brp - 1)) ∧
    ((packCNF1 sjw brp) >>> 6).toNat = sjw - 1 ∧ (packCNF1 sjw brp &&& 0x3F).toNat = brp - 1) ∧
  (∀ sel sam ps1 prop, sel ≤ 1 → (sam = 0x00 ∨ sam = 0x40) → 1 ≤ ps1 → ps1 ≤ 8 → 1 ≤ prop → prop ≤ 8 →
    (packCNF2 sel sam ps1 prop).toNat = ((sel <<< 7) ||| sam ||| ((ps1 - 1) <<< 3) ||| (prop - 1)) ∧
    ((packCNF2 sel sam ps1 prop) >>> 7).toNat = sel ∧ (packCNF2 sel sam ps1 prop &&& 0x40).toNat = sam ∧
    (((packCNF2 sel sam ps1 prop) >>> 3) &&& 0x07).toNat = ps1 - 1 ∧
    (packCNF2 sel sam ps1 prop &&& 0x07).toNat = prop - 1) ∧
  (∀ (sof wake : Bool) ps2, 1 ≤ ps2 → ps2 ≤ 8 →
    (packCNF3 sof wake ps2).toNat = ((if sof then 0x80 else 0) ||| (if wake then 0x40 else 0) ||| (ps2 - 1)) ∧
    (packCNF3 sof wake ps2)[7] = sof ∧ (packCNF3 sof wake ps2)[6] = wake ∧
    (packCNF3 sof wake ps2 &&& 0x3F).toNat = ps2 - 1)

/-- R183: the first field out of its legal range, in R183's field order, is the one reported, by a constructor that
accesses no bus. -/
def Obligations.ConfigValidationReportsFirstFault : Prop :=
  ∀ c : ControllerConfig,
    let ok1 := 1 ≤ c.sjw ∧ c.sjw ≤ 4
    let ok2 := 1 ≤ c.brp ∧ c.brp ≤ 64
    let ok3 := 1 ≤ c.propSeg ∧ c.propSeg ≤ 8
    let ok4 := 1 ≤ c.phaseSeg1 ∧ c.phaseSeg1 ≤ 8
    let ok5 := 1 ≤ c.phaseSeg2 ∧ c.phaseSeg2 ≤ 8
    let ok6 := c.samplingMode = 0x00 ∨ c.samplingMode = 0x40
    let ok7 := c.baudRateSelect = 0 ∨ c.baudRateSelect = 1
    (configFault c = none ↔ ok1 ∧ ok2 ∧ ok3 ∧ ok4 ∧ ok5 ∧ ok6 ∧ ok7) ∧
    (configFault c = some .sjw ↔ ¬ok1) ∧
    (configFault c = some .brp ↔ ok1 ∧ ¬ok2) ∧
    (configFault c = some .propSeg ↔ ok1 ∧ ok2 ∧ ¬ok3) ∧
    (configFault c = some .phaseSeg1 ↔ ok1 ∧ ok2 ∧ ok3 ∧ ¬ok4) ∧
    (configFault c = some .phaseSeg2 ↔ ok1 ∧ ok2 ∧ ok3 ∧ ok4 ∧ ¬ok5) ∧
    (configFault c = some .samplingMode ↔ ok1 ∧ ok2 ∧ ok3 ∧ ok4 ∧ ok5 ∧ ¬ok6) ∧
    (configFault c = some .baudRateSelect ↔ ok1 ∧ ok2 ∧ ok3 ∧ ok4 ∧ ok5 ∧ ok6 ∧ ¬ok7) ∧
    (∀ (s : State) (name : ArgName), s.status = .unconstructed → configFault c = some name →
      ∃ t, exec (.ctor c) s = .next t ∧ t.result = some (.raised (.argument name)) ∧ t.bus = [] ∧ t.regs = s.regs)

/-- R235: the standard and the extended identifier round trips; the store layout of an extended identifier is written
out from R115 (SIDL is id[20:18], 0, 1, 0, id[17:16]), IDE being bit 3 (R51). -/
def Obligations.IdentifierRoundTrips : Prop :=
  (∀ (id : IdentWord) (eid8 eid0 : Byte), id ≤ SFF_MASK →
    decodeIdent 3 (encodeStdId id).1 (encodeStdId id).2 eid8 eid0 = id ∧ id &&& EFF_FLAG = 0) ∧
  (∀ id : IdentWord, id ≤ EFF_MASK →
    storeExtId 3 id = (id.extractLsb' 21 8, id.extractLsb' 18 3 ++ 0b010#3 ++ id.extractLsb' 16 2, id.extractLsb' 8 8,
      id.extractLsb' 0 8) ∧
    decodeIdent 3 (id.extractLsb' 21 8) (id.extractLsb' 18 3 ++ 0b010#3 ++ id.extractLsb' 16 2) (id.extractLsb' 8 8)
      (id.extractLsb' 0 8) = id ||| EFF_FLAG)

/-- R231: the five checks of writeFrame in their order; the first that fails is raised before any bus access. -/
def Obligations.FrameValidationReportsFirstFault : Prop :=
  ∀ (f : Frame) (n : Nat),
    let ok1 := n < 3
    let ok2 := f.payloadLength ≤ 8 ∧ f.payload.length = f.payloadLength
    let ok3 := f.ident &&& 0x20000000#32 = 0
    let ok4 := f.ident &&& 0xC0000000#32 = 0
    let ok5 := f.ident ≤ 0x7FF#32
    (frameFault f n = none ↔ ok1 ∧ ok2 ∧ ok3 ∧ ok4 ∧ ok5) ∧
    (frameFault f n = some (.argument .bufferIndex) ↔ ¬ok1) ∧
    (frameFault f n = some (.argument .payloadLength) ↔ ok1 ∧ ¬ok2) ∧
    (frameFault f n = some (.argument .ident) ↔ ok1 ∧ ok2 ∧ (¬ok3 ∨ (ok3 ∧ ok4 ∧ ¬ok5))) ∧
    (frameFault f n = some .unsupported ↔ ok1 ∧ ok2 ∧ ok3 ∧ ¬ok4) ∧
    (∀ (s : State) (e : HostError), s.status = .ready → frameFault f n = some e →
      ∃ t, exec (.writeFrame f n) s = .next t ∧ t.result = some (.raised e) ∧ t.bus = [] ∧ t.regs = s.regs)

/-! ## Receive decode -/

/-- R215, with R210 to R212, R216 and the lock R56: a readFrame(n) of a full buffer, under every schedule of CANSIDE
steps between its transactions, or of any buffer under a schedule without CANSIDE steps, returns the frame the buffer
held when the call began, by the four transactions of R215, and clears RXnIF. -/
def Obligations.ReadFrameDecodesTheBuffer : Prop :=
  ∀ (s : State) (n : Nat), s.standard → s.status = .ready → n < 2 → s.busCompletes → (s.rxFlag n = true ∨ s.canQuiet) →
    s.rxDlc n ≤ 8 →
    ∃ t, exec (.readFrame n) s = .next t ∧ sameHost s t ∧ t.sched = s.sched.drop 4 ∧
      t.result = some (.returned (.frame (s.frameIn n))) ∧
      (s.frameIn n).payloadLength ≤ 8 ∧ (s.frameIn n).payload.length = (s.frameIn n).payloadLength ∧
      t.rxFlag n = false ∧ (∀ k, k < 14 → t.reg (rxb n + k) = s.reg (rxb n + k)) ∧
      t.bus.map (·.mosi) =
        [[0x03, BitVec.ofNat 8 (rxb n + 1), 0, 0, 0, 0, 0], [0x03, BitVec.ofNat 8 (rxb n), 0],
         0x03 :: BitVec.ofNat 8 (rxb n + 6) :: List.replicate (s.rxDlc n) 0x00,
         [0x05, 0x2C, 1#8 <<< n, 0x00]] ∧
      (s.canQuiet → sameRegsExcept [CANINTF] s t ∧ t.reg CANINTF = s.reg CANINTF &&& ~~~(1#8 <<< n))

/-- R213, R273: a DLC of 9 to 15 at the first transaction raises E_CORRUPT_FRAME with the buffer and the DLC after two
transactions, under every schedule; RXnIF stays set. -/
def Obligations.ReadFrameReportsCorruptDlc : Prop :=
  ∀ (s : State) (n : Nat), s.standard → s.status = .ready → n < 2 → s.busCompletes → 8 < s.beforeXfer.rxDlc n →
    ∃ t, exec (.readFrame n) s = .next t ∧ sameHost s t ∧ t.sched = s.sched.drop 2 ∧
      t.result = some (.raised (.corruptFrame n (s.beforeXfer.rxDlc n))) ∧
      t.bus.map (·.mosi) =
        [[0x03, BitVec.ofNat 8 (rxb n + 1), 0, 0, 0, 0, 0], [0x03, BitVec.ofNat 8 (rxb n), 0]] ∧
      (s.rxFlag n = true → t.rxFlag n = true) ∧ (s.canQuiet → t.regs = s.regs)

/-- R217: a receive index outside 0 and 1 is E_ARGUMENT before any bus access. -/
def Obligations.ReadFrameChecksIndexBeforeBus : Prop :=
  ∀ (s : State) (n : Nat), s.status = .ready → 2 ≤ n →
    exec (.readFrame n) s = .next { s with bus := [], result := some (.raised (.argument .bufferNumber)) }

/-- R220, R221: poll-and-decode follows the status byte of its first transaction, buffer 0 before buffer 1; no flag is
NoFrame, not an error. -/
def Obligations.PollFollowsStatusByte : Prop :=
  ∀ s : State, s.standard → s.status = .ready → s.busCompletes →
    let u := s.beforeXfer
    (u.rxFlag 0 = false ∧ u.rxFlag 1 = false →
      ∃ t, exec .pollFrame s = .next t ∧ sameHost s t ∧ t.result = some (.returned .noFrame) ∧
        t.bus.map (·.mosi) = [[0xA0, 0x00]] ∧ t.regs = u.regs) ∧
    (∀ n, n < 2 → (n = 0 ∧ u.rxFlag 0 = true ∨ n = 1 ∧ u.rxFlag 0 = false ∧ u.rxFlag 1 = true) →
      (u.rxDlc n ≤ 8 →
        ∃ t, exec .pollFrame s = .next t ∧ sameHost s t ∧ t.result = some (.returned (.frame (u.frameIn n))) ∧
          t.rxFlag n = false ∧ t.bus.length = 5) ∧
      (8 < u.rxDlc n →
        ∃ t, exec .pollFrame s = .next t ∧ sameHost s t ∧
          t.result = some (.raised (.corruptFrame n (u.rxDlc n))) ∧ t.rxFlag n = true ∧ t.bus.length = 3))

/-- R314: a corrupt frame in buffer 0 makes every later poll report it again, whatever CANSIDE does and whatever buffer
1 holds: the condition holds again after the poll. -/
def Obligations.CorruptFrameHidesBufferOne : Prop :=
  let corrupt : State → Nat → Prop := fun s dlc =>
    s.standard ∧ s.status = .ready ∧ s.busCompletes ∧ s.rxFlag 0 = true ∧ s.rxDlc 0 = dlc ∧ 8 < dlc
  ∀ (s : State) (dlc : Nat), corrupt s dlc →
    ∃ t, exec .pollFrame s = .next t ∧ t.result = some (.raised (.corruptFrame 0 dlc)) ∧ corrupt t dlc

/-- R259, R253: a host call clears no interrupt flag but RX0IF and RX1IF, and those only by reading their buffer:
readFrame(n) clears at most bit n, and a poll at most the flag of the buffer its status byte chose (R221), so that RX1IF
survives a poll that finds RX0IF set; under every schedule and every failure. -/
def Obligations.OtherFlagsSurviveHostCalls : Prop :=
  ∀ (s t : State) (i : Instr), s.standard → needsReady i = true → exec i s = .next t →
    ∀ k, (hk : k < 8) → (s.reg CANINTF)[k] = true → (∀ n, n < 2 → i = .readFrame n → k ≠ n) →
      (i = .pollFrame → k ≠ 0 ∧ (k = 1 → s.beforeXfer.statusByte[0] = true)) → (t.reg CANINTF)[k] = true

/-- R276, R54: a host call, ctor included, sets no interrupt flag: where the schedule has no CANSIDE step, every flag
set after it was set before. (A WRITE or BITMOD of CANINTF on the link or by a transport call can set one, R154,
R156.) -/
def Obligations.HostCallsSetNoInterruptFlag : Prop :=
  ∀ (s t : State) (i : Instr), s.standard → (needsReady i = true ∨ ∃ c, i = .ctor c) → s.canQuiet →
    exec i s = .next t →
    ∀ k, (hk : k < 8) → (t.reg CANINTF)[k] = true → (s.reg CANINTF)[k] = true

/-- R216, R259: the clear of RXnIF, as the transaction it is: bit n becomes 0 and every other bit of CANINTF has the
value it had just before. -/
def Obligations.FlagClearIsMaskedModify : Prop :=
  ∀ (s : State) (n : Nat), s.standard → n < 2 → s.nextSlot.ending = .completes →
    ∃ t, exec (.modifyRegister 0x2C (1#8 <<< n) 0x00) s = .next t ∧ sameHost s t ∧
      t.rxFlag n = false ∧
      (∀ k, (hk : k < 8) → k ≠ n → (t.reg CANINTF)[k] = (s.beforeXfer.reg CANINTF)[k]) ∧
      sameRegsExcept [CANINTF] s.beforeXfer t

/-! ## Transmit encode -/

/-- R233, R234: a valid frame is laid out in the transmit buffer by 4 + L transactions in MF's order, under every
schedule; the identifier extension and the data registers past the payload keep their values; TXREQ is set last. -/
def Obligations.WriteFrameLaysOutTheFrame : Prop :=
  ∀ (s : State) (f : Frame) (n : Nat), s.standard → s.status = .ready → s.busCompletes → frameFault f n = none →
    ∃ t, exec (.writeFrame f n) s = .next t ∧ sameHost s t ∧ t.sched = s.sched.drop (4 + f.payloadLength) ∧
      t.result = some (.returned .unit) ∧
      t.readReg (txb n + 1) = (encodeStdId f.ident).1 ∧ t.readReg (txb n + 2) = (encodeStdId f.ident).2 ∧
      (t.readReg (txb n + 5)).toNat = f.payloadLength ∧
      (∀ i, i < f.payloadLength → t.readReg (txb n + 6 + i) = f.payload.getD i 0) ∧
      t.reg (txb n + 3) = s.reg (txb n + 3) ∧ t.reg (txb n + 4) = s.reg (txb n + 4) ∧
      (∀ i, f.payloadLength ≤ i → i < 8 → t.reg (txb n + 6 + i) = s.reg (txb n + 6 + i)) ∧
      t.txRequested n = true ∧
      t.bus.map (·.mosi) =
        [[0x02, BitVec.ofNat 8 (txb n + 1), (encodeStdId f.ident).1],
         [0x02, BitVec.ofNat 8 (txb n + 2), (encodeStdId f.ident).2],
         [0x02, BitVec.ofNat 8 (txb n + 5), BitVec.ofNat 8 f.payloadLength]] ++
        (List.range f.payloadLength).map (fun i => [0x02, BitVec.ofNat 8 (txb n + 6 + i), f.payload.getD i 0]) ++
        [[0x05, BitVec.ofNat 8 (txb n), 0x08, 0x08]] ∧
      (s.canQuiet → t.reg (txb n) = s.reg (txb n) ||| 0x08 ∧
        sameRegsExcept ([txb n, txb n + 1, txb n + 2, txb n + 5] ++
          (List.range f.payloadLength).map (txb n + 6 + ·)) s t)

/-- R231, R232: a frame that fails validation ends the call with its error before any bus access; nothing is written. -/
def Obligations.WriteFrameRejectsBeforeBus : Prop :=
  ∀ (s : State) (f : Frame) (n : Nat) (e : HostError), s.status = .ready → frameFault f n = some e →
    exec (.writeFrame f n) s = .next { s with bus := [], result := some (.raised e) }

/-! ## Status and mode -/

/-- R250, R251: isFrameAvailable is true if and only if a receive flag is set at its one RDSTATUS; it changes no
register. -/
def Obligations.AvailabilityIsTheReceiveFlags : Prop :=
  ∀ s : State, s.standard → s.status = .ready → s.nextSlot.ending = .completes →
    ∃ t, exec .isFrameAvailable s = .next t ∧ sameHost s t ∧ t.sched = s.sched.tail ∧
      t.result = some (.returned (.bool (s.beforeXfer.rxFlag 0 || s.beforeXfer.rxFlag 1))) ∧
      t.bus.map (·.mosi) = [[0xA0, 0x00]] ∧ t.regs = s.beforeXfer.regs

/-- R254: getMode reports CANSTAT's mode field, Invalid(v) for 5 to 7, by one READ of CANSTAT, and changes no
register. -/
def Obligations.GetModeReportsModeInEffect : Prop :=
  ∀ s : State, s.standard → s.status = .ready → s.nextSlot.ending = .completes →
    ∃ t r, exec .getMode s = .next t ∧ sameHost s t ∧ t.sched = s.sched.tail ∧
      t.result = some (.returned (.mode r)) ∧
      (s.beforeXfer.opmod = 0 → r = .mode .normal) ∧ (s.beforeXfer.opmod = 1 → r = .mode .sleep) ∧
      (s.beforeXfer.opmod = 2 → r = .mode .loopback) ∧ (s.beforeXfer.opmod = 3 → r = .mode .listenOnly) ∧
      (s.beforeXfer.opmod = 4 → r = .mode .configure) ∧
      (5 ≤ s.beforeXfer.opmod.toNat → r = .invalid s.beforeXfer.opmod) ∧
      t.bus.map (·.mosi) = [[0x03, 0x0E, 0x00]] ∧ t.regs = s.beforeXfer.regs

/-- R256: setMode writes REQOP by one masked modify, with R119's code for the mode (Normal 0, Sleep 1, Loopback 2,
Listen-Only 3, Configure 4), and leaves CANCTRL's other bits, the mode in effect and every other register alone; a mode
outside the enumerators is E_ARGUMENT before any bus access. -/
def Obligations.SetModeWritesOnlyTheRequest : Prop :=
  (∀ (s : State) (m : Mode) (code : Byte), s.standard → s.status = .ready → s.nextSlot.ending = .completes →
    (m, code) ∈ [(Mode.normal, (0 : Byte)), (.sleep, 1), (.loopback, 2), (.listenOnly, 3), (.configure, 4)] →
    ∃ t, exec (.setMode (.enumerator m)) s = .next t ∧ sameHost s t ∧ t.sched = s.sched.tail ∧
      t.result = some (.returned .unit) ∧ t.bus.map (·.mosi) = [([0x05, 0x0F, 0xE0, code <<< 5] : List Byte)] ∧
      t.reg CANCTRL = (s.reg CANCTRL &&& 0x1F) ||| (code <<< 5) ∧ t.reqop = code.setWidth 3 ∧
      t.opmod = s.beforeXfer.opmod ∧ sameRegsExcept [CANCTRL] s.beforeXfer t) ∧
  (∀ (s : State) (v : Nat), s.status = .ready →
    exec (.setMode (.outside v)) s = .next { s with bus := [], result := some (.raised (.argument .mode)) })

/-! ## The configuration sequencer -/

/-- R190, R197, R302: with a valid configuration and no failing exchange, ctor ends Ready with R197's values, under
every schedule of CANSIDE steps for the registers CANSIDE never writes, and for all of R197's table where the schedule
is quiet. OPMOD is Configure throughout, so no write meets configuration protection. -/
def Obligations.ConstructionReachesItsEndState : Prop :=
  ∀ (s : State) (c : ControllerConfig), s.standard → s.status = .unconstructed → s.busCompletes → configFault c = none →
    ∃ t, exec (.ctor c) s = .next t ∧ t.status = .ready ∧ t.config = some c ∧ t.running = s.running ∧
      t.params = s.params ∧ t.inbox = s.inbox ∧ t.sched = s.sched.drop 19 ∧
      t.result = some (.returned .unit) ∧ t.bus.length = 19 ∧
      t.reg CNF1 = packCNF1 c.sjw c.brp ∧
      t.reg CNF2 = packCNF2 c.baudRateSelect c.samplingMode c.phaseSeg1 c.propSeg ∧
      t.reg CNF3 = packCNF3 c.sof c.wakeFilter c.phaseSeg2 ∧
      (∀ k, k < 12 → t.reg (RXF0SIDH + k) = 0x00 ∧ t.reg (RXF3SIDH + k) = 0x00) ∧
      (∀ k, k < 8 → t.reg (RXM0SIDH + k) = 0x00) ∧
      (∀ n k, n < 3 → 1 ≤ k → k < 13 → t.reg (txb n + k) = 0x00) ∧
      t.reg CANINTE = 0xA7 ∧ t.reg BFPCTRL = c.rxPinMode &&& 0x3F ∧
      t.reg TXRTSCTRL &&& 0x07 = c.txRtsPinMode &&& 0x07 ∧ t.reg CANCTRL = 0x07 ∧ t.reqop = 0 ∧
      t.reg (rxb 0) &&& 0x64 = (if c.filtersEnabled then 0x00 else 0x60) ∧
      t.reg (rxb 1) &&& 0x60 = (if c.filtersEnabled then 0x00 else 0x60) ∧
      (s.canQuiet → t.opmod = 4 ∧ t.reg CANINTF = 0x00 ∧ (∀ n, n < 3 → t.reg (txb n) = 0x00) ∧
        (∀ n, n < 2 → t.reg (rxb n) = if c.filtersEnabled then 0x00 else 0x60) ∧
        (∀ n, n < 3 → ∃ d, t.reg (txb n + 13) = Config.freeByte d))

/-- R190, R304: the 19 transactions of a construction, in order, byte for byte; line 3 of R190 is not taken because
the mode read after RESET is Configure. -/
def Obligations.ConstructionIssuesItsTransactionsInOrder : Prop :=
  ∀ (s t : State) (c : ControllerConfig), s.standard → s.status = .unconstructed → s.busCompletes →
    configFault c = none → exec (.ctor c) s = .next t →
    t.bus.map (·.mosi) =
      [[0xC0], [0x03, 0x0E, 0x00],
       [0x02, 0x2A, packCNF1 c.sjw c.brp],
       [0x02, 0x29, packCNF2 c.baudRateSelect c.samplingMode c.phaseSeg1 c.propSeg],
       [0x02, 0x28, packCNF3 c.sof c.wakeFilter c.phaseSeg2],
       0x02 :: 0x00 :: List.replicate 12 0x00, 0x02 :: 0x10 :: List.replicate 12 0x00,
       0x02 :: 0x20 :: List.replicate 8 0x00,
       0x02 :: 0x30 :: List.replicate 13 0x00, 0x02 :: 0x40 :: List.replicate 13 0x00,
       0x02 :: 0x50 :: List.replicate 13 0x00, [0x02, 0x60, 0x00], [0x02, 0x70, 0x00],
       [0x02, 0x2B, 0xA7], [0x02, 0x0C, c.rxPinMode], [0x02, 0x0D, c.txRtsPinMode],
       [0x05, 0x60, 0x60, if c.filtersEnabled then 0x00 else 0x60],
       [0x05, 0x70, 0x60, if c.filtersEnabled then 0x00 else 0x60],
       [0x05, 0x0F, 0xE0, 0x00]]

/-- R183, R195: an invalid configuration ends ctor with E_ARGUMENT of the first bad field, no bus access, status
Failed. That the record is kept is the model's choice (log 15). -/
def Obligations.ConstructionRejectsBadConfiguration : Prop :=
  ∀ (s : State) (c : ControllerConfig) (name : ArgName), s.status = .unconstructed → configFault c = some name →
    exec (.ctor c) s = .next { s with
      status := .failed, config := some c, bus := [], result := some (.raised (.argument name)) }

/-- R195, R271: a transport failure during construction stops the sequence at once, with E_TRANSPORT of the transaction
that failed and status Failed; what the completed transactions wrote stays, and of the later ones nothing is written
(CANINTE keeps its reset value, Normal is not requested). That the record is kept is the model's choice (log 15). -/
def Obligations.ConstructionFailsWithTheFirstExchange : Prop :=
  ∀ (s : State) (c : ControllerConfig) (k : Nat), s.standard → s.status = .unconstructed → configFault c = none →
    k < 19 → (∀ j, j < k → ∀ x, s.sched[j]? = some x → x.ending = .completes) →
    (∃ x, s.sched[k]? = some x ∧ x.ending ≠ .completes) →
    ∃ t cmd, (constructionCommands c)[k]? = some cmd ∧ exec (.ctor c) s = .next t ∧ t.status = .failed ∧
      t.result = some (.raised (.transport cmd.kind cmd.address?)) ∧
      t.bus.map (·.mosi) = ((constructionCommands c).take (k + 1)).map (encodeCommand CommandBytes.standard) ∧
      t.config = some c ∧ t.running = s.running ∧ t.params = s.params ∧ t.inbox = s.inbox ∧
      t.sched = s.sched.drop (k + 1) ∧
      (2 < k → t.reg CNF1 = packCNF1 c.sjw c.brp) ∧
      (3 < k → t.reg CNF2 = packCNF2 c.baudRateSelect c.samplingMode c.phaseSeg1 c.propSeg) ∧
      (4 < k → t.reg CNF3 = packCNF3 c.sof c.wakeFilter c.phaseSeg2) ∧
      (5 < k → ∀ i, i < 12 → t.reg (RXF0SIDH + i) = 0x00) ∧ (6 < k → ∀ i, i < 12 → t.reg (RXF3SIDH + i) = 0x00) ∧
      (7 < k → ∀ i, i < 8 → t.reg (RXM0SIDH + i) = 0x00) ∧
      (∀ n, n < 3 → 8 + n < k → ∀ i, 1 ≤ i → i < 13 → t.reg (txb n + i) = 0x00) ∧
      (13 < k → t.reg CANINTE = 0xA7) ∧ (14 < k → t.reg BFPCTRL = c.rxPinMode &&& 0x3F) ∧
      (15 < k → t.reg TXRTSCTRL &&& 0x07 = c.txRtsPinMode &&& 0x07) ∧
      (∀ n, n < 2 → 16 + n < k → t.reg (rxb n) &&& 0x60 = if c.filtersEnabled then 0x00 else 0x60) ∧
      (0 < k → k < 13 → t.reg CANINTE = 0x00) ∧ (0 < k → k < 18 → t.reg CANCTRL = 0x87)

/-! ## Whole-machine rules -/

/-- R303: every host call but ctor is refused unless status is Ready, and ctor unless it is Unconstructed. -/
def Obligations.HostCallsNeedTheirStatus : Prop :=
  (∀ (s : State) (i : Instr), needsReady i = true → s.status ≠ .ready → exec i s = .refused .hostNotReady) ∧
  (∀ (s : State) (c : ControllerConfig), s.status ≠ .unconstructed → exec (.ctor c) s = .refused .alreadyConstructed)

/-- R160's last sentence, R270, R271, R280: in its status a host call always answers a next state, whatever the
operands, the schedule and the failures; it records how it ended; and an error leaves HOST Ready, except in ctor.
That ctor keeps the record it was called with, also when it fails, is the model's choice (log 15). -/
def Obligations.HostCallsAlwaysEnd : Prop :=
  (∀ (s : State) (i : Instr), s.standard → needsReady i = true → s.status = .ready →
    ∃ t r, exec i s = .next t ∧ t.result = some r ∧ sameHost s t ∧ t.sched = s.sched.drop t.bus.length) ∧
  (∀ (s : State) (c : ControllerConfig), s.standard → s.status = .unconstructed →
    ∃ t r, exec (.ctor c) s = .next t ∧ t.result = some r ∧ t.config = some c ∧ t.running = s.running ∧
      t.params = s.params ∧ t.inbox = s.inbox ∧ t.sched = s.sched.drop t.bus.length ∧
      (t.status = .ready ∧ r = .returned .unit ∨ t.status = .failed ∧ ∃ e, r = .raised e))

/-- R318, of every chip: every instruction is a bounded number of transactions. -/
def Obligations.TransactionCountsAreBounded : Prop :=
  ∀ (s t : State) (i : Instr), exec i s = .next t → t.bus.length ≤ transactionBound i

/-- R258, R260, R99: no host call writes CANINTF or CANCTRL with WRITE, at any of their addresses. -/
def Obligations.HostCallsWriteNoFlagOrModeRegister : Prop :=
  ∀ (s t : State) (i : Instr), s.standard → i.command? = none → exec i s = .next t →
    ∀ x ∈ t.bus, ∀ a ds, decodeCommand CommandBytes.standard x.mosi = .ok (.write a ds) → ∀ k, k < ds.length →
      a.toNat + k < 0x80 ∧ a.toNat + k ≠ CANINTF ∧ (a.toNat + k) % 16 ≠ 15

/-- R270: the four error categories have the codes 1 to 4. -/
def Obligations.ErrorCategoriesHaveDistinctCodes : Prop :=
  (∀ k a, errorCode (.transport k a) = 1) ∧ (∀ n d, errorCode (.corruptFrame n d) = 2) ∧
    (∀ x, errorCode (.argument x) = 3) ∧ errorCode .unsupported = 4

/-- The invariant holds right after reset, in the model's State.reset (log 5), where HOST is Unconstructed and so not
Ready. -/
def Obligations.ResetStateMeetsTheInvariant : Prop := State.reset.Inv ∧ State.reset.status ≠ .ready

/-- Every step keeps the invariant, on the chip with the spec's constants: unimplemented bits stay 0 (R59), the mode in
effect stays one of the five (R119, R283), HOST is Ready only with a validated configuration (R32, R183), and a call in
progress is one that HOST's status admits (R303). From every state that meets it, also in the middle of a call, not
only on runs from reset. -/
def Obligations.EveryStepKeepsTheInvariant : Prop :=
  ∀ s t : State, s.Inv → step s = .next t → t.Inv

/-! ## Steps and calls -/

/-- R95, R7, of every chip whose five command bytes differ: every step is one complete transaction of a link master, or
one CANSIDE step, or the end of a call that issues no transaction at all (R183, R217, R231, R256: errors before any bus
access; log 1), which changes no register; the chip's parameters never change (R6). -/
def Obligations.EveryStepIsOneExchangeOrOneCanSideStep : Prop :=
  ∀ s t : State, s.chip.commands.distinct → step s = .next t →
    t.params = s.params ∧
    ((∃ mosi miso c ending, decodeCommand s.chip.commands mosi = .ok c ∧
        (t.bus = s.bus ++ [⟨mosi, miso⟩] ∨ t.bus = [⟨mosi, miso⟩]) ∧
        (miso.isSome = true → t.regs = (s.engineEffect c).regs) ∧
        (miso = none → t.regs = (s.failedEffect c ending).regs)) ∨
      (∃ e, t.regs = (s.canStep e).regs ∧ (t.bus = s.bus ∨ t.bus = []) ∧ t.draws = s.draws ∧
        t.status = s.status ∧ t.result = s.result) ∨
      (t.regs = s.regs ∧ (t.bus = s.bus ∨ t.bus = []) ∧ t.sched = s.sched ∧ t.draws = s.draws ∧ t.running = none))

/-- R7, R95, R319: a call is its transactions and the CANSIDE steps before them, taken one step at a time: `exec` of a
call is the state in which that many steps end, HOST being inside the call until then (at least one step, for a call
that accesses no bus); a call that `exec` refuses is refused by a step. What `exec` says of a call is therefore what
its steps do. -/
def Obligations.CallsRunAsTheirSteps : Prop :=
  ∀ (s : State) (i : Instr) (rest : List Input), s.running = none → s.inbox = .call i :: rest →
    let u : State := { s with inbox := rest }
    (∀ c : Command, i = c.toInstr → step s = exec i u) ∧
    ((∀ c : Command, i ≠ c.toInstr) →
      (∀ t, exec i u = .next t →
        let k := max 1 (t.bus.length + ((s.sched.take t.bus.length).map (·.before.length)).sum)
        s.steps k = .next t ∧ t.running = none ∧
        ∀ j, 0 < j → j < k →
          ∃ v r, s.steps j = .next v ∧ v.running = some r ∧ r.call = i) ∧
      (∀ r, exec i u = .refused r → ∃ k, s.steps k = .refused r))
end

