-- ==== Sys2Proof/Laws/State.lean ====
section
/-! SUPPORT. One lemma per field and named update of State, true by rfl, so that no proof unfolds a record update. -/

namespace Sys2Proof.Machine

variable (s : State)

@[simp] theorem State.putReg_regs (a : Nat) (v : Byte) : (s.putReg a v).regs = regSet s.chip s.regs a v := rfl
@[simp] theorem State.putReg_status (a : Nat) (v : Byte) : (s.putReg a v).status = s.status := rfl
@[simp] theorem State.putReg_config (a : Nat) (v : Byte) : (s.putReg a v).config = s.config := rfl
@[simp] theorem State.putReg_running (a : Nat) (v : Byte) : (s.putReg a v).running = s.running := rfl
@[simp] theorem State.putReg_params (a : Nat) (v : Byte) : (s.putReg a v).params = s.params := rfl
@[simp] theorem State.putReg_draws (a : Nat) (v : Byte) : (s.putReg a v).draws = s.draws := rfl
@[simp] theorem State.putReg_sched (a : Nat) (v : Byte) : (s.putReg a v).sched = s.sched := rfl
@[simp] theorem State.putReg_inbox (a : Nat) (v : Byte) : (s.putReg a v).inbox = s.inbox := rfl
@[simp] theorem State.putReg_bus (a : Nat) (v : Byte) : (s.putReg a v).bus = s.bus := rfl
@[simp] theorem State.putReg_result (a : Nat) (v : Byte) : (s.putReg a v).result = s.result := rfl
@[simp] theorem State.putReg_chip (a : Nat) (v : Byte) : (s.putReg a v).chip = s.chip := rfl

@[simp] theorem State.setRegs_regs (r : RegFile) : (s.setRegs r).regs = r := rfl
@[simp] theorem State.setRegs_status (r : RegFile) : (s.setRegs r).status = s.status := rfl
@[simp] theorem State.setRegs_config (r : RegFile) : (s.setRegs r).config = s.config := rfl
@[simp] theorem State.setRegs_running (r : RegFile) : (s.setRegs r).running = s.running := rfl
@[simp] theorem State.setRegs_params (r : RegFile) : (s.setRegs r).params = s.params := rfl
@[simp] theorem State.setRegs_draws (r : RegFile) : (s.setRegs r).draws = s.draws := rfl
@[simp] theorem State.setRegs_sched (r : RegFile) : (s.setRegs r).sched = s.sched := rfl
@[simp] theorem State.setRegs_inbox (r : RegFile) : (s.setRegs r).inbox = s.inbox := rfl
@[simp] theorem State.setRegs_bus (r : RegFile) : (s.setRegs r).bus = s.bus := rfl
@[simp] theorem State.setRegs_result (r : RegFile) : (s.setRegs r).result = s.result := rfl
@[simp] theorem State.setRegs_chip (r : RegFile) : (s.setRegs r).chip = s.chip := rfl

@[simp] theorem State.drew_regs (k : Nat) : (s.drew k).regs = s.regs := rfl
@[simp] theorem State.drew_status (k : Nat) : (s.drew k).status = s.status := rfl
@[simp] theorem State.drew_config (k : Nat) : (s.drew k).config = s.config := rfl
@[simp] theorem State.drew_running (k : Nat) : (s.drew k).running = s.running := rfl
@[simp] theorem State.drew_params (k : Nat) : (s.drew k).params = s.params := rfl
@[simp] theorem State.drew_draws (k : Nat) : (s.drew k).draws = s.draws + k := rfl
@[simp] theorem State.drew_sched (k : Nat) : (s.drew k).sched = s.sched := rfl
@[simp] theorem State.drew_inbox (k : Nat) : (s.drew k).inbox = s.inbox := rfl
@[simp] theorem State.drew_bus (k : Nat) : (s.drew k).bus = s.bus := rfl
@[simp] theorem State.drew_result (k : Nat) : (s.drew k).result = s.result := rfl
@[simp] theorem State.drew_chip (k : Nat) : (s.drew k).chip = s.chip := rfl

@[simp] theorem State.ended_regs (r : Result) : (s.ended r).regs = s.regs := rfl
@[simp] theorem State.ended_status (r : Result) : (s.ended r).status = s.status := rfl
@[simp] theorem State.ended_config (r : Result) : (s.ended r).config = s.config := rfl
@[simp] theorem State.ended_running (r : Result) : (s.ended r).running = s.running := rfl
@[simp] theorem State.ended_params (r : Result) : (s.ended r).params = s.params := rfl
@[simp] theorem State.ended_draws (r : Result) : (s.ended r).draws = s.draws := rfl
@[simp] theorem State.ended_sched (r : Result) : (s.ended r).sched = s.sched := rfl
@[simp] theorem State.ended_inbox (r : Result) : (s.ended r).inbox = s.inbox := rfl
@[simp] theorem State.ended_bus (r : Result) : (s.ended r).bus = s.bus := rfl
@[simp] theorem State.ended_result (r : Result) : (s.ended r).result = some r := rfl
@[simp] theorem State.ended_chip (r : Result) : (s.ended r).chip = s.chip := rfl

@[simp] theorem State.setStatus_regs (h : HostStatus) : (s.setStatus h).regs = s.regs := rfl
@[simp] theorem State.setStatus_status (h : HostStatus) : (s.setStatus h).status = h := rfl
@[simp] theorem State.setStatus_config (h : HostStatus) : (s.setStatus h).config = s.config := rfl
@[simp] theorem State.setStatus_running (h : HostStatus) : (s.setStatus h).running = s.running := rfl
@[simp] theorem State.setStatus_params (h : HostStatus) : (s.setStatus h).params = s.params := rfl
@[simp] theorem State.setStatus_draws (h : HostStatus) : (s.setStatus h).draws = s.draws := rfl
@[simp] theorem State.setStatus_sched (h : HostStatus) : (s.setStatus h).sched = s.sched := rfl
@[simp] theorem State.setStatus_inbox (h : HostStatus) : (s.setStatus h).inbox = s.inbox := rfl
@[simp] theorem State.setStatus_bus (h : HostStatus) : (s.setStatus h).bus = s.bus := rfl
@[simp] theorem State.setStatus_result (h : HostStatus) : (s.setStatus h).result = s.result := rfl
@[simp] theorem State.setStatus_chip (h : HostStatus) : (s.setStatus h).chip = s.chip := rfl

@[simp] theorem State.setConfig_regs (c : ControllerConfig) : (s.setConfig c).regs = s.regs := rfl
@[simp] theorem State.setConfig_status (c : ControllerConfig) : (s.setConfig c).status = s.status := rfl
@[simp] theorem State.setConfig_config (c : ControllerConfig) : (s.setConfig c).config = some c := rfl
@[simp] theorem State.setConfig_running (c : ControllerConfig) : (s.setConfig c).running = s.running := rfl
@[simp] theorem State.setConfig_params (c : ControllerConfig) : (s.setConfig c).params = s.params := rfl
@[simp] theorem State.setConfig_draws (c : ControllerConfig) : (s.setConfig c).draws = s.draws := rfl
@[simp] theorem State.setConfig_sched (c : ControllerConfig) : (s.setConfig c).sched = s.sched := rfl
@[simp] theorem State.setConfig_inbox (c : ControllerConfig) : (s.setConfig c).inbox = s.inbox := rfl
@[simp] theorem State.setConfig_bus (c : ControllerConfig) : (s.setConfig c).bus = s.bus := rfl
@[simp] theorem State.setConfig_result (c : ControllerConfig) : (s.setConfig c).result = s.result := rfl
@[simp] theorem State.setConfig_chip (c : ControllerConfig) : (s.setConfig c).chip = s.chip := rfl

@[simp] theorem State.setRunning_regs (r : Option Running) : (s.setRunning r).regs = s.regs := rfl
@[simp] theorem State.setRunning_status (r : Option Running) : (s.setRunning r).status = s.status := rfl
@[simp] theorem State.setRunning_config (r : Option Running) : (s.setRunning r).config = s.config := rfl
@[simp] theorem State.setRunning_running (r : Option Running) : (s.setRunning r).running = r := rfl
@[simp] theorem State.setRunning_params (r : Option Running) : (s.setRunning r).params = s.params := rfl
@[simp] theorem State.setRunning_draws (r : Option Running) : (s.setRunning r).draws = s.draws := rfl
@[simp] theorem State.setRunning_sched (r : Option Running) : (s.setRunning r).sched = s.sched := rfl
@[simp] theorem State.setRunning_inbox (r : Option Running) : (s.setRunning r).inbox = s.inbox := rfl
@[simp] theorem State.setRunning_bus (r : Option Running) : (s.setRunning r).bus = s.bus := rfl
@[simp] theorem State.setRunning_result (r : Option Running) : (s.setRunning r).result = s.result := rfl
@[simp] theorem State.setRunning_chip (r : Option Running) : (s.setRunning r).chip = s.chip := rfl

@[simp] theorem State.clearBus_regs : s.clearBus.regs = s.regs := rfl
@[simp] theorem State.clearBus_status : s.clearBus.status = s.status := rfl
@[simp] theorem State.clearBus_config : s.clearBus.config = s.config := rfl
@[simp] theorem State.clearBus_running : s.clearBus.running = s.running := rfl
@[simp] theorem State.clearBus_params : s.clearBus.params = s.params := rfl
@[simp] theorem State.clearBus_draws : s.clearBus.draws = s.draws := rfl
@[simp] theorem State.clearBus_sched : s.clearBus.sched = s.sched := rfl
@[simp] theorem State.clearBus_inbox : s.clearBus.inbox = s.inbox := rfl
@[simp] theorem State.clearBus_bus : s.clearBus.bus = [] := rfl
@[simp] theorem State.clearBus_result : s.clearBus.result = s.result := rfl
@[simp] theorem State.clearBus_chip : s.clearBus.chip = s.chip := rfl

@[simp] theorem State.logged_regs (x : Exchange) : (s.logged x).regs = s.regs := rfl
@[simp] theorem State.logged_status (x : Exchange) : (s.logged x).status = s.status := rfl
@[simp] theorem State.logged_config (x : Exchange) : (s.logged x).config = s.config := rfl
@[simp] theorem State.logged_running (x : Exchange) : (s.logged x).running = s.running := rfl
@[simp] theorem State.logged_params (x : Exchange) : (s.logged x).params = s.params := rfl
@[simp] theorem State.logged_draws (x : Exchange) : (s.logged x).draws = s.draws := rfl
@[simp] theorem State.logged_sched (x : Exchange) : (s.logged x).sched = s.sched := rfl
@[simp] theorem State.logged_inbox (x : Exchange) : (s.logged x).inbox = s.inbox := rfl
@[simp] theorem State.logged_bus (x : Exchange) : (s.logged x).bus = s.bus ++ [x] := rfl
@[simp] theorem State.logged_result (x : Exchange) : (s.logged x).result = s.result := rfl
@[simp] theorem State.logged_chip (x : Exchange) : (s.logged x).chip = s.chip := rfl

@[simp] theorem State.ctorEnded_regs (r : Result) : (s.ctorEnded r).regs = s.regs := rfl
@[simp] theorem State.ctorEnded_status (r : Result) : (s.ctorEnded r).status = statusAfterCtor r := rfl
@[simp] theorem State.ctorEnded_config (r : Result) : (s.ctorEnded r).config = s.config := rfl
@[simp] theorem State.ctorEnded_running (r : Result) : (s.ctorEnded r).running = s.running := rfl
@[simp] theorem State.ctorEnded_params (r : Result) : (s.ctorEnded r).params = s.params := rfl
@[simp] theorem State.ctorEnded_draws (r : Result) : (s.ctorEnded r).draws = s.draws := rfl
@[simp] theorem State.ctorEnded_sched (r : Result) : (s.ctorEnded r).sched = s.sched := rfl
@[simp] theorem State.ctorEnded_inbox (r : Result) : (s.ctorEnded r).inbox = s.inbox := rfl
@[simp] theorem State.ctorEnded_bus (r : Result) : (s.ctorEnded r).bus = s.bus := rfl
@[simp] theorem State.ctorEnded_result (r : Result) : (s.ctorEnded r).result = some r := rfl
@[simp] theorem State.ctorEnded_chip (r : Result) : (s.ctorEnded r).chip = s.chip := rfl

@[simp] theorem State.slotTaken_regs : s.slotTaken.regs = s.regs := rfl
@[simp] theorem State.slotTaken_status : s.slotTaken.status = s.status := rfl
@[simp] theorem State.slotTaken_config : s.slotTaken.config = s.config := rfl
@[simp] theorem State.slotTaken_running : s.slotTaken.running = s.running := rfl
@[simp] theorem State.slotTaken_params : s.slotTaken.params = s.params := rfl
@[simp] theorem State.slotTaken_draws : s.slotTaken.draws = s.draws := rfl
@[simp] theorem State.slotTaken_sched : s.slotTaken.sched = s.sched.tail := rfl
@[simp] theorem State.slotTaken_inbox : s.slotTaken.inbox = s.inbox := rfl
@[simp] theorem State.slotTaken_bus : s.slotTaken.bus = s.bus := rfl
@[simp] theorem State.slotTaken_result : s.slotTaken.result = s.result := rfl
@[simp] theorem State.slotTaken_chip : s.slotTaken.chip = s.chip := rfl

@[simp] theorem State.canStepTaken_regs : s.canStepTaken.regs = s.regs := rfl
@[simp] theorem State.canStepTaken_status : s.canStepTaken.status = s.status := rfl
@[simp] theorem State.canStepTaken_config : s.canStepTaken.config = s.config := rfl
@[simp] theorem State.canStepTaken_running : s.canStepTaken.running = s.running := rfl
@[simp] theorem State.canStepTaken_params : s.canStepTaken.params = s.params := rfl
@[simp] theorem State.canStepTaken_draws : s.canStepTaken.draws = s.draws := rfl
@[simp] theorem State.canStepTaken_sched :
    s.canStepTaken.sched = 
    { s.nextSlot with before := s.nextSlot.before.tail } :: s.sched.tail := rfl
@[simp] theorem State.canStepTaken_inbox : s.canStepTaken.inbox = s.inbox := rfl
@[simp] theorem State.canStepTaken_bus : s.canStepTaken.bus = s.bus := rfl
@[simp] theorem State.canStepTaken_result : s.canStepTaken.result = s.result := rfl
@[simp] theorem State.canStepTaken_chip : s.canStepTaken.chip = s.chip := rfl

@[simp] theorem State.took_regs : s.took.regs = s.regs := rfl
@[simp] theorem State.took_status : s.took.status = s.status := rfl
@[simp] theorem State.took_config : s.took.config = s.config := rfl
@[simp] theorem State.took_running : s.took.running = s.running := rfl
@[simp] theorem State.took_params : s.took.params = s.params := rfl
@[simp] theorem State.took_draws : s.took.draws = s.draws := rfl
@[simp] theorem State.took_sched : s.took.sched = s.sched := rfl
@[simp] theorem State.took_inbox : s.took.inbox = s.inbox.tail := rfl
@[simp] theorem State.took_bus : s.took.bus = s.bus := rfl
@[simp] theorem State.took_result : s.took.result = s.result := rfl
@[simp] theorem State.took_chip : s.took.chip = s.chip := rfl

@[simp] theorem State.withTransaction_regs (mosi : List Byte) : (s.withTransaction mosi).regs = s.regs := rfl
@[simp] theorem State.withTransaction_status (mosi : List Byte) : (s.withTransaction mosi).status = s.status := rfl
@[simp] theorem State.withTransaction_config (mosi : List Byte) : (s.withTransaction mosi).config = s.config := rfl
@[simp] theorem State.withTransaction_running (mosi : List Byte) : (s.withTransaction mosi).running = none := rfl
@[simp] theorem State.withTransaction_params (mosi : List Byte) : (s.withTransaction mosi).params = s.params := rfl
@[simp] theorem State.withTransaction_draws (mosi : List Byte) : (s.withTransaction mosi).draws = s.draws := rfl
@[simp] theorem State.withTransaction_sched (mosi : List Byte) : (s.withTransaction mosi).sched = s.sched := rfl
@[simp] theorem State.withTransaction_inbox (mosi : List Byte) :
    (s.withTransaction mosi).inbox = .link mosi :: s.inbox := rfl
@[simp] theorem State.withTransaction_bus (mosi : List Byte) : (s.withTransaction mosi).bus = s.bus := rfl
@[simp] theorem State.withTransaction_result (mosi : List Byte) : (s.withTransaction mosi).result = s.result := rfl
@[simp] theorem State.withTransaction_chip (mosi : List Byte) : (s.withTransaction mosi).chip = s.chip := rfl

@[simp] theorem State.resetRegisters_regs : s.resetRegisters.regs = resetRegs s.chip s.draws := by
  simp [State.resetRegisters]
@[simp] theorem State.resetRegisters_status : s.resetRegisters.status = s.status := by
  simp [State.resetRegisters]
@[simp] theorem State.resetRegisters_config : s.resetRegisters.config = s.config := by
  simp [State.resetRegisters]
@[simp] theorem State.resetRegisters_running : s.resetRegisters.running = s.running := by
  simp [State.resetRegisters]
@[simp] theorem State.resetRegisters_params : s.resetRegisters.params = s.params := by
  simp [State.resetRegisters]
@[simp] theorem State.resetRegisters_draws : s.resetRegisters.draws = s.draws + 128 := by
  simp [State.resetRegisters]
@[simp] theorem State.resetRegisters_sched : s.resetRegisters.sched = s.sched := by
  simp [State.resetRegisters]
@[simp] theorem State.resetRegisters_inbox : s.resetRegisters.inbox = s.inbox := by
  simp [State.resetRegisters]
@[simp] theorem State.resetRegisters_bus : s.resetRegisters.bus = s.bus := by
  simp [State.resetRegisters]
@[simp] theorem State.resetRegisters_result : s.resetRegisters.result = s.result := by
  simp [State.resetRegisters]
@[simp] theorem State.resetRegisters_chip : s.resetRegisters.chip = s.chip := by
  simp [State.resetRegisters]

/-- Two states are equal if all their fields are. -/
theorem State.ext_fields {s t : State} (h1 : s.regs = t.regs) (h2 : s.status = t.status) (h3 : s.config = t.config)
    (h4 : s.running = t.running) (h5 : s.params = t.params) (h6 : s.draws = t.draws) (h7 : s.sched = t.sched)
    (h8 : s.inbox = t.inbox) (h9 : s.bus = t.bus) (h10 : s.result = t.result) : s = t := by
  cases s; cases t; simp_all

end Sys2Proof.Machine
end

