-- ==== Sys2Proof/Laws/Registers.lean ====
section
/-! SUPPORT. The register file's laws: read after write, mirrors, the reset contents, the masks. Those of any chip come
first, then those of the chip with the spec's constants. -/

namespace Sys2Proof.Machine

/-! ## Storage, on any chip -/

theorem home_lt {c : Chip} {a : Nat} (h : a < 0x80) : c.home a < 128 := by
  unfold Chip.home; rw [if_pos h]; exact (c.info a).home.isLt

theorem home_ge {c : Chip} {a : Nat} (h : 0x80 ≤ a) : c.home a = a := by
  unfold Chip.home; rw [if_neg (by omega)]

/-- An address that names no register shares storage with none. -/
theorem home_ne_of_ge {c : Chip} {a b : Nat} (ha : 0x80 ≤ a) (hb : b < 0x80) : c.home a ≠ c.home b := by
  have := home_lt (c := c) hb
  rw [home_ge ha]; omega

theorem regGet_regSet {c : Chip} {r : RegFile} {a b : Nat} (v : Byte) (ha : a < 0x80) :
    regGet c (regSet c r a v) b = if c.home a = c.home b then v else regGet c r b := by
  have := home_lt (c := c) ha
  unfold regGet regSet
  rw [Vector.getElem?_setIfInBounds]
  split <;> simp_all

/-- A register that no address of the same storage is written to keeps its value. -/
theorem regGet_regSet_ne {c : Chip} {r : RegFile} {a b : Nat} (v : Byte) (h : c.home a ≠ c.home b) :
    regGet c (regSet c r a v) b = regGet c r b := by
  unfold regGet regSet
  rw [Vector.getElem?_setIfInBounds]
  simp [h]

theorem State.reg_putReg (s : State) {a : Nat} (b : Nat) (v : Byte) (ha : a < 0x80) :
    (s.putReg a v).reg b = if s.chip.home a = s.chip.home b then v else s.reg b := by
  simp [State.reg, regGet_regSet v ha]

theorem State.reg_putReg_same (s : State) {a : Nat} (v : Byte) (ha : a < 0x80) : (s.putReg a v).reg a = v := by
  rw [s.reg_putReg a v ha]; simp

theorem State.reg_putReg_ne (s : State) {a b : Nat} (v : Byte) (h : s.chip.home a ≠ s.chip.home b) :
    (s.putReg a v).reg b = s.reg b := by
  simp [State.reg, regGet_regSet_ne v h]

theorem State.reg_congr (s : State) {a b : Nat} (h : s.chip.home a = s.chip.home b) : s.reg a = s.reg b := by
  simp [State.reg, regGet, h]

/-- Registers read the same in states with the same chip and register file. -/
theorem State.reg_of_regs {s t : State} (hc : s.chip = t.chip) (hr : s.regs = t.regs) (b : Nat) : s.reg b = t.reg b := by
  unfold State.reg; rw [hc, hr]

@[simp] theorem State.reg_drew (s : State) (k b : Nat) : (s.drew k).reg b = s.reg b := rfl
@[simp] theorem State.reg_ended (s : State) (r : Result) (b : Nat) : (s.ended r).reg b = s.reg b := rfl
@[simp] theorem State.reg_ctorEnded (s : State) (r : Result) (b : Nat) : (s.ctorEnded r).reg b = s.reg b := rfl
@[simp] theorem State.reg_setStatus (s : State) (h : HostStatus) (b : Nat) : (s.setStatus h).reg b = s.reg b := rfl
@[simp] theorem State.reg_setConfig (s : State) (c : ControllerConfig) (b : Nat) : (s.setConfig c).reg b = s.reg b := rfl
@[simp] theorem State.reg_setRunning (s : State) (r : Option Running) (b : Nat) : (s.setRunning r).reg b = s.reg b := rfl
@[simp] theorem State.reg_clearBus (s : State) (b : Nat) : s.clearBus.reg b = s.reg b := rfl
@[simp] theorem State.reg_logged (s : State) (x : Exchange) (b : Nat) : (s.logged x).reg b = s.reg b := rfl
@[simp] theorem State.reg_slotTaken (s : State) (b : Nat) : s.slotTaken.reg b = s.reg b := rfl
@[simp] theorem State.reg_canStepTaken (s : State) (b : Nat) : s.canStepTaken.reg b = s.reg b := rfl
@[simp] theorem State.reg_took (s : State) (b : Nat) : s.took.reg b = s.reg b := rfl

/-! ## The chip with the spec's constants (R6) -/

/-- The place R36 gives the register at address a. -/
abbrev slotOf (a : Nat) : Nat := Chip.standard.home a

theorem State.home_eq {s : State} (h : s.standard) (a : Nat) : s.chip.home a = slotOf a := by rw [h]

theorem slotOf_eq {a : Nat} (h : a < 0x80) :
    slotOf a = if a % 16 = 14 then 14 else if a % 16 = 15 then 15 else a := by
  have : ∀ a : Fin 128, slotOf a.val = if a.val % 16 = 14 then 14 else if a.val % 16 = 15 then 15 else a.val := by
    decide +kernel
  exact this ⟨a, h⟩

/-- Two addresses share storage only as the same address or as mirrors of CANSTAT or of CANCTRL (R35). -/
theorem slotOf_eq_iff {a b : Nat} (ha : a < 0x80) (hb : b < 0x80) :
    slotOf a = slotOf b ↔ a = b ∨ (a % 16 = 14 ∧ b % 16 = 14) ∨ (a % 16 = 15 ∧ b % 16 = 15) := by
  rw [slotOf_eq ha, slotOf_eq hb]; split <;> split <;> (try split) <;> (try split) <;> omega

theorem slotOf_ne_of_ge {a b : Nat} (ha : 0x80 ≤ a) (hb : b < 0x80) : slotOf a ≠ slotOf b := home_ne_of_ge ha hb

/-- Mirrors have the same row but for nothing: a register's row is the row of its place. -/
theorem info_slotOf {a : Nat} (h : a < 0x80) : Chip.standard.info (slotOf a) = Chip.standard.info a := by
  have : ∀ a : Fin 128, Chip.standard.info (slotOf a.val) = Chip.standard.info a.val := by decide +kernel
  exact this ⟨a, h⟩

theorem slotOf_slotOf {a : Nat} (h : a < 0x80) : slotOf (slotOf a) = slotOf a := by
  have : ∀ a : Fin 128, slotOf (slotOf a.val) = slotOf a.val := by decide +kernel
  exact this ⟨a, h⟩

theorem slotOf_lt {a : Nat} (h : a < 0x80) : slotOf a < 0x80 := home_lt h

theorem impl_congr {a b : Nat} (ha : a < 0x80) (hb : b < 0x80) (h : slotOf a = slotOf b) :
    Chip.standard.impl a = Chip.standard.impl b := by
  unfold Chip.impl; rw [← info_slotOf ha, ← info_slotOf hb, h]

theorem wmask_congr {a b : Nat} (ha : a < 0x80) (hb : b < 0x80) (h : slotOf a = slotOf b) :
    Chip.standard.wmask a = Chip.standard.wmask b := by
  unfold Chip.wmask; rw [← info_slotOf ha, ← info_slotOf hb, h]

/-- R37's and R38's layout. -/
theorem txb_standard {n : Nat} (h : n < 3) : Chip.standard.txb n = bufferAt (txb n) := by
  have : n = 0 ∨ n = 1 ∨ n = 2 := by omega
  rcases this with rfl | rfl | rfl <;> rfl

theorem rxb_standard {n : Nat} (h : n < 2) : Chip.standard.rxb n = bufferAt (rxb n) := by
  have : n = 0 ∨ n = 1 := by omega
  rcases this with rfl | rfl <;> rfl

@[simp] theorem bufferAt_CTRL (a : Nat) : (bufferAt a).CTRL = a := rfl
@[simp] theorem bufferAt_SIDH (a : Nat) : (bufferAt a).SIDH = a + 1 := rfl
@[simp] theorem bufferAt_SIDL (a : Nat) : (bufferAt a).SIDL = a + 2 := rfl
@[simp] theorem bufferAt_EID8 (a : Nat) : (bufferAt a).EID8 = a + 3 := rfl
@[simp] theorem bufferAt_EID0 (a : Nat) : (bufferAt a).EID0 = a + 4 := rfl
@[simp] theorem bufferAt_DLC (a : Nat) : (bufferAt a).DLC = a + 5 := rfl
@[simp] theorem bufferAt_D0 (a : Nat) : (bufferAt a).D0 = a + 6 := rfl
@[simp] theorem bufferAt_data (a : Nat) : (bufferAt a).data = (List.range 8).map (a + 6 + ·) := rfl
@[simp] theorem bufferAt_frame (a : Nat) : (bufferAt a).frame = (List.range 13).map (a + 1 + ·) := by
  simp [BufferAddresses.frame, BufferAddresses.data, bufferAt, List.range_succ, Nat.add_assoc]

/-- A buffer's 14 registers are consecutive (R37, R38). -/
theorem bufferAt_registers (a : Nat) : (bufferAt a).CTRL :: (bufferAt a).frame = (List.range 14).map (a + ·) := by
  simp [BufferAddresses.frame, BufferAddresses.data, bufferAt, List.range_succ]

/-- R36: every address from 0x00 to 0x7F is in exactly one row, a named register's or a mirror's. -/
theorem standard_addresses_exact {a : Nat} (h : a < 0x80) :
    RegAddresses.standard.toList.count a =
      if (a % 16 = 14 ∨ a % 16 = 15) ∧ a ≠ CANSTAT ∧ a ≠ CANCTRL then 0 else 1 := by
  have : ∀ a : Fin 128, RegAddresses.standard.toList.count a.val =
      if (a.val % 16 = 14 ∨ a.val % 16 = 15) ∧ a.val ≠ CANSTAT ∧ a.val ≠ CANCTRL then 0 else 1 := by decide +kernel
  exact this ⟨a, h⟩

theorem rxIF_standard {n : Nat} (h : n < 2) : rxIF Chip.standard n = 1#8 <<< n := by
  have : n = 0 ∨ n = 1 := by omega
  rcases this with rfl | rfl <;> rfl

theorem txIF_standard {n : Nat} (h : n < 3) : txIF Chip.standard n = 4#8 <<< n := by
  have : n = 0 ∨ n = 1 ∨ n = 2 := by omega
  rcases this with rfl | rfl | rfl <;> rfl

theorem pinMode_standard {n : Nat} (h : n < 3) : pinMode Chip.standard n = 1#8 <<< n := by
  have : n = 0 ∨ n = 1 ∨ n = 2 := by omega
  rcases this with rfl | rfl | rfl <;> rfl

/-! ## The values of the spec's constants -/

@[simp] theorem standard_RXF0SIDH : Chip.standard.addr.RXF0.SIDH = RXF0SIDH := rfl
@[simp] theorem standard_BFPCTRL : Chip.standard.addr.BFPCTRL = BFPCTRL := rfl
@[simp] theorem standard_TXRTSCTRL : Chip.standard.addr.TXRTSCTRL = TXRTSCTRL := rfl
@[simp] theorem standard_CANSTAT : Chip.standard.addr.CANSTAT = CANSTAT := rfl
@[simp] theorem standard_CANCTRL : Chip.standard.addr.CANCTRL = CANCTRL := rfl
@[simp] theorem standard_RXF3SIDH : Chip.standard.addr.RXF3.SIDH = RXF3SIDH := rfl
@[simp] theorem standard_TEC : Chip.standard.addr.TEC = TEC := rfl
@[simp] theorem standard_REC : Chip.standard.addr.REC = REC := rfl
@[simp] theorem standard_RXM0SIDH : Chip.standard.addr.RXM0.SIDH = RXM0SIDH := rfl
@[simp] theorem standard_CNF3 : Chip.standard.addr.CNF3 = CNF3 := rfl
@[simp] theorem standard_CNF2 : Chip.standard.addr.CNF2 = CNF2 := rfl
@[simp] theorem standard_CNF1 : Chip.standard.addr.CNF1 = CNF1 := rfl
@[simp] theorem standard_CANINTE : Chip.standard.addr.CANINTE = CANINTE := rfl
@[simp] theorem standard_CANINTF : Chip.standard.addr.CANINTF = CANINTF := rfl
@[simp] theorem standard_EFLG : Chip.standard.addr.EFLG = EFLG := rfl
@[simp] theorem standard_bit_RX0IF : Chip.standard.bits.RX0IF = 0 := rfl
@[simp] theorem standard_bit_RX1IF : Chip.standard.bits.RX1IF = 1 := rfl
@[simp] theorem standard_bit_TX0IF : Chip.standard.bits.TX0IF = 2 := rfl
@[simp] theorem standard_bit_TX1IF : Chip.standard.bits.TX1IF = 3 := rfl
@[simp] theorem standard_bit_TX2IF : Chip.standard.bits.TX2IF = 4 := rfl
@[simp] theorem standard_bit_ERRIF : Chip.standard.bits.ERRIF = 5 := rfl
@[simp] theorem standard_bit_WAKIF : Chip.standard.bits.WAKIF = 6 := rfl
@[simp] theorem standard_bit_MERRF : Chip.standard.bits.MERRF = 7 := rfl
@[simp] theorem standard_bit_statusRX0IF : Chip.standard.bits.statusRX0IF = 0 := rfl
@[simp] theorem standard_bit_statusRX1IF : Chip.standard.bits.statusRX1IF = 1 := rfl
@[simp] theorem standard_bit_statusTXREQ0 : Chip.standard.bits.statusTXREQ0 = 2 := rfl
@[simp] theorem standard_bit_statusTX0IF : Chip.standard.bits.statusTX0IF = 3 := rfl
@[simp] theorem standard_bit_statusTXREQ1 : Chip.standard.bits.statusTXREQ1 = 4 := rfl
@[simp] theorem standard_bit_statusTX1IF : Chip.standard.bits.statusTX1IF = 5 := rfl
@[simp] theorem standard_bit_statusTXREQ2 : Chip.standard.bits.statusTXREQ2 = 6 := rfl
@[simp] theorem standard_bit_statusTX2IF : Chip.standard.bits.statusTX2IF = 7 := rfl
@[simp] theorem standard_bit_ICOD : Chip.standard.bits.ICOD = 1 := rfl
@[simp] theorem standard_bit_REQOP : Chip.standard.bits.REQOP = 5 := rfl
@[simp] theorem standard_bit_ABTF : Chip.standard.bits.ABTF = 6 := rfl
@[simp] theorem standard_bit_MLOA : Chip.standard.bits.MLOA = 5 := rfl
@[simp] theorem standard_bit_TXERR : Chip.standard.bits.TXERR = 4 := rfl
@[simp] theorem standard_bit_TXREQ : Chip.standard.bits.TXREQ = 3 := rfl
@[simp] theorem standard_bit_RXM : Chip.standard.bits.RXM = 5 := rfl
@[simp] theorem standard_bit_RXRTR : Chip.standard.bits.RXRTR = 3 := rfl
@[simp] theorem standard_bit_RX0OVR : Chip.standard.bits.RX0OVR = 6 := rfl
@[simp] theorem standard_bit_RX1OVR : Chip.standard.bits.RX1OVR = 7 := rfl
@[simp] theorem standard_bit_B0RTS : Chip.standard.bits.B0RTS = 3 := rfl
@[simp] theorem standard_bit_B1RTS : Chip.standard.bits.B1RTS = 4 := rfl
@[simp] theorem standard_bit_B2RTS : Chip.standard.bits.B2RTS = 5 := rfl
@[simp] theorem standard_bit_B0RTSM : Chip.standard.bits.B0RTSM = 0 := rfl
@[simp] theorem standard_bit_B1RTSM : Chip.standard.bits.B1RTSM = 1 := rfl
@[simp] theorem standard_bit_B2RTSM : Chip.standard.bits.B2RTSM = 2 := rfl
@[simp] theorem standard_bit_IDE : Chip.standard.bits.IDE = 3 := rfl
@[simp] theorem standard_bit_DLC : Chip.standard.bits.DLC = 0 := rfl
@[simp] theorem standard_mode_normal : Chip.standard.modeCode .normal = 0 := rfl
@[simp] theorem standard_mode_sleep : Chip.standard.modeCode .sleep = 1 := rfl
@[simp] theorem standard_mode_loopback : Chip.standard.modeCode .loopback = 2 := rfl
@[simp] theorem standard_mode_listenOnly : Chip.standard.modeCode .listenOnly = 3 := rfl
@[simp] theorem standard_mode_configure : Chip.standard.modeCode .configure = 4 := rfl
@[simp] theorem standard_errIF : errIF Chip.standard = 0x20#8 := rfl
@[simp] theorem standard_wakIF : wakIF Chip.standard = 0x40#8 := rfl
@[simp] theorem standard_merrF : merrF Chip.standard = 0x80#8 := rfl
@[simp] theorem standard_txreq : txreq Chip.standard = 0x08#8 := rfl
@[simp] theorem standard_pinLevels : pinLevels Chip.standard = 0x38#8 := rfl
@[simp] theorem standard_outcomeBits : outcomeBits Chip.standard = 0x70#8 := rfl
@[simp] theorem standard_overflowBits : overflowBits Chip.standard = 0xC0#8 := rfl
@[simp] theorem standard_reqopMask : reqopMask Chip.standard = 0xE0#8 := rfl
@[simp] theorem standard_rxmMask : rxmMask Chip.standard = 0x60#8 := rfl
@[simp] theorem standard_inteVal : inteVal Chip.standard = 0xA7#8 := rfl

theorem isModeCode_standard {v : BitVec 3} : isModeCode Chip.standard v = true ↔ v.toNat ≤ 4 := by
  revert v; decide

/-! ## Reset -/

theorem regGet_fillRegs (f : Nat → Byte) {a : Nat} (h : a < 0x80) :
    regGet Chip.standard (fillRegs Chip.standard f) a = f (slotOf a) := by
  have := slotOf_lt h
  unfold regGet fillRegs
  rw [Vector.getElem?_ofFn]
  simp [this, slotOf_slotOf h]

theorem resetValue_slotOf {a : Nat} (h : a < 0x80) (d : Byte) :
    Chip.standard.resetValue (slotOf a) d = Chip.standard.resetValue a d := by
  unfold Chip.resetValue; rw [info_slotOf h]

theorem regGet_resetRegs (d : Nat) {a : Nat} (h : a < 0x80) :
    regGet Chip.standard (resetRegs Chip.standard d) a =
      Chip.standard.resetValue a (Config.freeByte (d + slotOf a)) := by
  unfold resetRegs; rw [regGet_fillRegs _ h, resetValue_slotOf h]

/-- Every register takes its reset value (R150). -/
theorem State.reg_resetRegisters {s : State} (hs : s.standard) {a : Nat} (h : a < 0x80) :
    s.resetRegisters.reg a = Chip.standard.resetValue a (Config.freeByte (s.draws + slotOf a)) := by
  unfold State.reg
  rw [State.resetRegisters_chip, State.resetRegisters_regs, hs]; exact regGet_resetRegs _ h

/-! ## Masks -/

/-- The table's facts about every row: what can be written is implemented, what RESET leaves is implemented. -/
theorem regInfo_masks {a : Nat} (h : a < 0x80) :
    Chip.standard.wmask a &&& ~~~Chip.standard.impl a = 0 ∧
      (Chip.standard.info a).fixed &&& ~~~Chip.standard.impl a = 0 ∧
      (Chip.standard.info a).drawn &&& ~~~Chip.standard.impl a = 0 := by
  have : ∀ a : Fin 128, Chip.standard.wmask a &&& ~~~Chip.standard.impl a = 0 ∧
      (Chip.standard.info a).fixed &&& ~~~Chip.standard.impl a = 0 ∧
      (Chip.standard.info a).drawn &&& ~~~Chip.standard.impl a = 0 := by decide +kernel
  exact this ⟨a, h⟩

theorem byte_and_not_of_and {x m : Byte} (h : x &&& ~~~m = 0) (y : Byte) : (y &&& x) &&& ~~~m = 0 := by
  rw [BitVec.and_assoc, h]; simp

theorem byte_or_and_not {x y m : Byte} (hx : x &&& ~~~m = 0) (hy : y &&& ~~~m = 0) : (x ||| y) &&& ~~~m = 0 := by
  ext i hi
  have h1 := congrArg (·[i]) hx
  have h2 := congrArg (·[i]) hy
  simp at h1 h2 ⊢
  grind

/-- A register none of whose bits is drawn takes its fixed reset value. -/
theorem resetValue_fixed {c : Chip} {a : Nat} (h : (c.info a).drawn = 0) (d : Byte) :
    c.resetValue a d = (c.info a).fixed := by
  simp [Chip.resetValue, h]

theorem resetValue_implemented {a : Nat} (h : a < 0x80) (d : Byte) :
    Chip.standard.resetValue a d &&& ~~~Chip.standard.impl a = 0 := by
  obtain ⟨-, hf, hd⟩ := regInfo_masks h
  unfold Chip.resetValue
  dsimp only
  split
  · exact hf
  · exact byte_or_and_not hf (byte_and_not_of_and hd d)

theorem maskedWrite_implemented {a : Nat} (h : a < 0x80) {old : Byte} (ho : old &&& ~~~Chip.standard.impl a = 0)
    (v : Byte) : maskedWrite (Chip.standard.wmask a) old v &&& ~~~Chip.standard.impl a = 0 := by
  unfold maskedWrite
  refine byte_or_and_not ?_ (byte_and_not_of_and (regInfo_masks h).1 v)
  rw [BitVec.and_comm old, BitVec.and_assoc, ho]; simp

theorem byte_and_and_not (d m : Byte) : d &&& m &&& ~~~m = 0 := by
  rw [BitVec.and_assoc]; simp

end Sys2Proof.Machine
end

