-- ==== Sys2Proof/Laws/Engine.lean ====
section
/-! SUPPORT. ENGINE's laws: what a store, a WRITE, a BITMOD and a whole transaction do to registers, and that they
touch nothing of HOST. -/

namespace Sys2Proof.Machine

variable (s : State)

/-! ## What stores leave alone -/

@[simp] theorem State.storeReg_status (a : Nat) (v : Byte) : (s.storeReg a v).status = s.status := by
  unfold State.storeReg; split
  · split <;> rfl
  · rfl

@[simp] theorem State.storeReg_config (a : Nat) (v : Byte) : (s.storeReg a v).config = s.config := by
  unfold State.storeReg; split
  · split <;> rfl
  · rfl

@[simp] theorem State.storeReg_running (a : Nat) (v : Byte) : (s.storeReg a v).running = s.running := by
  unfold State.storeReg; split
  · split <;> rfl
  · rfl

@[simp] theorem State.storeReg_params (a : Nat) (v : Byte) : (s.storeReg a v).params = s.params := by
  unfold State.storeReg; split
  · split <;> rfl
  · rfl

@[simp] theorem State.storeReg_chip (a : Nat) (v : Byte) : (s.storeReg a v).chip = s.chip := by
  unfold State.storeReg; split
  · split <;> rfl
  · rfl

@[simp] theorem State.storeReg_sched (a : Nat) (v : Byte) : (s.storeReg a v).sched = s.sched := by
  unfold State.storeReg; split
  · split <;> rfl
  · rfl

@[simp] theorem State.storeReg_inbox (a : Nat) (v : Byte) : (s.storeReg a v).inbox = s.inbox := by
  unfold State.storeReg; split
  · split <;> rfl
  · rfl

@[simp] theorem State.storeReg_bus (a : Nat) (v : Byte) : (s.storeReg a v).bus = s.bus := by
  unfold State.storeReg; split
  · split <;> rfl
  · rfl

@[simp] theorem State.storeReg_result (a : Nat) (v : Byte) : (s.storeReg a v).result = s.result := by
  unfold State.storeReg; split
  · split <;> rfl
  · rfl

@[simp] theorem State.storeRegs_status (a : Nat) (ds : List Byte) : (s.storeRegs a ds).status = s.status := by
  induction ds generalizing s a with
  | nil => rfl
  | cons d ds ih => simp [State.storeRegs, ih]

@[simp] theorem State.storeRegs_config (a : Nat) (ds : List Byte) : (s.storeRegs a ds).config = s.config := by
  induction ds generalizing s a with
  | nil => rfl
  | cons d ds ih => simp [State.storeRegs, ih]

@[simp] theorem State.storeRegs_running (a : Nat) (ds : List Byte) : (s.storeRegs a ds).running = s.running := by
  induction ds generalizing s a with
  | nil => rfl
  | cons d ds ih => simp [State.storeRegs, ih]

@[simp] theorem State.storeRegs_params (a : Nat) (ds : List Byte) : (s.storeRegs a ds).params = s.params := by
  induction ds generalizing s a with
  | nil => rfl
  | cons d ds ih => simp [State.storeRegs, ih]

@[simp] theorem State.storeRegs_chip (a : Nat) (ds : List Byte) : (s.storeRegs a ds).chip = s.chip := by
  induction ds generalizing s a with
  | nil => rfl
  | cons d ds ih => simp [State.storeRegs, ih]

@[simp] theorem State.storeRegs_sched (a : Nat) (ds : List Byte) : (s.storeRegs a ds).sched = s.sched := by
  induction ds generalizing s a with
  | nil => rfl
  | cons d ds ih => simp [State.storeRegs, ih]

@[simp] theorem State.storeRegs_inbox (a : Nat) (ds : List Byte) : (s.storeRegs a ds).inbox = s.inbox := by
  induction ds generalizing s a with
  | nil => rfl
  | cons d ds ih => simp [State.storeRegs, ih]

@[simp] theorem State.storeRegs_bus (a : Nat) (ds : List Byte) : (s.storeRegs a ds).bus = s.bus := by
  induction ds generalizing s a with
  | nil => rfl
  | cons d ds ih => simp [State.storeRegs, ih]

@[simp] theorem State.storeRegs_result (a : Nat) (ds : List Byte) : (s.storeRegs a ds).result = s.result := by
  induction ds generalizing s a with
  | nil => rfl
  | cons d ds ih => simp [State.storeRegs, ih]

@[simp] theorem State.engineEffect_status (c : Command) : (s.engineEffect c).status = s.status := by
  cases c <;> simp [State.engineEffect, State.bitmodReg]

@[simp] theorem State.engineEffect_config (c : Command) : (s.engineEffect c).config = s.config := by
  cases c <;> simp [State.engineEffect, State.bitmodReg]

@[simp] theorem State.engineEffect_running (c : Command) : (s.engineEffect c).running = s.running := by
  cases c <;> simp [State.engineEffect, State.bitmodReg]

@[simp] theorem State.engineEffect_params (c : Command) : (s.engineEffect c).params = s.params := by
  cases c <;> simp [State.engineEffect, State.bitmodReg]

@[simp] theorem State.engineEffect_chip (c : Command) : (s.engineEffect c).chip = s.chip := by
  cases c <;> simp [State.engineEffect, State.bitmodReg]

@[simp] theorem State.engineEffect_sched (c : Command) : (s.engineEffect c).sched = s.sched := by
  cases c <;> simp [State.engineEffect, State.bitmodReg]

@[simp] theorem State.engineEffect_inbox (c : Command) : (s.engineEffect c).inbox = s.inbox := by
  cases c <;> simp [State.engineEffect, State.bitmodReg]

@[simp] theorem State.engineEffect_bus (c : Command) : (s.engineEffect c).bus = s.bus := by
  cases c <;> simp [State.engineEffect, State.bitmodReg]

@[simp] theorem State.engineEffect_result (c : Command) : (s.engineEffect c).result = s.result := by
  cases c <;> simp [State.engineEffect, State.bitmodReg]

/-! ## One store -/

/-- The value a store leaves in its own register (R86, R89). -/
def storedValue (s : State) (a : Nat) (v : Byte) : Byte :=
  if s.protectedNow a then
    match s.params.protectedWriteEffect with
    | .ignored => s.reg a
    | .applied => maskedWrite (s.chip.wmask a) (s.reg a) v
    | .draw => Config.freeByte s.draws &&& s.chip.impl a
  else maskedWrite (s.chip.wmask a) (s.reg a) v

/-- A store changes its own register, to `storedValue`, and no other. -/
theorem State.reg_storeReg (s : State) {a : Nat} (b : Nat) (v : Byte) (ha : a < 0x80) :
    (s.storeReg a v).reg b = if s.chip.home a = s.chip.home b then storedValue s a v else s.reg b := by
  unfold State.storeReg storedValue
  cases s.protectedNow a <;> cases s.params.protectedWriteEffect <;> simp [State.reg_putReg _ _ _ ha]
  intro h; exact (s.reg_congr h).symm

theorem State.reg_storeReg_ne (s : State) {a b : Nat} (v : Byte) (h : s.chip.home a ≠ s.chip.home b) :
    (s.storeReg a v).reg b = s.reg b := by
  unfold State.storeReg
  cases s.protectedNow a <;> cases s.params.protectedWriteEffect <;> simp [State.reg_putReg_ne _ _ h]

/-- Where the register is not protected now, a store follows the write rule (R86). -/
theorem storedValue_unprotected {s : State} {a : Nat} (v : Byte) (h : s.protectedNow a = false) :
    storedValue s a v = maskedWrite (s.chip.wmask a) (s.reg a) v := by simp [storedValue, h]

/-- A register whose bits no write changes keeps its value (R86). -/
theorem maskedWrite_readOnly {m : Byte} (h : m = 0) (old v : Byte) : maskedWrite m old v = old := by
  simpa [maskedWrite, h] using BitVec.and_allOnes (x := old)

/-- No store changes CANSTAT (R40), on the chip with the spec's constants. -/
theorem State.reg_canstat_storeReg {s : State} (hs : s.standard) (a : Nat) (v : Byte) :
    (s.storeReg a v).reg CANSTAT = s.reg CANSTAT := by
  by_cases ha : a < 0x80
  · rw [s.reg_storeReg _ v ha]
    split
    · next h =>
      rw [hs] at h
      have e : Chip.standard.info a = Chip.standard.info CANSTAT := by
        rw [← info_slotOf ha, ← info_slotOf (a := CANSTAT) (by decide)]; exact congrArg _ h
      have hw : s.chip.wmask a = 0 := by rw [hs]; unfold Chip.wmask; rw [e]; decide
      have hp : s.chip.configProtected a = false := by rw [hs]; unfold Chip.configProtected; rw [e]; decide
      rw [storedValue_unprotected v (by simp [State.protectedNow, hp]), maskedWrite_readOnly hw]
      exact s.reg_congr (by rw [hs]; exact h)
    · rfl
  · refine s.reg_storeReg_ne v ?_
    rw [hs]; exact slotOf_ne_of_ge (by omega) (by decide)

/-- The registers that hold the mode (R40, R41), at R36's addresses. -/
theorem State.opmod_eq {s : State} (hs : s.standard) : s.opmod = opmodOf (s.reg CANSTAT) := by
  unfold State.opmod; rw [hs]; rfl

theorem State.reqop_eq {s : State} (hs : s.standard) : s.reqop = fieldAt 5 (s.reg CANCTRL) := by
  unfold State.reqop; rw [hs]; rfl

/-- A state with the same chip is standard too. -/
theorem State.standard.of_chip {s t : State} (hs : s.standard) (h : t.chip = s.chip) : t.standard := h.trans hs

theorem State.opmod_storeReg {s : State} (hs : s.standard) (a : Nat) (v : Byte) : (s.storeReg a v).opmod = s.opmod := by
  rw [State.opmod_eq hs, State.opmod_eq (hs.of_chip (by simp)), State.reg_canstat_storeReg hs]

/-! ## WRITE -/

theorem State.reg_canstat_storeRegs {s : State} (hs : s.standard) (a : Nat) (ds : List Byte) :
    (s.storeRegs a ds).reg CANSTAT = s.reg CANSTAT := by
  induction ds generalizing s a with
  | nil => rfl
  | cons d ds ih => rw [State.storeRegs, ih (hs.of_chip (by simp)), State.reg_canstat_storeReg hs]

/-- A WRITE leaves every register it does not name as it was. -/
theorem State.reg_storeRegs_ne (s : State) {a b : Nat} (ds : List Byte)
    (h : ∀ i, i < ds.length → s.chip.home (a + i) ≠ s.chip.home b) : (s.storeRegs a ds).reg b = s.reg b := by
  induction ds generalizing s a with
  | nil => rfl
  | cons d ds ih =>
    rw [State.storeRegs, ih _ (fun i hi => by have := h (i + 1) (by simpa using hi); rwa [State.storeReg_chip, show a + 1 + i = a + (i + 1) by omega])]
    exact s.reg_storeReg_ne d (h 0 (by simp))

theorem State.storeRegs_append (s : State) (a : Nat) (ds es : List Byte) :
    s.storeRegs a (ds ++ es) = (s.storeRegs a ds).storeRegs (a + ds.length) es := by
  induction ds generalizing s a with
  | nil => rfl
  | cons d ds ih => simp [State.storeRegs, ih, Nat.add_assoc, Nat.add_comm 1]

/-- Data byte i of a WRITE goes to register a + i (R83), by the store rule, unless a later byte of the same WRITE goes
to a mirror of it. -/
theorem State.reg_storeRegs_at (s : State) {a i : Nat} (ds : List Byte) (hi : i < ds.length) (ha : a + i < 0x80)
    (h : ∀ j, i < j → j < ds.length → s.chip.home (a + j) ≠ s.chip.home (a + i)) :
    (s.storeRegs a ds).reg (a + i) = storedValue (s.storeRegs a (ds.take i)) (a + i) ds[i] := by
  have e : ds = ds.take i ++ ds[i] :: ds.drop (i + 1) := by simp
  conv_lhs => rw [e]
  rw [State.storeRegs_append, State.storeRegs, List.length_take, Nat.min_eq_left (by omega), State.reg_storeRegs_ne,
    State.reg_storeReg _ _ _ ha]
  · simp
  · intro k hk
    have := h (i + 1 + k) (by omega) (by simp at hk; omega)
    rwa [State.storeReg_chip, State.storeRegs_chip, show a + i + 1 + k = a + (i + 1 + k) by omega]

/-! ## A whole transaction -/

/-- Only RESET changes CANSTAT (R40, R55). -/
theorem State.reg_canstat_engineEffect {s : State} (hs : s.standard) {c : Command} (h : c ≠ .reset) :
    (s.engineEffect c).reg CANSTAT = s.reg CANSTAT := by
  cases c with
  | reset => exact absurd rfl h
  | read _ _ => rfl
  | write a ds => exact State.reg_canstat_storeRegs hs _ ds
  | bitmod a m v => exact State.reg_canstat_storeReg hs _ _
  | rdstatus => rfl

theorem State.engine_fst (c : Command) :
    (s.engine c).1 = freeBytes (s.engineEffect c).draws (fillerLength c) ++ s.engineResponse c := rfl

theorem State.engine_snd (c : Command) : (s.engine c).2 = (s.engineEffect c).drew (fillerLength c) := rfl

@[simp] theorem length_freeBytes (d k : Nat) : (freeBytes d k).length = k := by simp [freeBytes]

@[simp] theorem State.length_readRegs (a n : Nat) : (s.readRegs a n).length = n := by simp [State.readRegs]

/-- The response bytes stand after the bytes of no meaning (R112). -/
theorem State.engine_response (c : Command) : (s.engine c).1.drop (fillerLength c) = s.engineResponse c := by
  simp [State.engine_fst]

/-- Response byte i of a READ comes from register a + i (R83, R87). -/
theorem State.getD_readRegs {a n i : Nat} (h : i < n) : (s.readRegs a n).getD i 0 = s.readReg (a + i) := by
  simp [State.readRegs, h]

/-! ## States that look the same to ENGINE -/

/-- s and t look the same to ENGINE: registers, parameters, free values taken. -/
structure sameEngine (s t : State) : Prop where
  regs   : s.regs = t.regs
  params : s.params = t.params
  draws  : s.draws = t.draws

theorem sameEngine.chip {s t : State} (h : sameEngine s t) : s.chip = t.chip := congrArg ChipParams.chip h.params

theorem sameEngine.reg {s t : State} (h : sameEngine s t) (a : Nat) : s.reg a = t.reg a :=
  State.reg_of_regs h.chip h.regs a

theorem sameEngine.putReg {s t : State} (h : sameEngine s t) (a : Nat) (v : Byte) :
    sameEngine (s.putReg a v) (t.putReg a v) :=
  ⟨by rw [State.putReg_regs, State.putReg_regs, h.chip, h.regs], h.params, h.draws⟩

theorem sameEngine.drew {s t : State} (h : sameEngine s t) (k : Nat) : sameEngine (s.drew k) (t.drew k) :=
  ⟨h.regs, h.params, by rw [State.drew_draws, State.drew_draws, h.draws]⟩

theorem sameEngine.storeReg {s t : State} (h : sameEngine s t) (a : Nat) (v : Byte) :
    sameEngine (s.storeReg a v) (t.storeReg a v) := by
  have hp : s.protectedNow a = t.protectedNow a := by
    unfold State.protectedNow State.opmod; rw [h.reg, h.chip]
  unfold State.storeReg
  rw [hp, h.params, h.reg, h.draws, h.chip]
  split
  · split
    · exact h
    · exact h.putReg _ _
    · exact (h.putReg _ _).drew 1
  · exact h.putReg _ _

theorem sameEngine.storeRegs {s t : State} (h : sameEngine s t) (a : Nat) (ds : List Byte) :
    sameEngine (s.storeRegs a ds) (t.storeRegs a ds) := by
  induction ds generalizing s t a with
  | nil => exact h
  | cons d ds ih => exact ih (h.storeReg a d) (a + 1)

theorem sameEngine.bitmodReg {s t : State} (h : sameEngine s t) (a : Nat) (m v : Byte) :
    sameEngine (s.bitmodReg a m v) (t.bitmodReg a m v) := by
  unfold State.bitmodReg
  rw [h.reg, h.chip]; exact h.storeReg _ _

/-- A transaction's effect is the same in states that look the same to ENGINE. -/
theorem sameEngine.engineEffect {s t : State} (h : sameEngine s t) (c : Command) :
    sameEngine (s.engineEffect c) (t.engineEffect c) := by
  cases c with
  | reset =>
    refine ⟨?_, by simpa using h.params, ?_⟩
    · simp only [State.engineEffect, State.resetRegisters_regs]; rw [h.draws, h.chip]
    · simp only [State.engineEffect, State.resetRegisters_draws]; rw [h.draws]
  | read _ _ => exact h
  | write a ds => exact h.storeRegs _ ds
  | bitmod a m v => exact h.bitmodReg _ m v
  | rdstatus => exact h

/-! ## The invariant under ENGINE, on the chip with the spec's constants -/

theorem State.implementedOnly_putReg {s : State} (hc : s.standard) (hs : s.implementedOnly) {a : Nat} {v : Byte}
    (hv : a < 0x80 → v &&& ~~~Chip.standard.impl a = 0) : (s.putReg a v).implementedOnly := by
  intro b hb
  rw [State.putReg_chip, hc]
  have hs' : s.reg b &&& ~~~Chip.standard.impl b = 0 := by rw [← hc]; exact hs b hb
  by_cases ha : a < 0x80
  · rw [s.reg_putReg b v ha, hc]
    split
    · next h => rw [← impl_congr ha hb h]; exact hv ha
    · exact hs'
  · rw [s.reg_putReg_ne v (by rw [hc]; exact slotOf_ne_of_ge (by omega) hb)]; exact hs'

theorem State.implementedOnly_storeReg {s : State} (hc : s.standard) (hs : s.implementedOnly) (a : Nat) (v : Byte) :
    (s.storeReg a v).implementedOnly := by
  unfold State.storeReg
  have hm : (s.putReg a (maskedWrite (s.chip.wmask a) (s.reg a) v)).implementedOnly :=
    State.implementedOnly_putReg hc hs fun ha => by
      rw [hc]; exact maskedWrite_implemented ha (by rw [← hc]; exact hs a ha) v
  split
  · split
    · exact hs
    · exact hm
    · exact State.implementedOnly_putReg hc hs fun _ => by rw [hc]; exact byte_and_and_not _ _
  · exact hm

theorem State.implementedOnly_storeRegs {s : State} (hc : s.standard) (hs : s.implementedOnly) (a : Nat)
    (ds : List Byte) : (s.storeRegs a ds).implementedOnly := by
  induction ds generalizing s a with
  | nil => exact hs
  | cons d ds ih => exact ih (hc.of_chip (by simp)) (State.implementedOnly_storeReg hc hs a d) (a + 1)

theorem State.implementedOnly_resetRegisters {s : State} (hc : s.standard) : s.resetRegisters.implementedOnly := by
  intro a ha
  rw [State.reg_resetRegisters hc ha, State.resetRegisters_chip, hc]; exact resetValue_implemented ha _

theorem State.implementedOnly_engineEffect {s : State} (hc : s.standard) (hs : s.implementedOnly) (c : Command) :
    (s.engineEffect c).implementedOnly := by
  cases c with
  | reset => exact State.implementedOnly_resetRegisters hc
  | read _ _ => exact hs
  | write a ds => exact State.implementedOnly_storeRegs hc hs _ ds
  | bitmod a m v => exact State.implementedOnly_storeReg hc hs _ _
  | rdstatus => exact hs

/-- After RESET the mode in effect is Configure (R301). -/
theorem State.opmod_resetRegisters {s : State} (hs : s.standard) : s.resetRegisters.opmod = 4 := by
  rw [State.opmod_eq (hs.of_chip (by simp)), State.reg_resetRegisters hs (by decide), resetValue_fixed (by decide)]
  decide

theorem State.modeLegal_engineEffect {s : State} (hc : s.standard) (hs : s.modeLegal) (c : Command) :
    (s.engineEffect c).modeLegal := by
  unfold State.modeLegal at *
  by_cases h : c = .reset
  · subst h
    rw [show s.engineEffect .reset = s.resetRegisters from rfl, State.opmod_resetRegisters hc]; decide
  · rw [State.opmod_eq (hc.of_chip (by simp)), State.reg_canstat_engineEffect hc h, ← State.opmod_eq hc]; exact hs

/-! ## A failed exchange -/

@[simp] theorem State.failedEffect_status (s : State) (c : Command) (e : XferEnd) :
    (s.failedEffect c e).status = s.status := by
  cases e <;> cases c <;> simp [State.failedEffect]

@[simp] theorem State.failedEffect_config (s : State) (c : Command) (e : XferEnd) :
    (s.failedEffect c e).config = s.config := by
  cases e <;> cases c <;> simp [State.failedEffect]

@[simp] theorem State.failedEffect_running (s : State) (c : Command) (e : XferEnd) :
    (s.failedEffect c e).running = s.running := by
  cases e <;> cases c <;> simp [State.failedEffect]

@[simp] theorem State.failedEffect_params (s : State) (c : Command) (e : XferEnd) :
    (s.failedEffect c e).params = s.params := by
  cases e <;> cases c <;> simp [State.failedEffect]

@[simp] theorem State.failedEffect_chip (s : State) (c : Command) (e : XferEnd) :
    (s.failedEffect c e).chip = s.chip := by
  cases e <;> cases c <;> simp [State.failedEffect]

@[simp] theorem State.failedEffect_sched (s : State) (c : Command) (e : XferEnd) :
    (s.failedEffect c e).sched = s.sched := by
  cases e <;> cases c <;> simp [State.failedEffect]

@[simp] theorem State.failedEffect_inbox (s : State) (c : Command) (e : XferEnd) :
    (s.failedEffect c e).inbox = s.inbox := by
  cases e <;> cases c <;> simp [State.failedEffect]

@[simp] theorem State.failedEffect_bus (s : State) (c : Command) (e : XferEnd) :
    (s.failedEffect c e).bus = s.bus := by
  cases e <;> cases c <;> simp [State.failedEffect]

@[simp] theorem State.failedEffect_result (s : State) (c : Command) (e : XferEnd) :
    (s.failedEffect c e).result = s.result := by
  cases e <;> cases c <;> simp [State.failedEffect]

/-- What a failed exchange leaves (R161): what the whole transaction, a shorter WRITE, or nothing leaves. -/
theorem State.failedEffect_cases (s : State) (c : Command) (e : XferEnd) :
    s.failedEffect c e = s ∨ s.failedEffect c e = s.engineEffect c ∨
      ∃ a ds k, c = .write a ds ∧ s.failedEffect c e = s.engineEffect (.write a (ds.take k)) := by
  cases e with
  | completes => exact .inl rfl
  | failsUnchanged => exact .inl rfl
  | failsApplied => exact .inr (.inl rfl)
  | failsAfter k =>
    cases c with
    | write a ds => exact .inr (.inr ⟨a, ds, k, rfl, rfl⟩)
    | reset => exact .inl rfl
    | read _ _ => exact .inl rfl
    | bitmod _ _ _ => exact .inl rfl
    | rdstatus => exact .inl rfl

end Sys2Proof.Machine
end

