-- ==== Sys2Proof/Laws/CanSide.lean ====
section
/-! SUPPORT. CANSIDE's laws: its effects touch the register file only, which registers each may touch, what they never
do (R61), and the invariant under them. -/

namespace Sys2Proof.Machine

/-! ## CANSIDE touches registers only -/

/-- t differs from s in the register file at most. -/
def regsOnly (s t : State) : Prop := t = s.setRegs t.regs

theorem regsOnly_refl (s : State) : regsOnly s s := rfl

theorem regsOnly_putReg (s : State) (a : Nat) (v : Byte) : regsOnly s (s.putReg a v) := rfl

theorem regsOnly_trans {s t u : State} (h : regsOnly s t) (k : regsOnly t u) : regsOnly s u := by
  unfold regsOnly at *; rw [k, h]; rfl

theorem regsOnly_loadRegs (s : State) (as : List Nat) (ds : List Byte) : regsOnly s (s.loadRegs as ds) := by
  induction as generalizing s ds with
  | nil => exact regsOnly_refl s
  | cons a as ih =>
    cases ds with
    | nil => exact regsOnly_refl s
    | cons d ds => exact regsOnly_trans (regsOnly_putReg s a _) (ih _ _)

theorem regsOnly_putIcod (s : State) (i : Option (BitVec 3)) : regsOnly s (s.putIcod i) := by
  cases i
  · exact regsOnly_refl s
  · exact regsOnly_putReg s _ _

theorem regsOnly_pinRequest (s : State) (e r : Byte) (n : Nat) : regsOnly s (s.pinRequest e r n) := by
  unfold State.pinRequest; split
  · exact regsOnly_putReg s _ _
  · exact regsOnly_refl s

theorem regsOnly_canEffect (s : State) (e : CanStep) : regsOnly s (s.canEffect e) := by
  cases e with
  | receive n values ctrl =>
    exact regsOnly_trans (regsOnly_trans (regsOnly_loadRegs s _ _) (regsOnly_putReg _ _ _)) (regsOnly_putReg _ _ _)
  | overflow n => exact regsOnly_putReg s _ _
  | transmitDone n => exact regsOnly_trans (regsOnly_putReg s _ _) (regsOnly_putReg _ _ _)
  | transmitError n status flags clearRequest =>
    have h := regsOnly_trans
      (regsOnly_putReg s (s.chip.txb n).CTRL (s.reg (s.chip.txb n).CTRL ||| (status &&& outcomeBits s.chip)))
      (regsOnly_putReg _ s.chip.addr.CANINTF ((s.setBits (s.chip.txb n).CTRL (status &&& outcomeBits
        s.chip)).reg s.chip.addr.CANINTF ||| (flags &&& (errIF s.chip ||| merrF s.chip))))
    cases clearRequest
    · exact h
    · exact regsOnly_trans h (regsOnly_putReg _ _ _)
  | errorUpdate tec rec eflg flags => rfl
  | applyMode icod => exact regsOnly_trans (regsOnly_putReg s _ _) (regsOnly_putIcod _ icod)
  | wakeUp icod =>
    exact regsOnly_trans (regsOnly_trans (regsOnly_putReg s _ _) (regsOnly_putReg _ _ _)) (regsOnly_putIcod _ icod)
  | pins levels requests =>
    exact regsOnly_trans (regsOnly_trans (regsOnly_trans (regsOnly_putReg s _ _) (regsOnly_pinRequest _ _ _ _))
      (regsOnly_pinRequest _ _ _ _)) (regsOnly_pinRequest _ _ _ _)

theorem regsOnly_canStep (s : State) (e : CanStep) : regsOnly s (s.canStep e) := by
  unfold State.canStep; split
  · exact regsOnly_canEffect s e
  · exact regsOnly_refl s

theorem regsOnly_canSteps (s : State) (es : List CanStep) : regsOnly s (s.canSteps es) := by
  induction es generalizing s with
  | nil => exact regsOnly_refl s
  | cons e es ih => exact regsOnly_trans (regsOnly_canStep s e) (ih _)

variable (s : State)

@[simp] theorem State.canStep_status (e : CanStep) : (s.canStep e).status = s.status := by
  rw [regsOnly_canStep s e]; rfl

@[simp] theorem State.canStep_config (e : CanStep) : (s.canStep e).config = s.config := by
  rw [regsOnly_canStep s e]; rfl

@[simp] theorem State.canStep_running (e : CanStep) : (s.canStep e).running = s.running := by
  rw [regsOnly_canStep s e]; rfl

@[simp] theorem State.canStep_params (e : CanStep) : (s.canStep e).params = s.params := by
  rw [regsOnly_canStep s e]; rfl

@[simp] theorem State.canStep_chip (e : CanStep) : (s.canStep e).chip = s.chip := by
  rw [regsOnly_canStep s e]; rfl

@[simp] theorem State.canStep_sched (e : CanStep) : (s.canStep e).sched = s.sched := by
  rw [regsOnly_canStep s e]; rfl

@[simp] theorem State.canStep_inbox (e : CanStep) : (s.canStep e).inbox = s.inbox := by
  rw [regsOnly_canStep s e]; rfl

@[simp] theorem State.canStep_bus (e : CanStep) : (s.canStep e).bus = s.bus := by
  rw [regsOnly_canStep s e]; rfl

@[simp] theorem State.canStep_result (e : CanStep) : (s.canStep e).result = s.result := by
  rw [regsOnly_canStep s e]; rfl

@[simp] theorem State.canStep_draws (e : CanStep) : (s.canStep e).draws = s.draws := by
  rw [regsOnly_canStep s e]; rfl

@[simp] theorem State.canSteps_status (es : List CanStep) : (s.canSteps es).status = s.status := by
  rw [regsOnly_canSteps s es]; rfl

@[simp] theorem State.canSteps_config (es : List CanStep) : (s.canSteps es).config = s.config := by
  rw [regsOnly_canSteps s es]; rfl

@[simp] theorem State.canSteps_running (es : List CanStep) : (s.canSteps es).running = s.running := by
  rw [regsOnly_canSteps s es]; rfl

@[simp] theorem State.canSteps_params (es : List CanStep) : (s.canSteps es).params = s.params := by
  rw [regsOnly_canSteps s es]; rfl

@[simp] theorem State.canSteps_chip (es : List CanStep) : (s.canSteps es).chip = s.chip := by
  rw [regsOnly_canSteps s es]; rfl

@[simp] theorem State.canSteps_sched (es : List CanStep) : (s.canSteps es).sched = s.sched := by
  rw [regsOnly_canSteps s es]; rfl

@[simp] theorem State.canSteps_inbox (es : List CanStep) : (s.canSteps es).inbox = s.inbox := by
  rw [regsOnly_canSteps s es]; rfl

@[simp] theorem State.canSteps_bus (es : List CanStep) : (s.canSteps es).bus = s.bus := by
  rw [regsOnly_canSteps s es]; rfl

@[simp] theorem State.canSteps_result (es : List CanStep) : (s.canSteps es).result = s.result := by
  rw [regsOnly_canSteps s es]; rfl

@[simp] theorem State.canSteps_draws (es : List CanStep) : (s.canSteps es).draws = s.draws := by
  rw [regsOnly_canSteps s es]; rfl

/-- s and t look the same to CANSIDE: the chip's constants and the register file. -/
structure sameFile (s t : State) : Prop where
  chip : s.chip = t.chip
  regs : s.regs = t.regs

theorem sameFile.reg {s t : State} (h : sameFile s t) (a : Nat) : s.reg a = t.reg a := State.reg_of_regs h.chip h.regs a

theorem sameFile.putReg {s t : State} (h : sameFile s t) (a : Nat) (v : Byte) : sameFile (s.putReg a v) (t.putReg a v) :=
  ⟨h.chip, by rw [State.putReg_regs, State.putReg_regs, h.chip, h.regs]⟩

theorem sameFile.setBits {s t : State} (h : sameFile s t) (a : Nat) (m : Byte) : sameFile (s.setBits a m) (t.setBits a m) := by
  unfold State.setBits; rw [h.reg]; exact h.putReg _ _

theorem sameFile.clearBits {s t : State} (h : sameFile s t) (a : Nat) (m : Byte) :
    sameFile (s.clearBits a m) (t.clearBits a m) := by
  unfold State.clearBits; rw [h.reg]; exact h.putReg _ _

theorem sameFile.putBits {s t : State} (h : sameFile s t) (a : Nat) (m v : Byte) :
    sameFile (s.putBits a m v) (t.putBits a m v) := by
  unfold State.putBits; rw [h.reg]; exact h.putReg _ _

theorem sameFile.loadRegs {s t : State} (h : sameFile s t) (as : List Nat) (ds : List Byte) :
    sameFile (s.loadRegs as ds) (t.loadRegs as ds) := by
  induction as generalizing s t ds with
  | nil => exact h
  | cons a as ih =>
    cases ds with
    | nil => exact h
    | cons d ds => rw [State.loadRegs, State.loadRegs, h.chip]; exact ih (h.putReg _ _) _

theorem sameFile.putOpmod {s t : State} (h : sameFile s t) (m : BitVec 3) : sameFile (s.putOpmod m) (t.putOpmod m) := by
  unfold State.putOpmod; rw [h.chip]; exact h.putBits _ _ _

theorem sameFile.putIcod {s t : State} (h : sameFile s t) (i : Option (BitVec 3)) : sameFile (s.putIcod i) (t.putIcod i) := by
  cases i
  · exact h
  · rw [State.putIcod, State.putIcod, h.chip]; exact h.putBits _ _ _

theorem sameFile.pinRequest {s t : State} (h : sameFile s t) (e r : Byte) (n : Nat) :
    sameFile (s.pinRequest e r n) (t.pinRequest e r n) := by
  unfold State.pinRequest; rw [h.chip]; split
  · exact h.setBits _ _
  · exact h

/-- What CANSIDE does to registers depends on what it sees alone. -/
theorem sameFile.canStep {s t : State} (h : sameFile s t) (e : CanStep) : sameFile (s.canStep e) (t.canStep e) := by
  have ha : s.admitsCanStep e = t.admitsCanStep e := by
    cases e <;> simp only [State.admitsCanStep, State.rxFlag, State.txRequested, State.reqop, State.opmod] <;>
      first | rfl | (simp only [h.chip, h.reg]; done) | (simp only [h.chip, h.reg]; rfl)
  unfold State.canStep
  rw [ha]; split
  case isFalse => exact h
  cases e with
  | receive n values ctrl =>
    simp only [State.canEffect, h.chip]; exact ((h.loadRegs _ _).putBits _ _ _).setBits _ _
  | overflow n => simp only [State.canEffect, h.chip]; exact h.setBits _ _
  | transmitDone n => simp only [State.canEffect, h.chip]; exact (h.clearBits _ _).setBits _ _
  | transmitError n status flags clearRequest =>
    simp only [State.canEffect, h.chip]
    cases clearRequest
    · exact (h.setBits _ _).setBits _ _
    · exact ((h.setBits _ _).setBits _ _).clearBits _ _
  | errorUpdate tec rec eflg flags =>
    simp only [State.canEffect, h.chip]
    exact ((((h.putReg _ _).putReg _ _).putBits _ _ _).setBits _ _).setBits _ _
  | applyMode icod =>
    have : s.reqop = t.reqop := by unfold State.reqop; rw [h.chip, h.reg]
    simp only [State.canEffect, this]; exact (h.putOpmod _).putIcod _
  | wakeUp icod => simp only [State.canEffect, h.chip]; exact ((h.putOpmod _).setBits _ _).putIcod _
  | pins levels requests =>
    simp only [State.canEffect, h.chip, h.reg]
    exact (((h.putBits _ _ _).pinRequest _ _ _).pinRequest _ _ _).pinRequest _ _ _

theorem sameFile.canSteps {s t : State} (h : sameFile s t) (es : List CanStep) :
    sameFile (s.canSteps es) (t.canSteps es) := by
  induction es generalizing s t with
  | nil => exact h
  | cons e es ih => exact ih (h.canStep e)

/-! ## Which registers -/

@[simp] theorem State.reg_setRegs (s : State) (r : RegFile) (b : Nat) : (s.setRegs r).reg b = regGet s.chip r b := rfl

theorem State.reg_loadRegs_ne (s : State) {as : List Nat} {b : Nat} (ds : List Byte)
    (h : ∀ a ∈ as, s.chip.home a ≠ s.chip.home b) : (s.loadRegs as ds).reg b = s.reg b := by
  induction as generalizing s ds with
  | nil => rfl
  | cons a as ih =>
    cases ds with
    | nil => rfl
    | cons d ds =>
      exact (ih (s.putReg a _) ds fun x hx => h x (List.mem_cons_of_mem _ hx)).trans
        (s.reg_putReg_ne _ (h a (List.mem_cons_self ..)))

theorem State.reg_loadRegs_at (s : State) {as : List Nat} {i : Nat} (ds : List Byte) (hi : i < as.length)
    (hd : i < ds.length) (ha : as[i] < 0x80) (h : as.Pairwise fun a b => s.chip.home a ≠ s.chip.home b) :
    (s.loadRegs as ds).reg as[i] = ds[i] &&& s.chip.impl as[i] := by
  induction as generalizing s ds i with
  | nil => simp at hi
  | cons a as ih =>
    obtain ⟨h1, h2⟩ := List.pairwise_cons.1 h
    cases ds with
    | nil => simp at hd
    | cons d ds =>
      cases i with
      | zero =>
        exact ((s.putReg a (d &&& s.chip.impl a)).reg_loadRegs_ne ds fun x hx => (h1 x hx).symm).trans
          (s.reg_putReg_same _ ha)
      | succ i => exact ih (s.putReg a (d &&& s.chip.impl a)) ds (by simpa using hi) (by simpa using hd) ha h2

/-- The addresses a CANSIDE effect may write (R60). -/
def canTouched (c : Chip) : CanStep → List Nat
  | .receive n _ _ => c.addr.CANINTF :: (c.rxb n).CTRL :: (c.rxb n).frame
  | .overflow _ => [c.addr.EFLG]
  | .transmitDone n => [(c.txb n).CTRL, c.addr.CANINTF]
  | .transmitError n _ _ _ => [(c.txb n).CTRL, c.addr.CANINTF]
  | .errorUpdate _ _ _ _ => [c.addr.TEC, c.addr.REC, c.addr.EFLG, c.addr.CANINTF]
  | .applyMode _ => [c.addr.CANSTAT]
  | .wakeUp _ => [c.addr.CANSTAT, c.addr.CANINTF]
  | .pins _ _ => [c.addr.TXRTSCTRL, (c.txb 0).CTRL, (c.txb 1).CTRL, (c.txb 2).CTRL]

@[simp] theorem State.setBits_chip (s : State) (a : Nat) (m : Byte) : (s.setBits a m).chip = s.chip := rfl
@[simp] theorem State.clearBits_chip (s : State) (a : Nat) (m : Byte) : (s.clearBits a m).chip = s.chip := rfl
@[simp] theorem State.putBits_chip (s : State) (a : Nat) (m v : Byte) : (s.putBits a m v).chip = s.chip := rfl
@[simp] theorem State.putOpmod_chip (s : State) (m : BitVec 3) : (s.putOpmod m).chip = s.chip := rfl
@[simp] theorem State.putIcod_chip (s : State) (i : Option (BitVec 3)) : (s.putIcod i).chip = s.chip := by
  rw [regsOnly_putIcod s i]; rfl
@[simp] theorem State.loadRegs_chip (s : State) (as : List Nat) (ds : List Byte) : (s.loadRegs as ds).chip = s.chip := by
  rw [regsOnly_loadRegs s as ds]; rfl
@[simp] theorem State.pinRequest_chip (s : State) (e r : Byte) (n : Nat) : (s.pinRequest e r n).chip = s.chip := by
  rw [regsOnly_pinRequest s e r n]; rfl

theorem State.reg_setBits_ne (s : State) {a b : Nat} (m : Byte) (h : s.chip.home a ≠ s.chip.home b) :
    (s.setBits a m).reg b = s.reg b := s.reg_putReg_ne _ h
theorem State.reg_clearBits_ne (s : State) {a b : Nat} (m : Byte) (h : s.chip.home a ≠ s.chip.home b) :
    (s.clearBits a m).reg b = s.reg b := s.reg_putReg_ne _ h
theorem State.reg_putBits_ne (s : State) {a b : Nat} (m v : Byte) (h : s.chip.home a ≠ s.chip.home b) :
    (s.putBits a m v).reg b = s.reg b := s.reg_putReg_ne _ h

theorem State.reg_setBits_same (s : State) {a : Nat} (m : Byte) (h : a < 0x80) : (s.setBits a m).reg a = s.reg a ||| m :=
  s.reg_putReg_same _ h
theorem State.reg_clearBits_same (s : State) {a : Nat} (m : Byte) (h : a < 0x80) :
    (s.clearBits a m).reg a = s.reg a &&& ~~~m := s.reg_putReg_same _ h
theorem State.reg_putBits_same (s : State) {a : Nat} (m v : Byte) (h : a < 0x80) :
    (s.putBits a m v).reg a = (s.reg a &&& ~~~m) ||| (v &&& m) := s.reg_putReg_same _ h

theorem State.reg_pinRequest_ne (s : State) (e r : Byte) {n b : Nat}
    (h : s.chip.home (s.chip.txb n).CTRL ≠ s.chip.home b) :
    (s.pinRequest e r n).reg b = s.reg b := by
  unfold State.pinRequest; split
  · exact s.reg_setBits_ne _ h
  · rfl

theorem State.reg_putIcod_ne (s : State) (i : Option (BitVec 3)) {b : Nat}
    (h : s.chip.home s.chip.addr.CANSTAT ≠ s.chip.home b) : (s.putIcod i).reg b = s.reg b := by
  cases i
  · rfl
  · exact s.reg_putBits_ne _ _ h

/-- A CANSIDE step leaves every other register as it was. -/
theorem State.reg_canStep_ne (s : State) (e : CanStep) {b : Nat}
    (h : ∀ a ∈ canTouched s.chip e, s.chip.home a ≠ s.chip.home b) : (s.canStep e).reg b = s.reg b := by
  unfold State.canStep; split
  case isFalse => rfl
  cases e with
  | receive n values ctrl =>
    have h1 := h s.chip.addr.CANINTF (by simp [canTouched])
    have h2 := h (s.chip.rxb n).CTRL (by simp [canTouched])
    simp only [State.canEffect]
    rw [State.reg_setBits_ne _ _ (by simpa using h1), State.reg_putBits_ne _ _ _ (by simpa using h2),
      State.reg_loadRegs_ne _ _ fun a ha => h a (by simp [canTouched, ha])]
  | overflow n => exact s.reg_setBits_ne _ (h s.chip.addr.EFLG (by simp [canTouched]))
  | transmitDone n =>
    have h1 := h s.chip.addr.CANINTF (by simp [canTouched])
    have h2 := h (s.chip.txb n).CTRL (by simp [canTouched])
    simp only [State.canEffect]
    rw [State.reg_setBits_ne _ _ (by simpa using h1), State.reg_clearBits_ne _ _ h2]
  | transmitError n status flags clearRequest =>
    have h1 := h s.chip.addr.CANINTF (by simp [canTouched])
    have h2 := h (s.chip.txb n).CTRL (by simp [canTouched])
    simp only [State.canEffect]
    split
    · rw [State.reg_clearBits_ne _ _ (by simpa using h2), State.reg_setBits_ne _ _ (by simpa using h1),
        State.reg_setBits_ne _ _ h2]
    · rw [State.reg_setBits_ne _ _ (by simpa using h1), State.reg_setBits_ne _ _ h2]
  | errorUpdate tec rec eflg flags =>
    have h1 := h s.chip.addr.CANINTF (by simp [canTouched])
    have h2 := h s.chip.addr.TEC (by simp [canTouched])
    have h3 := h s.chip.addr.REC (by simp [canTouched])
    have h4 := h s.chip.addr.EFLG (by simp [canTouched])
    simp only [State.canEffect]
    rw [State.reg_setBits_ne _ _ (by simpa using h1), State.reg_setBits_ne _ _ (by simpa using h4),
      State.reg_putBits_ne _ _ _ (by simpa using h4), State.reg_putReg_ne _ _ (by simpa using h3),
      State.reg_putReg_ne _ _ h2]
  | applyMode icod =>
    have h1 := h s.chip.addr.CANSTAT (by simp [canTouched])
    rw [State.canEffect, State.reg_putIcod_ne _ _ (by simpa using h1)]
    exact s.reg_putBits_ne _ _ h1
  | wakeUp icod =>
    have h1 := h s.chip.addr.CANSTAT (by simp [canTouched])
    have h2 := h s.chip.addr.CANINTF (by simp [canTouched])
    rw [State.canEffect, State.reg_putIcod_ne _ _ (by simpa using h1), State.reg_setBits_ne _ _ (by simpa using h2)]
    exact s.reg_putBits_ne _ _ h1
  | pins levels requests =>
    have h0 := h (s.chip.txb 0).CTRL (by simp [canTouched])
    have h1 := h (s.chip.txb 1).CTRL (by simp [canTouched])
    have h2 := h (s.chip.txb 2).CTRL (by simp [canTouched])
    simp only [State.canEffect]
    rw [State.reg_pinRequest_ne _ _ _ (by simpa using h2), State.reg_pinRequest_ne _ _ _ (by simpa using h1),
      State.reg_pinRequest_ne _ _ _ (by simpa using h0)]
    exact s.reg_putBits_ne _ _ (h s.chip.addr.TXRTSCTRL (by simp [canTouched]))

/-! ## Lifting from one CANSIDE step to several -/

/-- On the chip with the spec's constants, what one CANSIDE step keeps, several keep. -/
theorem State.canSteps_induct {P : State → State → Prop} (refl : ∀ s, P s s)
    (trans : ∀ {s t u}, P s t → P t u → P s u) (step : ∀ {s : State}, s.standard → ∀ e, P s (s.canStep e)) {s : State}
    (hs : s.standard) (es : List CanStep) : P s (s.canSteps es) := by
  induction es generalizing s with
  | nil => exact refl s
  | cons e es ih => exact trans (step hs e) (ih (hs.of_chip (by simp)))

/-! ## Flags are only set -/

/-- Every bit of a that is 1 is 1 in b. -/
def bitsKept (a b : Byte) : Prop := a &&& b = a

theorem bitsKept_refl (a : Byte) : bitsKept a a := by simp [bitsKept]

theorem bitsKept_trans {a b c : Byte} (h : bitsKept a b) (k : bitsKept b c) : bitsKept a c := by
  unfold bitsKept at *; rw [← h, BitVec.and_assoc, k]

theorem bitsKept_or (a m : Byte) : bitsKept a (a ||| m) := by
  unfold bitsKept; ext i hi; simp; grind

/-- A register into which bits are set keeps the bits it had. -/
theorem State.kept_setBits {s t : State} {a : Nat} (ha : a < 0x80) (h : t.reg a = s.reg a) (m : Byte) :
    bitsKept (s.reg a) ((t.setBits a m).reg a) := by
  rw [t.reg_setBits_same m ha, h]; exact bitsKept_or _ _

/-- CANSIDE clears no interrupt flag (R54, R61). -/
theorem State.intf_canStep {s : State} (hs : s.standard) (e : CanStep) :
    bitsKept (s.reg CANINTF) ((s.canStep e).reg CANINTF) := by
  by_cases ht : ∀ a ∈ canTouched s.chip e, s.chip.home a ≠ s.chip.home CANINTF
  · rw [s.reg_canStep_ne e ht]; exact bitsKept_refl _
  · unfold State.canStep; split
    case isFalse => exact bitsKept_refl _
    have lt : CANINTF < 0x80 := by decide
    cases e with
    | receive n values ctrl =>
      simp only [State.canEffect, hs, standard_CANINTF]
      refine State.kept_setBits lt ?_ _
      have hr : ∀ a ∈ (Chip.standard.rxb n).CTRL :: (Chip.standard.rxb n).frame, slotOf a ≠ slotOf CANINTF := by
        clear ht; fin_cases n <;> decide +kernel
      rw [State.reg_putBits_ne _ _ _ (by simpa [hs] using hr _ (List.mem_cons_self ..)),
        State.reg_loadRegs_ne _ _ fun a ha => by rw [hs]; exact hr a (List.mem_cons_of_mem _ ha)]
    | overflow n => exact absurd (by rw [hs]; simp [canTouched]; decide) ht
    | transmitDone n =>
      simp only [State.canEffect, hs, standard_CANINTF]
      exact State.kept_setBits lt (State.reg_clearBits_ne _ _ (by rw [hs]; fin_cases n <;> decide)) _
    | transmitError n status flags clearRequest =>
      have hn : slotOf (Chip.standard.txb n).CTRL ≠ slotOf CANINTF := by fin_cases n <;> decide
      have := State.kept_setBits (s := s) (t := s.setBits (Chip.standard.txb n).CTRL (status &&& outcomeBits Chip.standard)) lt
        (State.reg_setBits_ne _ _ (by rw [hs]; exact hn)) (flags &&& (errIF Chip.standard ||| merrF Chip.standard))
      simp only [State.canEffect, hs, standard_CANINTF]
      cases clearRequest
      · exact this
      · simp only [if_true]
        rw [State.reg_clearBits_ne _ _ (by simpa [hs] using hn)]; exact this
    | errorUpdate tec rec eflg flags =>
      simp only [State.canEffect, hs, standard_CANINTF, standard_TEC, standard_REC, standard_EFLG]
      refine State.kept_setBits lt ?_ _
      rw [State.reg_setBits_ne _ _ (by simp [hs]; decide), State.reg_putBits_ne _ _ _ (by simp [hs]; decide),
        State.reg_putReg_ne _ _ (by simp [hs]; decide), State.reg_putReg_ne _ _ (by simp [hs]; decide)]
    | applyMode icod => exact absurd (by rw [hs]; simp [canTouched]; decide) ht
    | wakeUp icod =>
      simp only [State.canEffect, hs, standard_CANINTF]
      rw [State.reg_putIcod_ne _ _ (by simp [hs]; decide)]
      exact State.kept_setBits lt (State.reg_putBits_ne _ _ _ (by simp [hs]; decide)) _
    | pins levels requests => exact absurd (by rw [hs]; simp [canTouched]; decide) ht

theorem State.intf_canSteps {s : State} (hs : s.standard) (es : List CanStep) :
    bitsKept (s.reg CANINTF) ((s.canSteps es).reg CANINTF) :=
  State.canSteps_induct (P := fun s t => bitsKept (s.reg CANINTF) (t.reg CANINTF)) (fun _ => bitsKept_refl _)
    bitsKept_trans State.intf_canStep hs es

theorem bne_zero_of_bitsKept {a b m : Byte} (h : bitsKept a b) (ha : (a &&& m != 0) = true) : (b &&& m != 0) = true := by
  simp only [bne_iff_ne, ne_eq] at ha ⊢
  intro hb
  apply ha
  unfold bitsKept at h
  rw [← h, BitVec.and_assoc, hb]; simp

/-! ## The lock of a full receive buffer (R56) -/

theorem State.rxFlag_eq {s : State} (hs : s.standard) {n : Nat} (hn : n < 2) :
    s.rxFlag n = (s.reg CANINTF &&& (1#8 <<< n) != 0) := by
  unfold State.rxFlag; rw [hs, standard_CANINTF, rxIF_standard hn]

/-- A state in which no interrupt flag was cleared leaves a locked receive buffer locked. -/
theorem State.rxFlag_of_kept {s t : State} (hs : s.standard) (ht : t.standard) {n : Nat}
    (h : bitsKept (s.reg CANINTF) (t.reg CANINTF)) (hf : s.rxFlag n = true) : t.rxFlag n = true := by
  unfold State.rxFlag at *
  rw [hs] at hf; rw [ht]
  exact bne_zero_of_bitsKept h hf

/-- A CANSIDE step leaves a locked receive buffer locked. -/
theorem State.rxFlag_canStep {s : State} (hs : s.standard) {n : Nat} (h : s.rxFlag n = true) (e : CanStep) :
    (s.canStep e).rxFlag n = true := State.rxFlag_of_kept hs (hs.of_chip (by simp)) (State.intf_canStep hs e) h

theorem State.rxFlag_canSteps {s : State} (hs : s.standard) {n : Nat} (h : s.rxFlag n = true) (es : List CanStep) :
    (s.canSteps es).rxFlag n = true := State.rxFlag_of_kept hs (hs.of_chip (by simp)) (State.intf_canSteps hs es) h

/-- Every address some CANSIDE effect may write, receive buffer n apart, on the chip with the spec's constants. -/
def canTouchedOutside (n : Nat) : List Nat :=
  [TXRTSCTRL, CANSTAT, CANINTF, EFLG, TEC, REC, txb 0, txb 1, txb 2] ++ (List.range 14).map (rxb (1 - n) + ·)

theorem canTouched_outside {n : Nat} (hn : n < 2) {e : CanStep} (h : ∀ v c, e ≠ .receive ⟨n, hn⟩ v c) {a : Nat}
    (ha : a ∈ canTouched Chip.standard e) : a ∈ canTouchedOutside n := by
  cases e with
  | receive m v c =>
    have hm : m.val = 1 - n := by
      have : m.val ≠ n := by rintro rfl; exact h v c rfl
      omega
    simp only [canTouched, hm, standard_CANINTF, rxb_standard (show 1 - n < 2 by omega)] at ha
    simp only [canTouchedOutside, List.mem_append]
    rcases List.mem_cons.1 ha with rfl | ha
    · simp
    · exact .inr (by rw [← bufferAt_registers]; exact ha)
  | transmitDone m =>
    simp only [canTouched, txb_standard m.isLt, standard_CANINTF] at ha
    revert ha; fin_cases m <;> simp [canTouchedOutside] <;> grind
  | transmitError m x y z =>
    simp only [canTouched, txb_standard m.isLt, standard_CANINTF] at ha
    revert ha; fin_cases m <;> simp [canTouchedOutside] <;> grind
  | overflow m => simp [canTouched] at ha; simp [canTouchedOutside, ha]
  | errorUpdate x y z w => simp [canTouched] at ha; simp [canTouchedOutside]; grind
  | applyMode i => simp [canTouched] at ha; simp [canTouchedOutside, ha]
  | wakeUp i => simp [canTouched] at ha; simp [canTouchedOutside]; grind
  | pins l r => simp [canTouched, txb_standard] at ha; simp [canTouchedOutside]; grind

/-- No CANSIDE step changes a register of a locked receive buffer, its CTRL register among them. -/
theorem State.reg_canStep_locked {s : State} (hs : s.standard) {n : Nat} (hn : n < 2) (h : s.rxFlag n = true)
    (e : CanStep) {k : Nat} (hk : k < 14) : (s.canStep e).reg (rxb n + k) = s.reg (rxb n + k) := by
  by_cases hr : ∃ v c, e = .receive ⟨n, hn⟩ v c
  · obtain ⟨v, c, rfl⟩ := hr
    simp [State.canStep, State.admitsCanStep, h]
  · have far : ∀ n : Fin 2, ∀ a ∈ canTouchedOutside n, ∀ k : Fin 14, slotOf a ≠ slotOf (rxb n + k) := by
      decide +kernel
    refine s.reg_canStep_ne e fun a ha => ?_
    rw [hs] at ha ⊢
    exact far ⟨n, hn⟩ a (canTouched_outside hn (fun v c he => hr ⟨v, c, he⟩) ha) ⟨k, hk⟩

theorem State.reg_canSteps_locked {s : State} (hs : s.standard) {n : Nat} (hn : n < 2) (h : s.rxFlag n = true)
    (es : List CanStep) {k : Nat} (hk : k < 14) : (s.canSteps es).reg (rxb n + k) = s.reg (rxb n + k) := by
  induction es generalizing s with
  | nil => rfl
  | cons e es ih =>
    rw [State.canSteps, ih (hs.of_chip (by simp)) (State.rxFlag_canStep hs h e), State.reg_canStep_locked hs hn h e hk]

/-! ## Registers CANSIDE never writes (R61) -/

/-- The registers R61 keeps from CANSIDE whole: CNF1 to CNF3, filters, masks, CANINTE, CANCTRL, BFPCTRL, and registers
+1 to +13 of every transmit buffer. -/
def hostOnly (b : Nat) : Bool :=
  decide (b < 0x0D) || decide (b % 16 = 15) || (decide (0x10 ≤ b) && decide (b < 0x1C)) ||
    (decide (0x20 ≤ b) && decide (b < 0x2C)) ||
    (decide (0x30 ≤ b) && decide (b < 0x60) && decide (1 ≤ b % 16) && decide (b % 16 ≤ 13))

theorem State.reg_canStep_hostOnly {s : State} (hs : s.standard) (e : CanStep) {b : Nat} (hb : b < 0x80)
    (h : hostOnly b = true) : (s.canStep e).reg b = s.reg b := by
  have far : ∀ b : Fin 128, hostOnly b = true →
      ∀ n : Fin 2, ∀ a ∈ canTouchedOutside n, slotOf a ≠ slotOf b.val := by decide +kernel
  apply s.reg_canStep_ne
  intro a ha
  rw [hs] at ha ⊢
  by_cases hr : ∀ v c, e ≠ .receive 0 v c
  · exact far ⟨b, hb⟩ h 0 a (canTouched_outside (n := 0) (by omega) hr ha)
  · refine far ⟨b, hb⟩ h 1 a (canTouched_outside (n := 1) (by omega) ?_ ha)
    rintro v c rfl
    exact hr fun v' c' he => by simp at he

theorem State.reg_canSteps_hostOnly {s : State} (hs : s.standard) (es : List CanStep) {b : Nat} (hb : b < 0x80)
    (h : hostOnly b = true) : (s.canSteps es).reg b = s.reg b :=
  State.canSteps_induct (P := fun s t => t.reg b = s.reg b) (fun _ => rfl) (fun h k => k.trans h)
    (fun hs e => State.reg_canStep_hostOnly hs e hb h) hs es

/-- CANSIDE leaves the mode request alone (R61). -/
theorem State.reqop_canStep {s : State} (hs : s.standard) (e : CanStep) : (s.canStep e).reqop = s.reqop := by
  rw [State.reqop_eq hs, State.reqop_eq (hs.of_chip (by simp)),
    State.reg_canStep_hostOnly hs e (show CANCTRL < 0x80 by decide) (by decide)]

theorem State.reqop_canSteps {s : State} (hs : s.standard) (es : List CanStep) : (s.canSteps es).reqop = s.reqop := by
  rw [State.reqop_eq hs, State.reqop_eq (hs.of_chip (by simp)),
    State.reg_canSteps_hostOnly hs es (show CANCTRL < 0x80 by decide) (by decide)]

/-! ## The mode under CANSIDE (R55, E4) -/

theorem opmodOf_putOpmod (b : Byte) (m : BitVec 3) : opmodOf ((b &&& ~~~(0xE0 : Byte)) ||| (atField 5 m &&& 0xE0)) = m := by
  unfold opmodOf fieldAt atField
  revert b m; decide +kernel

theorem opmodOf_putIcod (b : Byte) (i : BitVec 3) :
    opmodOf ((b &&& ~~~(atField 1 0x7)) ||| (atField 1 i &&& atField 1 0x7)) = opmodOf b := by
  unfold opmodOf fieldAt atField
  revert b i; decide +kernel

theorem State.opmod_putOpmod {s : State} (hs : s.standard) (m : BitVec 3) : (s.putOpmod m).opmod = m := by
  rw [State.opmod_eq (hs.of_chip (by simp)), State.putOpmod, hs, standard_CANSTAT, State.reg_putBits_same _ _ _ (by decide)]
  exact opmodOf_putOpmod _ _

theorem State.opmod_putIcod {s : State} (hs : s.standard) (i : Option (BitVec 3)) : (s.putIcod i).opmod = s.opmod := by
  cases i with
  | none => rfl
  | some i =>
    rw [State.opmod_eq (hs.of_chip (by simp)), State.opmod_eq hs, State.putIcod, hs, standard_CANSTAT,
      State.reg_putBits_same _ _ _ (by decide)]
    exact opmodOf_putIcod _ _

/-- The mode changes only by E4: to the requested mode, or from Sleep to Listen-Only. -/
theorem State.opmod_canStep {s : State} (hs : s.standard) (e : CanStep) :
    (s.canStep e).opmod = s.opmod ∨ ((s.canStep e).opmod = s.reqop ∧ s.reqop.toNat ≤ 4) ∨
      ((s.canStep e).opmod = 3 ∧ s.opmod = 1) := by
  by_cases ht : ∀ a ∈ canTouched s.chip e, s.chip.home a ≠ s.chip.home CANSTAT
  · left; rw [State.opmod_eq (hs.of_chip (by simp)), State.opmod_eq hs, s.reg_canStep_ne e ht]
  · rw [hs] at ht
    cases e with
    | receive n v c => exact absurd (by fin_cases n <;> simp [canTouched] <;> decide) ht
    | overflow n => exact absurd (by simp [canTouched]; decide) ht
    | transmitDone n => exact absurd (by fin_cases n <;> decide) ht
    | transmitError n x y z => exact absurd (by fin_cases n <;> simp [canTouched] <;> decide) ht
    | errorUpdate x y z w => exact absurd (by simp [canTouched]; decide) ht
    | pins l r => exact absurd (by simp [canTouched]; decide) ht
    | applyMode i =>
      unfold State.canStep; split
      · next h =>
        right; left
        refine ⟨?_, by rw [State.admitsCanStep, hs] at h; exact isModeCode_standard.1 h⟩
        rw [State.canEffect, State.opmod_putIcod (hs.of_chip (by simp)), State.opmod_putOpmod hs]
      · left; rfl
    | wakeUp i =>
      unfold State.canStep; split
      · next h =>
        right; right
        refine ⟨?_, by simpa [State.admitsCanStep, hs] using h⟩
        rw [State.canEffect, State.opmod_putIcod (hs.of_chip (by simp)), State.opmod_eq (hs.of_chip (by simp)), hs,
          standard_CANINTF, State.reg_setBits_ne _ _ (by simp [hs]; decide), ← State.opmod_eq (hs.of_chip (by simp)),
          State.opmod_putOpmod hs]; rfl
      · left; rfl

theorem State.modeLegal_canStep {s : State} (hs : s.standard) (h : s.modeLegal) (e : CanStep) :
    (s.canStep e).modeLegal := by
  unfold State.modeLegal at *
  rcases State.opmod_canStep hs e with h1 | ⟨h1, h2⟩ | ⟨h1, -⟩
  · rw [h1]; exact h
  · rw [h1]; exact h2
  · rw [h1]; decide

theorem State.modeLegal_canSteps {s : State} (hs : s.standard) (h : s.modeLegal) (es : List CanStep) :
    (s.canSteps es).modeLegal :=
  State.canSteps_induct (P := fun s t => s.modeLegal → t.modeLegal) (fun _ h => h) (fun h k x => k (h x))
    (fun hs e h => State.modeLegal_canStep hs h e) hs es h

/-- While Configure is both in effect and requested, it stays in effect under every CANSIDE step. -/
theorem State.opmod_canSteps_configure {s : State} (hs : s.standard) (h : s.opmod = 4) (hr : s.reqop = 4)
    (es : List CanStep) : (s.canSteps es).opmod = 4 := by
  induction es generalizing s with
  | nil => exact h
  | cons e es ih =>
    refine ih (hs.of_chip (by simp)) ?_ (by rw [State.reqop_canStep hs]; exact hr)
    rcases State.opmod_canStep hs e with h1 | ⟨h1, -⟩ | ⟨-, h2⟩
    · rw [h1, h]
    · rw [h1, hr]
    · rw [h] at h2; exact absurd h2 (by decide)

/-! ## Unimplemented bits under CANSIDE (R59) -/

theorem State.implementedOnly_setBits {s : State} (hs : s.standard) (h : s.implementedOnly) {a : Nat} {m : Byte}
    (hm : a < 0x80 → m &&& ~~~Chip.standard.impl a = 0) : (s.setBits a m).implementedOnly :=
  State.implementedOnly_putReg hs h fun ha => byte_or_and_not (by rw [← hs]; exact h a ha) (hm ha)

theorem State.implementedOnly_clearBits {s : State} (hs : s.standard) (h : s.implementedOnly) (a : Nat) (m : Byte) :
    (s.clearBits a m).implementedOnly :=
  State.implementedOnly_putReg hs h fun ha => by
    rw [BitVec.and_comm (s.reg a)]; exact byte_and_not_of_and (by rw [← hs]; exact h a ha) _

theorem State.implementedOnly_putBits {s : State} (hs : s.standard) (h : s.implementedOnly) {a : Nat} {m : Byte} (v : Byte)
    (hm : a < 0x80 → m &&& ~~~Chip.standard.impl a = 0) : (s.putBits a m v).implementedOnly :=
  State.implementedOnly_putReg hs h fun ha =>
    byte_or_and_not (by rw [BitVec.and_comm (s.reg a)]; exact byte_and_not_of_and (by rw [← hs]; exact h a ha) _)
      (byte_and_not_of_and (hm ha) v)

theorem State.implementedOnly_loadRegs {s : State} (hs : s.standard) (h : s.implementedOnly) (as : List Nat)
    (ds : List Byte) : (s.loadRegs as ds).implementedOnly := by
  induction as generalizing s ds with
  | nil => exact h
  | cons a as ih =>
    cases ds with
    | nil => exact h
    | cons d ds =>
      exact ih (hs.of_chip (by simp))
        (State.implementedOnly_putReg hs h fun _ => by rw [hs]; exact byte_and_and_not _ _) _

theorem State.implementedOnly_putIcod {s : State} (hs : s.standard) (h : s.implementedOnly) (i : Option (BitVec 3)) :
    (s.putIcod i).implementedOnly := by
  cases i
  · exact h
  · rw [State.putIcod, hs]; exact State.implementedOnly_putBits hs h _ (fun _ => by decide)

theorem State.implementedOnly_pinRequest {s : State} (hs : s.standard) (h : s.implementedOnly) (e r : Byte) {n : Nat}
    (hn : 0x08#8 &&& ~~~Chip.standard.impl (Chip.standard.txb n).CTRL = 0) : (s.pinRequest e r n).implementedOnly := by
  unfold State.pinRequest; split
  · rw [hs]; exact State.implementedOnly_setBits hs h fun _ => hn
  · exact h

theorem State.implementedOnly_canStep {s : State} (hs : s.standard) (h : s.implementedOnly) (e : CanStep) :
    (s.canStep e).implementedOnly := by
  have full : ∀ (x : Byte) (a : Nat), Chip.standard.impl a = 0xFF → x &&& ~~~Chip.standard.impl a = 0 := by
    intro x a ha; rw [ha]; simp
  unfold State.canStep; split
  case isFalse => exact h
  have std : ∀ {t : State}, t.chip = s.chip → t.standard := fun ht => hs.of_chip ht
  cases e with
  | receive n values ctrl =>
    rw [State.canEffect, hs]
    exact State.implementedOnly_setBits (std (by simp)) (State.implementedOnly_putBits (std (by simp))
      (State.implementedOnly_loadRegs hs h _ _) _
      fun _ => by unfold readOnlyBits; rw [BitVec.and_comm (Chip.impl _ _)]; exact byte_and_and_not _ _)
      fun _ => full _ _ (by decide)
  | overflow n => rw [State.canEffect, hs]; exact State.implementedOnly_setBits hs h fun _ => full _ _ (by decide)
  | transmitDone n =>
    rw [State.canEffect, hs]
    exact State.implementedOnly_setBits (std (by simp)) (State.implementedOnly_clearBits hs h _ _)
      fun _ => full _ _ (by decide)
  | transmitError n status flags clearRequest =>
    have h1 : ((s.setBits (Chip.standard.txb n).CTRL (status &&& outcomeBits Chip.standard)).setBits
        Chip.standard.addr.CANINTF (flags &&& (errIF Chip.standard ||| merrF Chip.standard))).implementedOnly :=
      State.implementedOnly_setBits (std (by simp)) (State.implementedOnly_setBits hs h fun _ =>
        byte_and_not_of_and (by fin_cases n <;> decide) _) fun _ => full _ _ (by decide)
    simp only [State.canEffect]
    rw [hs]
    cases clearRequest
    · exact h1
    · exact State.implementedOnly_clearBits (std (by simp)) h1 _ _
  | errorUpdate tec rec eflg flags =>
    simp only [State.canEffect]
    rw [hs]
    exact State.implementedOnly_setBits (std (by simp)) (State.implementedOnly_setBits (std (by simp))
      (State.implementedOnly_putBits (std (by simp)) (State.implementedOnly_putReg (std (by simp))
        (State.implementedOnly_putReg hs h fun _ => full _ _ (by decide)) fun _ => full _ _ (by decide)) _
        fun _ => full _ _ (by decide)) fun _ => full _ _ (by decide)) fun _ => full _ _ (by decide)
  | applyMode icod =>
    refine State.implementedOnly_putIcod (std (by simp)) ?_ icod
    rw [State.putOpmod, hs]; exact State.implementedOnly_putBits hs h _ fun _ => by decide
  | wakeUp icod =>
    refine State.implementedOnly_putIcod (std (by simp)) ?_ icod
    rw [hs]
    refine State.implementedOnly_setBits (std (by simp)) ?_ fun _ => full _ _ (by decide)
    rw [State.putOpmod, hs]; exact State.implementedOnly_putBits hs h _ fun _ => by decide
  | pins levels requests =>
    refine State.implementedOnly_pinRequest (std (by simp)) (State.implementedOnly_pinRequest (std (by simp))
      (State.implementedOnly_pinRequest (std (by simp)) ?_ _ _ (by decide)) _ _ (by decide)) _ _ (by decide)
    rw [hs]; exact State.implementedOnly_putBits hs h _ fun _ => by decide

theorem State.implementedOnly_canSteps {s : State} (hs : s.standard) (h : s.implementedOnly) (es : List CanStep) :
    (s.canSteps es).implementedOnly :=
  State.canSteps_induct (P := fun s t => s.implementedOnly → t.implementedOnly) (fun _ h => h) (fun h k x => k (h x))
    (fun hs e h => State.implementedOnly_canStep hs h e) hs es h

end Sys2Proof.Machine
end

