-- ==== Sys2Proof/Laws/Transport.lean ====
section
/-! SUPPORT. HOST's side of the link: the decoder reads back what the encoder writes, one completed and one failed
exchange, and what a host operation does at each of its transactions. -/

namespace Sys2Proof.Machine

/-! ## The decoder reads back what the encoder writes -/

theorem decodeCommand_encodeCommand {cmd : CommandBytes} (h : cmd.distinct) (c : Command) :
    decodeCommand cmd (encodeCommand cmd c) = .ok c := by
  simp only [CommandBytes.distinct, List.nodup_cons, List.mem_cons, not_or, List.not_mem_nil, not_false_eq_true] at h
  obtain ⟨⟨h1, h2, h3, h4, -⟩, ⟨h5, h6, h7, -⟩, ⟨h8, h9, -⟩, ⟨h10, -⟩, -⟩ := h
  cases c <;> simp [decodeCommand, encodeCommand, Ne.symm h1, Ne.symm h2, Ne.symm h3, Ne.symm h4, Ne.symm h5,
    Ne.symm h6, Ne.symm h7, Ne.symm h8, Ne.symm h9, Ne.symm h10]

theorem distinct_standard : Chip.standard.commands.distinct := by unfold CommandBytes.distinct; decide

theorem State.standard.distinct {s : State} (hs : s.standard) : s.chip.commands.distinct := by
  rw [hs]; exact distinct_standard

theorem registersExist_iff {a n : Nat} : registersExist a n = true ↔ a ≤ 0x7F ∧ a + n ≤ 0x80 := by
  simp [registersExist]

theorem admittedRange_eq_registersExist (a n : Nat) : admittedRange a n = registersExist a n := rfl

@[simp] theorem length_toList (data : ByteOrBytes) : data.toList.length = data.length := by
  cases data <;> rfl

/-! ## The schedule -/

@[simp] theorem State.nextSlot_clearBus (s : State) : s.clearBus.nextSlot = s.nextSlot := rfl
@[simp] theorem State.beforeXfer_status (s : State) : s.beforeXfer.status = s.status := by simp [State.beforeXfer]
@[simp] theorem State.beforeXfer_config (s : State) : s.beforeXfer.config = s.config := by simp [State.beforeXfer]
@[simp] theorem State.beforeXfer_running (s : State) : s.beforeXfer.running = s.running := by simp [State.beforeXfer]
@[simp] theorem State.beforeXfer_params (s : State) : s.beforeXfer.params = s.params := by simp [State.beforeXfer]
@[simp] theorem State.beforeXfer_chip (s : State) : s.beforeXfer.chip = s.chip := by simp [State.beforeXfer]
@[simp] theorem State.beforeXfer_draws (s : State) : s.beforeXfer.draws = s.draws := by simp [State.beforeXfer]
@[simp] theorem State.beforeXfer_inbox (s : State) : s.beforeXfer.inbox = s.inbox := by simp [State.beforeXfer]
@[simp] theorem State.beforeXfer_bus (s : State) : s.beforeXfer.bus = s.bus := by simp [State.beforeXfer]
@[simp] theorem State.beforeXfer_result (s : State) : s.beforeXfer.result = s.result := by simp [State.beforeXfer]
@[simp] theorem State.beforeXfer_sched (s : State) : s.beforeXfer.sched = s.sched.tail := by simp [State.beforeXfer]

/-- What ENGINE sees before a transaction does not depend on the record of exchanges. -/
theorem sameEngine_beforeXfer_clearBus (s : State) : sameEngine s.clearBus.beforeXfer s.beforeXfer :=
  ⟨(sameFile.canSteps (s := s.clearBus.slotTaken) (t := s.slotTaken) ⟨rfl, rfl⟩ _).regs, by simp, by simp⟩

/-- The registers before a transaction depend on the chip, the registers and the schedule alone. -/
theorem State.beforeXfer_regs_congr {s t : State} (hc : s.chip = t.chip) (hr : s.regs = t.regs) (hk : s.sched = t.sched) :
    s.beforeXfer.regs = t.beforeXfer.regs := by
  have hn : s.nextSlot = t.nextSlot := by unfold State.nextSlot; rw [hk]
  unfold State.beforeXfer
  rw [hn]
  exact (sameFile.canSteps (s := s.slotTaken) (t := t.slotTaken) ⟨hc, hr⟩ _).regs

@[simp] theorem State.beforeXfer_regs_clearBus (s : State) : s.clearBus.beforeXfer.regs = s.beforeXfer.regs :=
  (sameEngine_beforeXfer_clearBus s).regs

@[simp] theorem State.reg_beforeXfer_clearBus (s : State) (b : Nat) : s.clearBus.beforeXfer.reg b = s.beforeXfer.reg b :=
  (sameEngine_beforeXfer_clearBus s).reg b

theorem State.busCompletes_ending {s : State} (h : s.busCompletes) : s.nextSlot.ending = .completes := by
  unfold State.nextSlot
  cases hs : s.sched with
  | nil => rfl
  | cons x xs => exact h x (by simp [hs])

theorem State.canQuiet_before {s : State} (h : s.canQuiet) : s.nextSlot.before = [] := by
  unfold State.nextSlot
  cases hs : s.sched with
  | nil => rfl
  | cons x xs => exact h x (by simp [hs])

/-- Where the schedule is quiet, ENGINE meets the next transaction with the registers as they are. -/
theorem State.beforeXfer_regs_quiet {s : State} (h : s.canQuiet) : s.beforeXfer.regs = s.regs := by
  simp [State.beforeXfer, State.canQuiet_before h, State.canSteps]

/-! ## One completed exchange -/

/-- The state after an exchange of c that completes. -/
def State.afterXfer (s : State) (c : Command) : State :=
  (s.beforeXfer.engine c).2.logged ⟨encodeCommand s.chip.commands c, some (s.beforeXfer.engine c).1⟩

theorem State.xfer_completes {s : State} {c : Command} (hd : s.chip.commands.distinct)
    (hs : s.nextSlot.ending = .completes) (hc : commandAdmitted c = true) :
    s.xfer (encodeCommand s.chip.commands c) = .completed (s.beforeXfer.engine c).1 (s.afterXfer c) := by
  unfold State.xfer State.exchange
  rw [State.beforeXfer_chip, decodeCommand_encodeCommand hd]
  simp [hc, hs, State.afterXfer]

@[simp] theorem State.afterXfer_regs (s : State) (c : Command) :
    (s.afterXfer c).regs = (s.beforeXfer.engineEffect c).regs := rfl
@[simp] theorem State.afterXfer_status (s : State) (c : Command) : (s.afterXfer c).status = s.status := by
  simp [State.afterXfer, State.engine_snd]
@[simp] theorem State.afterXfer_config (s : State) (c : Command) : (s.afterXfer c).config = s.config := by
  simp [State.afterXfer, State.engine_snd]
@[simp] theorem State.afterXfer_running (s : State) (c : Command) : (s.afterXfer c).running = s.running := by
  simp [State.afterXfer, State.engine_snd]
@[simp] theorem State.afterXfer_params (s : State) (c : Command) : (s.afterXfer c).params = s.params := by
  simp [State.afterXfer, State.engine_snd]
@[simp] theorem State.afterXfer_chip (s : State) (c : Command) : (s.afterXfer c).chip = s.chip := by
  simp [State.afterXfer, State.engine_snd]
@[simp] theorem State.afterXfer_inbox (s : State) (c : Command) : (s.afterXfer c).inbox = s.inbox := by
  simp [State.afterXfer, State.engine_snd]
@[simp] theorem State.afterXfer_result (s : State) (c : Command) : (s.afterXfer c).result = s.result := by
  simp [State.afterXfer, State.engine_snd]
@[simp] theorem State.afterXfer_sched (s : State) (c : Command) : (s.afterXfer c).sched = s.sched.tail := by
  simp [State.afterXfer, State.engine_snd]
@[simp] theorem State.afterXfer_draws (s : State) (c : Command) :
    (s.afterXfer c).draws = (s.beforeXfer.engineEffect c).draws + fillerLength c := rfl
@[simp] theorem State.afterXfer_bus (s : State) (c : Command) :
    (s.afterXfer c).bus = s.bus ++ [⟨encodeCommand s.chip.commands c, some (s.beforeXfer.engine c).1⟩] := by
  simp [State.afterXfer, State.engine_snd]
@[simp] theorem State.reg_afterXfer (s : State) (c : Command) (b : Nat) :
    (s.afterXfer c).reg b = (s.beforeXfer.engineEffect c).reg b := rfl

theorem State.busCompletes_afterXfer {s : State} (h : s.busCompletes) (c : Command) : (s.afterXfer c).busCompletes := by
  intro x hx; rw [State.afterXfer_sched] at hx; exact h x (List.mem_of_mem_tail hx)

theorem State.canQuiet_afterXfer {s : State} (h : s.canQuiet) (c : Command) : (s.afterXfer c).canQuiet := by
  intro x hx; rw [State.afterXfer_sched] at hx; exact h x (List.mem_of_mem_tail hx)

/-! ## One failed exchange -/

/-- The state after an exchange of c that fails. -/
def State.afterFailure (s : State) (c : Command) : State :=
  (s.beforeXfer.failedEffect c s.nextSlot.ending).logged ⟨encodeCommand s.chip.commands c, none⟩

theorem State.xfer_fails {s : State} {c : Command} (hd : s.chip.commands.distinct)
    (hs : s.nextSlot.ending ≠ .completes) (hc : commandAdmitted c = true) :
    s.xfer (encodeCommand s.chip.commands c) = .failed (.transport c.kind c.address?) (s.afterFailure c) := by
  unfold State.xfer State.exchange State.afterFailure
  rw [State.beforeXfer_chip, decodeCommand_encodeCommand hd]
  simp only [hc, if_true]

theorem State.xfer_refused {s : State} {c : Command} (hd : s.chip.commands.distinct) (hc : commandAdmitted c = false) :
    s.xfer (encodeCommand s.chip.commands c) = .refused .addressOutOfRange := by
  unfold State.xfer State.exchange
  rw [State.beforeXfer_chip, decodeCommand_encodeCommand hd]
  simp [hc]

@[simp] theorem State.afterFailure_status (s : State) (c : Command) : (s.afterFailure c).status = s.status := by
  simp [State.afterFailure]
@[simp] theorem State.afterFailure_config (s : State) (c : Command) : (s.afterFailure c).config = s.config := by
  simp [State.afterFailure]
@[simp] theorem State.afterFailure_running (s : State) (c : Command) : (s.afterFailure c).running = s.running := by
  simp [State.afterFailure]
@[simp] theorem State.afterFailure_params (s : State) (c : Command) : (s.afterFailure c).params = s.params := by
  simp [State.afterFailure]
@[simp] theorem State.afterFailure_chip (s : State) (c : Command) : (s.afterFailure c).chip = s.chip := by
  simp [State.afterFailure]
@[simp] theorem State.afterFailure_inbox (s : State) (c : Command) : (s.afterFailure c).inbox = s.inbox := by
  simp [State.afterFailure]
@[simp] theorem State.afterFailure_result (s : State) (c : Command) : (s.afterFailure c).result = s.result := by
  simp [State.afterFailure]
@[simp] theorem State.afterFailure_sched (s : State) (c : Command) : (s.afterFailure c).sched = s.sched.tail := by
  simp [State.afterFailure]
@[simp] theorem State.afterFailure_bus (s : State) (c : Command) :
    (s.afterFailure c).bus = s.bus ++ [⟨encodeCommand s.chip.commands c, none⟩] := by
  simp [State.afterFailure]
@[simp] theorem State.afterFailure_regs (s : State) (c : Command) :
    (s.afterFailure c).regs = (s.beforeXfer.failedEffect c s.nextSlot.ending).regs := rfl
@[simp] theorem State.reg_afterFailure (s : State) (c : Command) (b : Nat) :
    (s.afterFailure c).reg b = (s.beforeXfer.failedEffect c s.nextSlot.ending).reg b := rfl

/-! ## An operation at one of its transactions -/

variable {ends : State → Result → State} {s : State}

@[simp] theorem Prog.run_ret (v : Value) : (Prog.ret v).run ends s = .next (ends s (.returned v)) := rfl
@[simp] theorem Prog.run_raise (e : HostError) : (Prog.raise e).run ends s = .next (ends s (.raised e)) := rfl

theorem Prog.run_completes {c : Command} {next : List Byte → Prog} (hd : s.chip.commands.distinct)
    (hs : s.nextSlot.ending = .completes) (hc : commandAdmitted c = true) :
    (Prog.xfer (encodeCommand s.chip.commands c) next).run ends s =
      (next (s.beforeXfer.engine c).1).run ends (s.afterXfer c) := by
  rw [Prog.run, State.xfer_completes hd hs hc]

/-- A failed exchange is the operation's last (R161, R279). -/
theorem Prog.run_fails {c : Command} {next : List Byte → Prog} (hd : s.chip.commands.distinct)
    (hs : s.nextSlot.ending ≠ .completes) (hc : commandAdmitted c = true) :
    (Prog.xfer (encodeCommand s.chip.commands c) next).run ends s =
      .next (ends (s.afterFailure c) (.raised (.transport c.kind c.address?))) := by
  rw [Prog.run, State.xfer_fails hd hs hc]

theorem Prog.run_refused {c : Command} {next : List Byte → Prog} (hd : s.chip.commands.distinct)
    (hc : commandAdmitted c = false) :
    (Prog.xfer (encodeCommand s.chip.commands c) next).run ends s = .refused .addressOutOfRange := by
  rw [Prog.run, State.xfer_refused hd hc]

theorem run_resetCall {c : Chip} {p : Prog} (h : s.chip = c) (hd : c.commands.distinct)
    (hs : s.nextSlot.ending = .completes) : (resetCall c p).run ends s = p.run ends (s.afterXfer .reset) := by
  subst h; exact Prog.run_completes hd hs rfl

theorem run_readRegister {c : Chip} {a : Byte} {n : Nat} {next : List Byte → Prog} (h : s.chip = c)
    (hd : c.commands.distinct) (hs : s.nextSlot.ending = .completes) (ha : registersExist a.toNat n = true) :
    (readRegister c a n next).run ends s = (next (s.beforeXfer.readRegs a.toNat n)).run ends (s.afterXfer (.read a n)) := by
  subst h
  unfold readRegister
  rw [Prog.run_completes (c := .read a n) hd hs ha]
  have : (s.beforeXfer.engine (.read a n)).1.drop 2 = s.beforeXfer.readRegs a.toNat n :=
    s.beforeXfer.engine_response (.read a n)
  rw [this, List.take_of_length_le (by simp)]

theorem run_writeRegister {c : Chip} {a : Byte} {ds : List Byte} {p : Prog} (h : s.chip = c) (hd : c.commands.distinct)
    (hs : s.nextSlot.ending = .completes) (ha : registersExist a.toNat ds.length = true) :
    (writeRegister c a ds p).run ends s = p.run ends (s.afterXfer (.write a ds)) := by
  subst h; exact Prog.run_completes (c := .write a ds) hd hs ha

theorem run_modifyRegister {c : Chip} {a m v : Byte} {p : Prog} (h : s.chip = c) (hd : c.commands.distinct)
    (hs : s.nextSlot.ending = .completes) (ha : registersExist a.toNat 1 = true) :
    (modifyRegister c a m v p).run ends s = p.run ends (s.afterXfer (.bitmod a m v)) := by
  subst h; exact Prog.run_completes (c := .bitmod a m v) hd hs ha

theorem run_readStatus {c : Chip} {next : Byte → Prog} (h : s.chip = c) (hd : c.commands.distinct)
    (hs : s.nextSlot.ending = .completes) :
    (readStatus c next).run ends s = (next s.beforeXfer.statusByte).run ends (s.afterXfer .rdstatus) := by
  subst h; unfold readStatus; rw [Prog.run_completes hd hs rfl]; rfl

/-! ## The transactions an operation may issue -/

/-- Whatever the responses, every transaction of the operation is a command that C allows and whose registers exist. -/
inductive Prog.Issues (cmd : CommandBytes) (C : Command → Bool) : Prog → Prop where
  | ret (v : Value) : Issues cmd C (.ret v)
  | raise (e : HostError) : Issues cmd C (.raise e)
  | xfer (c : Command) (next : List Byte → Prog) (hc : C c = true) (ha : commandAdmitted c = true)
      (h : ∀ miso, Issues cmd C (next miso)) : Issues cmd C (.xfer (encodeCommand cmd c) next)

variable {cmd : CommandBytes} {C : Command → Bool}

/-- So is every transaction of what is left of it. -/
theorem Prog.Issues.resume {p : Prog} (h : p.Issues cmd C) (responses : List (List Byte)) :
    (p.resume responses).Issues cmd C := by
  induction responses generalizing p with
  | nil => cases p <;> exact h
  | cons miso rest ih =>
    cases h with
    | ret v => exact .ret v
    | raise e => exact .raise e
    | xfer c next hc ha h => exact ih (h miso)

/-- R relates the two ends of every exchange, completed or failed, of an admitted command that C allows, on the chip
with the spec's constants; and it is kept by sequencing. -/
structure KeptBy (C : Command → Bool) (R : State → State → Prop) : Prop where
  refl   : ∀ s, R s s
  trans  : ∀ {s t u}, R s t → R t u → R s u
  done   : ∀ c, C c = true → commandAdmitted c = true → ∀ s : State, s.standard → R s (s.afterXfer c)
  failed : ∀ c, C c = true → commandAdmitted c = true → ∀ s : State, s.standard → s.nextSlot.ending ≠ .completes →
    R s (s.afterFailure c)

/-- An operation ends in a next state that every such R relates to its start, whatever the schedule and the
failures. -/
theorem Prog.Issues.run {R : State → State → Prop} {p : Prog} (h : p.Issues Chip.standard.commands C) (hR : KeptBy C R)
    {s : State} (hs : s.standard) : ∃ t r, p.run ends s = .next (ends t r) ∧ R s t ∧ t.standard := by
  induction h generalizing s with
  | ret v => exact ⟨s, _, rfl, hR.refl s, hs⟩
  | raise e => exact ⟨s, _, rfl, hR.refl s, hs⟩
  | xfer c next hc ha _ ih =>
    by_cases he : s.nextSlot.ending = .completes
    · have hs' : (s.afterXfer c).standard := hs.of_chip (by simp)
      obtain ⟨t, r, h1, h2, h3⟩ := ih (s.beforeXfer.engine c).1 hs'
      refine ⟨t, r, ?_, hR.trans (hR.done c hc ha s hs) h2, h3⟩
      rw [← h1, ← Prog.run_completes hs.distinct he ha, hs]
    · refine ⟨s.afterFailure c, .raised (.transport c.kind c.address?), ?_, hR.failed c hc ha s hs he,
        hs.of_chip (by simp)⟩
      rw [← Prog.run_fails (next := next) hs.distinct he ha, hs]

end Sys2Proof.Machine
end

