-- ==== Sys2Proof/Laws/Calls.lean ====
section
/-! SUPPORT. Every transport and host call: its meaning is its operation run to its end, what that operation may issue
on the chip with the spec's constants, and so which relations between states a whole call keeps. -/

namespace Sys2Proof.Machine

/-! ## The meaning of a call -/

theorem callEnds_eq_ended {i : Instr} (h : ctorConfig i = none) : callEnds i = State.ended := by
  funext s r; unfold callEnds; rw [h]

theorem callEnds_ctor (config : ControllerConfig) : callEnds (.ctor config) = State.ctorEnded := rfl

@[simp] theorem callEnds_regs (i : Instr) (s : State) (r : Result) : (callEnds i s r).regs = s.regs := by
  unfold callEnds; split <;> rfl
@[simp] theorem callEnds_config (i : Instr) (s : State) (r : Result) : (callEnds i s r).config = s.config := by
  unfold callEnds; split <;> rfl
@[simp] theorem callEnds_running (i : Instr) (s : State) (r : Result) : (callEnds i s r).running = s.running := by
  unfold callEnds; split <;> rfl
@[simp] theorem callEnds_params (i : Instr) (s : State) (r : Result) : (callEnds i s r).params = s.params := by
  unfold callEnds; split <;> rfl
@[simp] theorem callEnds_chip (i : Instr) (s : State) (r : Result) : (callEnds i s r).chip = s.chip := by
  unfold callEnds; split <;> rfl
@[simp] theorem callEnds_draws (i : Instr) (s : State) (r : Result) : (callEnds i s r).draws = s.draws := by
  unfold callEnds; split <;> rfl
@[simp] theorem callEnds_sched (i : Instr) (s : State) (r : Result) : (callEnds i s r).sched = s.sched := by
  unfold callEnds; split <;> rfl
@[simp] theorem callEnds_inbox (i : Instr) (s : State) (r : Result) : (callEnds i s r).inbox = s.inbox := by
  unfold callEnds; split <;> rfl
@[simp] theorem callEnds_bus (i : Instr) (s : State) (r : Result) : (callEnds i s r).bus = s.bus := by
  unfold callEnds; split <;> rfl
@[simp] theorem callEnds_result (i : Instr) (s : State) (r : Result) : (callEnds i s r).result = some r := by
  unfold callEnds; split <;> rfl

theorem callEnds_status_of {i : Instr} (h : ctorConfig i = none) (s : State) (r : Result) :
    (callEnds i s r).status = s.status := by
  unfold callEnds; rw [h]; rfl

/-- A call is refused as R303 says, or is its operation run to its end. -/
theorem exec_call {i : Instr} {s : State} {p : Prog} (h : callProg s.chip i = some p) :
    exec i s = match s.callRefused i with
      | some r => .refused r
      | none => p.run (callEnds i) (s.callBegun i) := by
  have ready : ∀ (i : Instr) (p : Prog), needsReady i = true → ctorConfig i = none →
      readyCall p s = match s.callRefused i with
        | some r => .refused r
        | none => p.run (callEnds i) (s.callBegun i) := by
    intro i p h1 h2
    unfold readyCall State.callRefused State.callBegun
    rw [callEnds_eq_ended h2]
    by_cases hs : s.status = .ready <;> simp [h1, h2, hs]
  have any : ∀ (i : Instr) (p : Prog), needsReady i = false → ctorConfig i = none →
      anyCall p s = match s.callRefused i with
        | some r => .refused r
        | none => p.run (callEnds i) (s.callBegun i) := by
    intro i p h1 h2
    unfold anyCall State.callRefused State.callBegun
    rw [callEnds_eq_ended h2]
    simp [h1, h2]
  cases i with
  | reset => simp [callProg] at h
  | read a n => simp [callProg] at h
  | write a ds => simp [callProg] at h
  | bitmod a m v => simp [callProg] at h
  | rdstatus => simp [callProg] at h
  | ctor config =>
    obtain rfl : _ = p := by simpa [callProg] using h
    simp only [exec, execCtor, State.callRefused, State.callBegun, callEnds_ctor, ctorConfig, needsReady]
    by_cases hs : s.status = .unconstructed <;> simp [hs]
  | resetCall => obtain rfl : _ = p := by simpa [callProg] using h
                 exact any .resetCall _ rfl rfl
  | readRegister a n => obtain rfl : _ = p := by simpa [callProg] using h
                        exact any (.readRegister a n) _ rfl rfl
  | writeRegister a data => obtain rfl : _ = p := by simpa [callProg] using h
                            exact any (.writeRegister a data) _ rfl rfl
  | modifyRegister a m v => obtain rfl : _ = p := by simpa [callProg] using h
                            exact any (.modifyRegister a m v) _ rfl rfl
  | readStatus => obtain rfl : _ = p := by simpa [callProg] using h
                  exact any .readStatus _ rfl rfl
  | readFrame n => obtain rfl : _ = p := by simpa [callProg] using h
                   exact ready (.readFrame n) _ rfl rfl
  | pollFrame => obtain rfl : _ = p := by simpa [callProg] using h
                 exact ready .pollFrame _ rfl rfl
  | writeFrame f n => obtain rfl : _ = p := by simpa [callProg] using h
                      exact ready (.writeFrame f n) _ rfl rfl
  | isFrameAvailable => obtain rfl : _ = p := by simpa [callProg] using h
                        exact ready .isFrameAvailable _ rfl rfl
  | getMode => obtain rfl : _ = p := by simpa [callProg] using h
               exact ready .getMode _ rfl rfl
  | setMode mode => obtain rfl : _ = p := by simpa [callProg] using h
                    exact ready (.setMode mode) _ rfl rfl

/-- A call that its status admits is its operation run to its end. -/
theorem exec_call_of {i : Instr} {s : State} {p : Prog} (h : callProg s.chip i = some p) (hr : s.callRefused i = none) :
    exec i s = p.run (callEnds i) (s.callBegun i) := by rw [exec_call h, hr]

theorem callRefused_ready {i : Instr} {s : State} (hi : needsReady i = true) (hs : s.status = .ready) :
    s.callRefused i = none := by
  unfold State.callRefused
  rw [if_neg (by simp [hs]), if_neg (by cases i <;> simp [ctorConfig, needsReady] at hi ⊢)]

theorem callRefused_ctor (config : ControllerConfig) {s : State} (hs : s.status = .unconstructed) :
    s.callRefused (.ctor config) = none := by
  simp [State.callRefused, needsReady, hs]

/-- Whether a call is refused depends on HOST's status alone (R303). -/
theorem callRefused_congr {s t : State} (h : s.status = t.status) (i : Instr) : s.callRefused i = t.callRefused i := by
  unfold State.callRefused; rw [h]

theorem exec_toInstr (c : Command) (s : State) : exec c.toInstr s = linkCommand c s := by cases c <;> rfl

/-- An SPI command whose registers exist is one transaction (R150 to R158). -/
theorem linkCommand_next {c : Command} {s t : State} :
    linkCommand c s = .next t ↔ commandAdmitted c = true ∧
      t = (s.clearBus.engine c).2.logged ⟨encodeCommand s.chip.commands c, some (s.clearBus.engine c).1⟩ := by
  unfold linkCommand
  cases commandAdmitted c <;> simp [eq_comm]

/-- An instruction is an SPI command or a call. -/
theorem toInstr_or_call (chip : Chip) (i : Instr) : (∃ c : Command, i = c.toInstr) ∨ ∃ p, callProg chip i = some p := by
  cases i with
  | reset => exact .inl ⟨.reset, rfl⟩
  | read a n => exact .inl ⟨.read a n, rfl⟩
  | write a ds => exact .inl ⟨.write a ds, rfl⟩
  | bitmod a m v => exact .inl ⟨.bitmod a m v, rfl⟩
  | rdstatus => exact .inl ⟨.rdstatus, rfl⟩
  | _ => exact .inr ⟨_, rfl⟩

@[simp] theorem State.callBegun_regs (s : State) (i : Instr) : (s.callBegun i).regs = s.regs := by
  unfold State.callBegun; split <;> rfl
@[simp] theorem State.callBegun_status (s : State) (i : Instr) : (s.callBegun i).status = s.status := by
  unfold State.callBegun; split <;> rfl
@[simp] theorem State.callBegun_running (s : State) (i : Instr) : (s.callBegun i).running = s.running := by
  unfold State.callBegun; split <;> rfl
@[simp] theorem State.callBegun_params (s : State) (i : Instr) : (s.callBegun i).params = s.params := by
  unfold State.callBegun; split <;> rfl
@[simp] theorem State.callBegun_chip (s : State) (i : Instr) : (s.callBegun i).chip = s.chip := by
  unfold State.callBegun; split <;> rfl
@[simp] theorem State.callBegun_draws (s : State) (i : Instr) : (s.callBegun i).draws = s.draws := by
  unfold State.callBegun; split <;> rfl
@[simp] theorem State.callBegun_sched (s : State) (i : Instr) : (s.callBegun i).sched = s.sched := by
  unfold State.callBegun; split <;> rfl
@[simp] theorem State.callBegun_inbox (s : State) (i : Instr) : (s.callBegun i).inbox = s.inbox := by
  unfold State.callBegun; split <;> rfl
@[simp] theorem State.callBegun_result (s : State) (i : Instr) : (s.callBegun i).result = s.result := by
  unfold State.callBegun; split <;> rfl
@[simp] theorem State.callBegun_bus (s : State) (i : Instr) : (s.callBegun i).bus = [] := by
  unfold State.callBegun; split <;> rfl

theorem State.callBegun_config_of {i : Instr} (h : ctorConfig i = none) (s : State) : (s.callBegun i).config = s.config := by
  unfold State.callBegun; rw [h]; rfl

@[simp] theorem State.callBegun_config_ctor (config : ControllerConfig) (s : State) :
    (s.callBegun (.ctor config)).config = some config := rfl

@[simp] theorem State.reg_callBegun (s : State) (i : Instr) (b : Nat) : (s.callBegun i).reg b = s.reg b := by
  unfold State.callBegun; split <;> rfl

@[simp] theorem reg_callEnds (i : Instr) (s : State) (r : Result) (b : Nat) : (callEnds i s r).reg b = s.reg b := by
  unfold callEnds; split <;> rfl

/-! ## The commands a host call may issue -/

/-- The commands of a ctor (R190). -/
def ctorCommand : Command → Bool
  | .reset => true
  | .read _ _ => true
  | .write a ds => [(CNF1, 1), (CNF2, 1), (CNF3, 1), (RXF0SIDH, 12), (RXF3SIDH, 12), (RXM0SIDH, 8), (txb 0, 13),
      (txb 1, 13), (txb 2, 13), (rxb 0, 1), (rxb 1, 1), (CANINTE, 1), (BFPCTRL, 1),
      (TXRTSCTRL, 1)].contains (a.toNat, ds.length)
  | .bitmod a m _ => (decide (a.toNat = rxb 0 ∨ a.toNat = rxb 1) && decide (m = 0x60)) ||
      (decide (a.toNat = CANCTRL) && decide (m = 0xE0))
  | .rdstatus => false

/-- The commands of a readFrame(n) (R215). -/
def readCommand (n : Nat) : Command → Bool
  | .read a k => decide (a.toNat / 16 = 6 + n) && decide (k ≤ 8)
  | .bitmod a m v => decide (a.toNat = CANINTF) && decide (m = 1#8 <<< n) && decide (v = 0x00)
  | .reset => false
  | .write _ _ => false
  | .rdstatus => false

/-- The commands of a writeFrame(f, n) (R233). -/
def writeCommand (n : Nat) : Command → Bool
  | .write a ds => decide (txb n < a.toNat ∧ a.toNat < txb n + 14) && decide (ds.length = 1)
  | .bitmod a m v => decide (a.toNat = txb n) && decide (m = 0x08) && decide (v = 0x08)
  | .reset => false
  | .read _ _ => false
  | .rdstatus => false

/-- The commands of a setMode (R256). -/
def modeCommand : Command → Bool
  | .bitmod a m _ => decide (a.toNat = CANCTRL) && decide (m = 0xE0)
  | .reset => false
  | .read _ _ => false
  | .write _ _ => false
  | .rdstatus => false

/-- Whether the command may be one of the transactions of the call. -/
def mayIssue : Instr → Command → Bool
  | .reset => fun _ => false
  | .read _ _ => fun _ => false
  | .write _ _ => fun _ => false
  | .bitmod _ _ _ => fun _ => false
  | .rdstatus => fun _ => false
  | .resetCall => fun c => decide (c = .reset)
  | .readRegister a n => fun c => decide (c = .read a n)
  | .writeRegister a data => fun c => decide (c = .write a data.toList)
  | .modifyRegister a m v => fun c => decide (c = .bitmod a m v)
  | .readStatus => fun c => decide (c = .rdstatus)
  | .ctor _ => ctorCommand
  | .readFrame n => readCommand n
  | .pollFrame => fun c => decide (c = .rdstatus) || readCommand 0 c || readCommand 1 c
  | .writeFrame _ n => writeCommand n
  | .isFrameAvailable => fun c => decide (c = .rdstatus)
  | .getMode => fun c => decide (c = .read (addressByte CANSTAT) 1)
  | .setMode _ => modeCommand

/-! ## What the operations issue, on the chip with the spec's constants -/

variable {C : Command → Bool}

/-- The operation, on the chip with the spec's constants, issues only what C allows. -/
abbrev Prog.Only (C : Command → Bool) (p : Prog) : Prop := p.Issues Chip.standard.commands C

theorem only_resetCall {p : Prog} (hc : C .reset = true) (h : p.Only C) : (resetCall Chip.standard p).Only C :=
  .xfer _ _ hc rfl fun _ => h

theorem only_readRegister {a : Byte} {n : Nat} {next : List Byte → Prog} (hc : C (.read a n) = true)
    (ha : registersExist a.toNat n = true) (h : ∀ bs, (next bs).Only C) : (readRegister Chip.standard a n next).Only C :=
  .xfer (.read a n) _ hc ha fun _ => h _

theorem only_writeRegister {a : Byte} {ds : List Byte} {p : Prog} (hc : C (.write a ds) = true)
    (ha : registersExist a.toNat ds.length = true) (h : p.Only C) : (writeRegister Chip.standard a ds p).Only C :=
  .xfer (.write a ds) _ hc ha fun _ => h

theorem only_modifyRegister {a m v : Byte} {p : Prog} (hc : C (.bitmod a m v) = true)
    (ha : registersExist a.toNat 1 = true) (h : p.Only C) : (modifyRegister Chip.standard a m v p).Only C :=
  .xfer (.bitmod a m v) _ hc ha fun _ => h

theorem only_readStatus {next : Byte → Prog} (hc : C .rdstatus = true) (h : ∀ b, (next b).Only C) :
    (readStatus Chip.standard next).Only C :=
  .xfer _ _ hc rfl fun _ => h _

theorem toNat_addressByte {a : Nat} (h : a < 0x100) : (addressByte a).toNat = a := by
  simp only [addressByte, BitVec.toNat_ofNat]; omega

theorem only_readFrame {n : Nat} (hr : ∀ a k, a.toNat / 16 = 6 + n → k ≤ 8 → C (.read a k) = true)
    (hb : C (.bitmod (addressByte CANINTF) (1#8 <<< n) 0x00) = true) : (readFrameProg Chip.standard n).Only C := by
  unfold readFrameProg; split
  case isFalse => exact .raise _
  next hn =>
  have e : ∀ k, k < 14 → (addressByte (rxb n + k)).toNat = rxb n + k := by
    intro k hk; exact toNat_addressByte (by unfold rxb; omega)
  have e0 := e 0 (by omega)
  simp only [Nat.add_zero] at e0
  unfold decodeBuffer
  rw [rxb_standard hn]
  refine only_readRegister (hr _ _ ?_ (by omega)) ?_ fun ids => ?_
  · rw [bufferAt_SIDH, e 1 (by omega)]; unfold rxb; omega
  · rw [bufferAt_SIDH, e 1 (by omega)]; exact registersExist_iff.2 (by unfold rxb; omega)
  refine only_readRegister (hr _ _ ?_ (by omega)) ?_ fun ctrl => ?_
  · rw [bufferAt_CTRL, e0]; unfold rxb; omega
  · rw [bufferAt_CTRL, e0]; exact registersExist_iff.2 (by unfold rxb; omega)
  dsimp only
  split
  · exact .raise _
  · next hd =>
    refine only_readRegister (hr _ _ ?_ (by omega)) ?_ fun payload => ?_
    · rw [bufferAt_D0, e 6 (by omega)]; unfold rxb; omega
    · rw [bufferAt_D0, e 6 (by omega)]; exact registersExist_iff.2 (by unfold rxb; omega)
    · unfold clearRxFlag
      rw [standard_CANINTF, rxIF_standard hn]
      exact only_modifyRegister hb rfl (.ret _)

theorem only_writePayload {as : List Nat} {bs : List Byte} {p : Prog} (ha : ∀ a ∈ as, a < 0x80)
    (hc : ∀ a ∈ as, ∀ b, C (.write (addressByte a) [b]) = true) (hp : p.Only C) :
    (writePayload Chip.standard p as bs).Only C := by
  induction as generalizing bs with
  | nil => exact hp
  | cons a as ih =>
    cases bs with
    | nil => exact hp
    | cons b bs =>
      have := ha a (List.mem_cons_self ..)
      refine only_writeRegister (hc a (List.mem_cons_self ..) b) ?_
        (ih (fun x hx => ha x (List.mem_cons_of_mem _ hx)) fun x hx => hc x (List.mem_cons_of_mem _ hx))
      rw [toNat_addressByte (by omega)]
      exact registersExist_iff.2 (by simp only [List.length_cons, List.length_nil]; omega)

/-- What a frame that passes validation satisfies (R231). -/
theorem frameFault_none {f : Frame} {n : Nat} (h : frameFault f n = none) :
    n < 3 ∧ f.payloadLength ≤ 8 ∧ f.payload.length = f.payloadLength ∧ f.ident ≤ SFF_MASK := by
  unfold frameFault at h
  split at h
  · simp at h
  split at h
  · simp at h
  split at h
  · simp at h
  split at h
  · simp at h
  split at h
  · simp at h
  · next h1 h2 _ _ h5 => exact ⟨by omega, by omega, by omega, BitVec.not_lt.1 h5⟩

theorem only_writeFrame {f : Frame} {n : Nat} (hw : ∀ a b, txb n < a.toNat → a.toNat < txb n + 14 → C (.write a [b]) = true)
    (hb : n < 3 → C (.bitmod (addressByte (txb n)) 0x08 0x08) = true) : (writeFrameProg Chip.standard f n).Only C := by
  unfold writeFrameProg; split
  · exact .raise _
  next hf =>
  obtain ⟨hn, hl, hp, -⟩ := frameFault_none hf
  have e : ∀ k, k < 14 → (addressByte (txb n + k)).toNat = txb n + k := by
    intro k hk; exact toNat_addressByte (by unfold txb; omega)
  have w : ∀ k b (p : Prog), 1 ≤ k → k < 14 → p.Only C →
      (writeRegister Chip.standard (addressByte (txb n + k)) [b] p).Only C := by
    intro k b p h1 h2 h
    refine only_writeRegister (hw _ _ ?_ ?_) ?_ h
    · rw [e k h2]; omega
    · rw [e k h2]; omega
    · rw [e k h2]
      exact registersExist_iff.2 (by simp only [List.length_cons, List.length_nil]; unfold txb; omega)
  unfold encodeFrame
  rw [txb_standard hn]
  refine w 1 _ _ (by omega) (by omega) (w 2 _ _ (by omega) (by omega) (w 5 _ _ (by omega) (by omega) ?_))
  rw [bufferAt_data]
  refine only_writePayload ?_ ?_ ?_
  · intro a ha
    obtain ⟨i, hi, rfl⟩ := List.mem_map.1 ha
    rw [List.mem_range] at hi; unfold txb; omega
  · intro a ha b
    obtain ⟨i, hi, rfl⟩ := List.mem_map.1 ha
    rw [List.mem_range] at hi
    rw [Nat.add_assoc]
    refine hw _ _ ?_ ?_ <;> rw [e (6 + i) (by omega)] <;> omega
  · rw [standard_txreq]
    refine only_modifyRegister (hb hn) ?_ (.ret _)
    have := e 0 (by omega)
    simp only [Nat.add_zero] at this
    rw [bufferAt_CTRL, this]; exact registersExist_iff.2 (by unfold txb; omega)

theorem only_ctor (config : ControllerConfig) : (ctorProg Chip.standard config).Only ctorCommand := by
  have w : ∀ (a : Nat) (ds : List Byte) (p : Prog), ctorCommand (.write (addressByte a) ds) = true →
      registersExist (addressByte a).toNat ds.length = true → p.Only ctorCommand →
      (writeRegister Chip.standard (addressByte a) ds p).Only ctorCommand :=
    fun _ _ _ h1 h2 h => only_writeRegister h1 h2 h
  have h3 : (enableOperation Chip.standard config (.ret .unit)).Only ctorCommand := by
    unfold enableOperation
    exact w _ _ _ rfl rfl (w _ _ _ rfl rfl (w _ _ _ rfl rfl (only_modifyRegister rfl rfl (only_modifyRegister rfl rfl
      (only_modifyRegister rfl rfl (.ret _))))))
  have h2 : (clearBuffers Chip.standard (enableOperation Chip.standard config (.ret .unit))).Only ctorCommand := by
    unfold clearBuffers
    exact w _ _ _ rfl rfl (w _ _ _ rfl rfl (w _ _ _ rfl rfl (w _ _ _ rfl rfl (w _ _ _ rfl rfl h3))))
  have h1 : (configureTiming Chip.standard config (clearBuffers Chip.standard
      (enableOperation Chip.standard config (.ret .unit)))).Only ctorCommand := by
    unfold configureTiming
    exact w _ _ _ rfl rfl (w _ _ _ rfl rfl (w _ _ _ rfl rfl (w _ _ _ rfl rfl (w _ _ _ rfl rfl (w _ _ _ rfl rfl h2)))))
  unfold ctorProg; split
  · exact .raise _
  refine only_resetCall rfl ?_
  unfold forceConfigure getMode
  refine only_readRegister rfl rfl fun b => ?_
  show Prog.Only ctorCommand (if _ then _ else _)
  split
  · exact h1
  · exact only_modifyRegister rfl rfl h1

/-- A transport call's registers exist; a host call's always do. -/
def callAdmitted (i : Instr) : Bool :=
  match i.command? with
  | some c => commandAdmitted c
  | none => true

/-- Every call issues only the commands `mayIssue` lists. -/
theorem only_callProg {i : Instr} (hi : callAdmitted i = true) {p : Prog} (hp : callProg Chip.standard i = some p) :
    p.Only (mayIssue i) := by
  cases i with
  | reset => simp [callProg] at hp
  | read a n => simp [callProg] at hp
  | write a ds => simp [callProg] at hp
  | bitmod a m v => simp [callProg] at hp
  | rdstatus => simp [callProg] at hp
  | resetCall =>
    obtain rfl : _ = p := by simpa [callProg] using hp
    exact only_resetCall (by simp [mayIssue]) (.ret _)
  | readRegister a n =>
    obtain rfl : _ = p := by simpa [callProg] using hp
    exact only_readRegister (by simp [mayIssue]) hi fun _ => .ret _
  | writeRegister a data =>
    obtain rfl : _ = p := by simpa [callProg] using hp
    exact only_writeRegister (by simp [mayIssue]) hi (.ret _)
  | modifyRegister a m v =>
    obtain rfl : _ = p := by simpa [callProg] using hp
    exact only_modifyRegister (by simp [mayIssue]) hi (.ret _)
  | readStatus =>
    obtain rfl : _ = p := by simpa [callProg] using hp
    exact only_readStatus (by simp [mayIssue]) fun _ => .ret _
  | ctor c =>
    obtain rfl : _ = p := by simpa [callProg] using hp
    exact only_ctor c
  | readFrame n =>
    obtain rfl : _ = p := by simpa [callProg] using hp
    exact only_readFrame (fun a k h1 h2 => by simp [mayIssue, readCommand, h1, h2])
      (by simp [mayIssue, readCommand, addressByte, CANINTF])
  | pollFrame =>
    obtain rfl : _ = p := by simpa [callProg] using hp
    refine only_readStatus rfl fun b => ?_
    unfold rxBuffer
    split
    · next n hx =>
      have hn : n = 0 ∨ n = 1 := by
        split at hx
        · simp at hx; omega
        · split at hx
          · simp at hx; omega
          · simp at hx
      refine only_readFrame (fun a k h1 h2 => ?_) ?_
      · rcases hn with rfl | rfl <;> simp [mayIssue, readCommand, h1, h2]
      · rcases hn with rfl | rfl <;> rfl
    · exact .ret _
  | writeFrame f n =>
    obtain rfl : _ = p := by simpa [callProg] using hp
    refine only_writeFrame (fun a b h1 h2 => by simp [mayIssue, writeCommand, h1, h2]) fun hn => ?_
    have : (addressByte (txb n)).toNat = txb n := toNat_addressByte (by unfold txb; omega)
    simp [mayIssue, writeCommand, this]
  | isFrameAvailable =>
    obtain rfl : _ = p := by simpa [callProg] using hp
    exact only_readStatus rfl fun _ => .ret _
  | getMode =>
    obtain rfl : _ = p := by simpa [callProg] using hp
    unfold getModeProg getMode
    exact only_readRegister rfl rfl fun _ => .ret _
  | setMode mode =>
    obtain rfl : _ = p := by simpa [callProg] using hp
    cases mode with
    | enumerator m => exact only_modifyRegister rfl rfl (.ret _)
    | outside v => exact .raise _

/-- A transport call whose registers do not exist is refused (R82). -/
theorem run_notAdmitted {i : Instr} (hi : callAdmitted i = false) {s : State} (hd : s.chip.commands.distinct) {p : Prog}
    (hp : callProg s.chip i = some p) (ends : State → Result → State) : p.run ends s = .refused .addressOutOfRange := by
  cases i with
  | reset => simp [callProg] at hp
  | read a n => simp [callProg] at hp
  | write a ds => simp [callProg] at hp
  | bitmod a m v => simp [callProg] at hp
  | rdstatus => simp [callProg] at hp
  | resetCall => simp [callAdmitted, Instr.command?, commandAdmitted] at hi
  | readStatus => simp [callAdmitted, Instr.command?, commandAdmitted] at hi
  | readRegister a n =>
    obtain rfl : _ = p := by simpa [callProg] using hp
    exact Prog.run_refused (c := .read a n) hd hi
  | writeRegister a data =>
    obtain rfl : _ = p := by simpa [callProg] using hp
    exact Prog.run_refused (c := .write a data.toList) hd hi
  | modifyRegister a m v =>
    obtain rfl : _ = p := by simpa [callProg] using hp
    exact Prog.run_refused (c := .bitmod a m v) hd hi
  | _ => simp [callAdmitted, Instr.command?] at hi

/-- A call that its status admits and whose registers exist answers a next state with a result recorded, and every
relation that its commands keep holds between its start and its end, under every schedule and every failure. -/
theorem exec_call_kept {i : Instr} {R : State → State → Prop} (hR : KeptBy (mayIssue i) R) (hi : callAdmitted i = true)
    {s : State} (hs : s.standard) {p : Prog} (hp : callProg s.chip i = some p) (hr : s.callRefused i = none) :
    ∃ t r, exec i s = .next (callEnds i t r) ∧ R (s.callBegun i) t := by
  rw [exec_call_of hp hr]
  rw [hs] at hp
  obtain ⟨t, r, h1, h2, -⟩ := (only_callProg hi hp).run (ends := callEnds i) hR (s := s.callBegun i) (hs.of_chip (by simp))
  exact ⟨t, r, h1, h2⟩

/-- Whatever answers a next state is one admitted transaction on the link, or a call that its status admits, run to its
end. -/
theorem exec_next {s t : State} (hs : s.standard) {i : Instr} (h : exec i s = .next t) :
    (∃ c, i = c.toInstr ∧ linkCommand c s = .next t) ∨
    (∃ p, callProg s.chip i = some p ∧ callAdmitted i = true ∧ s.callRefused i = none ∧
      p.run (callEnds i) (s.callBegun i) = .next t) := by
  rcases toInstr_or_call s.chip i with ⟨c, rfl⟩ | ⟨p, hp⟩
  · exact .inl ⟨c, rfl, by rwa [exec_toInstr] at h⟩
  · right
    rw [exec_call hp] at h
    split at h
    · simp at h
    · next hr =>
      refine ⟨p, hp, ?_, hr, h⟩
      by_contra hc
      rw [run_notAdmitted (by simpa using hc) (by simpa using hs.distinct) (by simpa using hp)] at h
      simp at h

/-- Only reset() and ctor issue RESET. -/
theorem mayIssue_reset {i : Instr} {c : Command} (h1 : i ≠ .resetCall) (h2 : ∀ c, i ≠ .ctor c)
    (h : mayIssue i c = true) : c ≠ .reset := by
  rintro rfl
  cases i <;> simp [mayIssue, readCommand, writeCommand, modeCommand] at h h1 h2

end Sys2Proof.Machine
end

