-- ==== Sys2Proof/Laws/PerInstr.lean ====
section
/-! SUPPORT. One fact about every instruction as syntax, constructor by constructor: how long the transaction it stands
for is on the link (R112, R124), if it has one (R125). -/

/-- The length of a transaction, by what it transfers: the command byte, the address byte and the data of R112. -/
def Sys2Proof.Laws.TransactionLength.length : Sys2Proof.Instr → Option Nat
  | .reset => some 1
  | .read _ n => some (2 + n)
  | .write _ ds => some (2 + ds.length)
  | .bitmod _ _ _ => some 4
  | .rdstatus => some 2
  | .resetCall => some 1
  | .readRegister _ n => some (2 + n)
  | .writeRegister _ data => some (2 + data.toList.length)
  | .modifyRegister _ _ _ => some 4
  | .readStatus => some 2
  | .ctor _ => none
  | .readFrame _ => none
  | .pollFrame => none
  | .writeFrame _ _ => none
  | .isFrameAvailable => none
  | .getMode => none
  | .setMode _ => none

/-- Whatever the command bytes, an SPI command or a transport call encodes to a transaction of that length, whose first
byte is one of the five command bytes; a host call has no bit pattern. -/
def Sys2Proof.Laws.TransactionLength.Statement (i : Sys2Proof.Instr) : Prop :=
  ∀ cmd : Sys2Proof.CommandBytes,
    (Sys2Proof.encode cmd i).map List.length = Sys2Proof.Laws.TransactionLength.length i ∧
      ∀ bs, Sys2Proof.encode cmd i = some bs →
        ∃ c ∈ [cmd.reset, cmd.read, cmd.write, cmd.bitmod, cmd.rdstatus], bs.head? = some c

namespace Sys2Proof.Laws.TransactionLength

theorem reset : Statement .reset := by
  intro cmd; simp [encode, Instr.command?, encodeCommand, length]

theorem read (a : Byte) (n : Nat) : Statement (.read a n) := by
  intro cmd; simp [encode, Instr.command?, encodeCommand, length]; omega

theorem write (a : Byte) (ds : List Byte) : Statement (.write a ds) := by
  intro cmd; simp [encode, Instr.command?, encodeCommand, length]; omega

theorem bitmod (a m v : Byte) : Statement (.bitmod a m v) := by
  intro cmd; simp [encode, Instr.command?, encodeCommand, length]

theorem rdstatus : Statement .rdstatus := by
  intro cmd; simp [encode, Instr.command?, encodeCommand, length]

theorem resetCall : Statement .resetCall := by
  intro cmd; simp [encode, Instr.command?, encodeCommand, length]

theorem readRegister (a : Byte) (n : Nat) : Statement (.readRegister a n) := by
  intro cmd; simp [encode, Instr.command?, encodeCommand, length]; omega

theorem writeRegister (a : Byte) (data : ByteOrBytes) : Statement (.writeRegister a data) := by
  intro cmd; simp [encode, Instr.command?, encodeCommand, length]; omega

theorem modifyRegister (a m v : Byte) : Statement (.modifyRegister a m v) := by
  intro cmd; simp [encode, Instr.command?, encodeCommand, length]

theorem readStatus : Statement .readStatus := by
  intro cmd; simp [encode, Instr.command?, encodeCommand, length]

theorem ctor (config : ControllerConfig) : Statement (.ctor config) := by
  intro cmd; simp [encode, Instr.command?, length]

theorem readFrame (n : Nat) : Statement (.readFrame n) := by
  intro cmd; simp [encode, Instr.command?, length]

theorem pollFrame : Statement .pollFrame := by
  intro cmd; simp [encode, Instr.command?, length]

theorem writeFrame (f : Frame) (n : Nat) : Statement (.writeFrame f n) := by
  intro cmd; simp [encode, Instr.command?, length]

theorem isFrameAvailable : Statement .isFrameAvailable := by
  intro cmd; simp [encode, Instr.command?, length]

theorem getMode : Statement .getMode := by
  intro cmd; simp [encode, Instr.command?, length]

theorem setMode (mode : ModeArg) : Statement (.setMode mode) := by
  intro cmd; simp [encode, Instr.command?, length]

end Sys2Proof.Laws.TransactionLength
end

