-- ==== Sys2Proof/Laws/Step.lean ====
section
/-! SUPPORT. One step (R7, R95): what an exchange can come to, what one step of a call can do, and what a step of the
machine can do. -/

namespace Sys2Proof.Machine

/-! ## One exchange -/

/-- A completed exchange is one admitted command, executed by ENGINE, and recorded. -/
theorem State.exchange_completed {s t : State} {mosi miso : List Byte} {ending : XferEnd}
    (h : s.exchange mosi ending = .completed miso t) :
    ∃ c, decodeCommand s.chip.commands mosi = .ok c ∧ commandAdmitted c = true ∧ ending = .completes ∧
      miso = (s.engine c).1 ∧ t = (s.engine c).2.logged ⟨mosi, some miso⟩ := by
  unfold State.exchange at h
  split at h
  · simp at h
  next c hc =>
  split at h
  next ha =>
    split at h
    · obtain ⟨rfl, rfl⟩ : _ = miso ∧ _ = t := by simpa using h
      exact ⟨c, hc, ha, rfl, rfl, rfl⟩
    · simp at h
  · simp at h

/-- A failed exchange is one admitted command with one of R161's effects, and recorded. -/
theorem State.exchange_failed {s t : State} {mosi : List Byte} {ending : XferEnd} {e : HostError}
    (h : s.exchange mosi ending = .failed e t) :
    ∃ c, decodeCommand s.chip.commands mosi = .ok c ∧ commandAdmitted c = true ∧ ending ≠ .completes ∧
      e = .transport c.kind c.address? ∧ t = (s.failedEffect c ending).logged ⟨mosi, none⟩ := by
  unfold State.exchange at h
  split at h
  · simp at h
  next c hc =>
  split at h
  next ha =>
    split at h
    · simp at h
    next hn =>
      obtain ⟨rfl, rfl⟩ : _ = e ∧ _ = t := by simpa using h
      exact ⟨c, hc, ha, hn, rfl, rfl⟩
  · simp at h

/-! ## HOST's place in a call is HOST's alone: neither CANSIDE nor ENGINE looks at it -/

theorem State.canStep_setRunning (s : State) (r : Option Running) (e : CanStep) :
    (s.setRunning r).canStep e = (s.canStep e).setRunning r :=
  State.ext_fields (sameFile.canStep (s := s.setRunning r) (t := s) ⟨rfl, rfl⟩ e).regs (by simp) (by simp) (by simp)
    (by simp) (by simp) (by simp) (by simp) (by simp) (by simp)

theorem State.canSteps_setRunning (s : State) (r : Option Running) (es : List CanStep) :
    (s.setRunning r).canSteps es = (s.canSteps es).setRunning r := by
  induction es generalizing s with
  | nil => rfl
  | cons e es ih => simp only [State.canSteps, State.canStep_setRunning, ih]

theorem State.engineEffect_setRunning (s : State) (r : Option Running) (c : Command) :
    (s.setRunning r).engineEffect c = (s.engineEffect c).setRunning r :=
  have h := sameEngine.engineEffect (s := s.setRunning r) (t := s) ⟨rfl, rfl, rfl⟩ c
  State.ext_fields h.regs (by simp) (by simp) (by simp) (by simp) h.draws (by simp) (by simp) (by simp) (by simp)

theorem State.storeRegs_setRunning (s : State) (r : Option Running) (a : Nat) (ds : List Byte) :
    (s.setRunning r).storeRegs a ds = (s.storeRegs a ds).setRunning r :=
  have h := sameEngine.storeRegs (s := s.setRunning r) (t := s) ⟨rfl, rfl, rfl⟩ a ds
  State.ext_fields h.regs (by simp) (by simp) (by simp) (by simp) h.draws (by simp) (by simp) (by simp) (by simp)

theorem State.failedEffect_setRunning (s : State) (r : Option Running) (c : Command) (x : XferEnd) :
    (s.setRunning r).failedEffect c x = (s.failedEffect c x).setRunning r := by
  cases x with
  | completes => rfl
  | failsUnchanged => rfl
  | failsApplied => exact s.engineEffect_setRunning r c
  | failsAfter k => cases c <;> first | rfl | exact s.storeRegs_setRunning r _ _

theorem State.engine_setRunning (s : State) (r : Option Running) (c : Command) :
    (s.setRunning r).engine c = ((s.engine c).1, (s.engine c).2.setRunning r) := by
  have h := s.engineEffect_setRunning r c
  have h2 : (s.setRunning r).engineResponse c = s.engineResponse c := by cases c <;> rfl
  unfold State.engine
  rw [h, h2]; rfl

/-- The exchange, whatever HOST's place in a call. -/
theorem State.exchange_setRunning (s : State) (r : Option Running) (mosi : List Byte) (ending : XferEnd) :
    (s.setRunning r).exchange mosi ending = match s.exchange mosi ending with
      | .completed miso t => .completed miso (t.setRunning r)
      | .failed e t => .failed e (t.setRunning r)
      | .refused x => .refused x := by
  unfold State.exchange
  rw [State.setRunning_chip]
  cases decodeCommand s.chip.commands mosi with
  | error e => rfl
  | ok c =>
    cases hc : commandAdmitted c with
    | false => simp [hc]
    | true =>
      cases ending <;> simp only [hc, if_true, State.engine_setRunning, State.failedEffect_setRunning] <;> rfl

/-! ## What is left of an operation -/

theorem Prog.resume_nil (p : Prog) : p.resume [] = p := by cases p <;> rfl

/-- What is left after one more response. -/
theorem Prog.resume_append {p : Prog} {responses : List (List Byte)} {mosi : List Byte} {next : List Byte → Prog}
    (h : p.resume responses = .xfer mosi next) (miso : List Byte) : p.resume (responses ++ [miso]) = next miso := by
  induction responses generalizing p with
  | nil =>
    rw [Prog.resume_nil] at h; subst h
    exact Prog.resume_nil _
  | cons r rest ih =>
    cases p with
    | ret v => simp [Prog.resume] at h
    | raise e => simp [Prog.resume] at h
    | xfer m n => exact ih h

/-! ## One step of a call -/

@[simp] theorem State.callEnded_regs (i : Instr) (s : State) (r : Result) : (s.callEnded i r).regs = s.regs := by
  simp [State.callEnded]
@[simp] theorem State.callEnded_params (i : Instr) (s : State) (r : Result) : (s.callEnded i r).params = s.params := by
  simp [State.callEnded]
@[simp] theorem State.callEnded_config (i : Instr) (s : State) (r : Result) : (s.callEnded i r).config = s.config := by
  simp [State.callEnded]
@[simp] theorem State.callEnded_draws (i : Instr) (s : State) (r : Result) : (s.callEnded i r).draws = s.draws := by
  simp [State.callEnded]
@[simp] theorem State.callEnded_sched (i : Instr) (s : State) (r : Result) : (s.callEnded i r).sched = s.sched := by
  simp [State.callEnded]
@[simp] theorem State.callEnded_inbox (i : Instr) (s : State) (r : Result) : (s.callEnded i r).inbox = s.inbox := by
  simp [State.callEnded]
@[simp] theorem State.callEnded_bus (i : Instr) (s : State) (r : Result) : (s.callEnded i r).bus = s.bus := by
  simp [State.callEnded]
@[simp] theorem State.callEnded_result (i : Instr) (s : State) (r : Result) : (s.callEnded i r).result = some r := by
  simp [State.callEnded]
@[simp] theorem State.callEnded_running (i : Instr) (s : State) (r : Result) : (s.callEnded i r).running = none := by
  simp [State.callEnded]

/-- What is left of an operation decides only HOST's own state: the call goes on, or it ends. -/
theorem State.settled_cases (i : Instr) (responses : List (List Byte)) (s : State) (p : Prog) :
    (∃ mosi next, p = .xfer mosi next ∧ s.settled i responses p = s.setRunning (some ⟨i, responses⟩)) ∨
    (∃ v, p = .ret v ∧ s.settled i responses p = s.callEnded i (.returned v)) ∨
    (∃ e, p = .raise e ∧ s.settled i responses p = s.callEnded i (.raised e)) := by
  cases p with
  | ret v => exact .inr (.inl ⟨v, rfl, rfl⟩)
  | raise e => exact .inr (.inr ⟨e, rfl, rfl⟩)
  | xfer mosi next => exact .inl ⟨mosi, next, rfl, rfl⟩

/-- One step of a call: it ends, or CANSIDE takes a step, or one exchange completes or fails. -/
theorem State.callStep_cases {s t : State} {i : Instr} {responses : List (List Byte)} {p : Prog}
    (h : s.callStep i responses p = .next t) :
    (∃ v, p = .ret v ∧ t = s.callEnded i (.returned v)) ∨
    (∃ e, p = .raise e ∧ t = s.callEnded i (.raised e)) ∨
    (∃ mosi next, p = .xfer mosi next ∧
      ((∃ e es, s.nextSlot.before = e :: es ∧ t = (s.canStepTaken.canStep e).setRunning (some ⟨i, responses⟩)) ∨
       (s.nextSlot.before = [] ∧
        ((∃ miso u, s.slotTaken.exchange mosi s.nextSlot.ending = .completed miso u ∧
            t = u.settled i (responses ++ [miso]) (next miso)) ∨
         (∃ e u, s.slotTaken.exchange mosi s.nextSlot.ending = .failed e u ∧ t = u.callEnded i (.raised e)))))) := by
  cases p with
  | ret v => exact .inl ⟨v, rfl, by simpa [State.callStep, eq_comm] using h⟩
  | raise e => exact .inr (.inl ⟨e, rfl, by simpa [State.callStep, eq_comm] using h⟩)
  | xfer mosi next =>
    refine .inr (.inr ⟨mosi, next, rfl, ?_⟩)
    simp only [State.callStep] at h
    split at h
    next e es hb => exact .inl ⟨e, es, hb, by simpa [eq_comm] using h⟩
    next hb =>
      refine .inr ⟨hb, ?_⟩
      split at h
      next miso u hx => exact .inl ⟨miso, u, hx, by simpa [eq_comm] using h⟩
      next e u hx => exact .inr ⟨e, u, hx, by simpa [eq_comm] using h⟩
      next r hx => simp at h

/-- A step that begins a call: an SPI command is its one transaction; any other call is admitted and takes its first
step. -/
theorem State.beginCall_cases {s t : State} {i : Instr} (h : s.beginCall i = .next t) :
    (∃ c, i = c.toInstr ∧ linkCommand c s = .next t) ∨
    (∃ p, callProg s.chip i = some p ∧ s.callRefused i = none ∧ (s.callBegun i).callStep i [] p = .next t) := by
  rcases toInstr_or_call s.chip i with ⟨c, rfl⟩ | ⟨p, hp⟩
  · left
    refine ⟨c, rfl, ?_⟩
    cases c <;> exact h
  · right
    unfold State.beginCall at h
    rw [hp] at h
    dsimp only at h
    split at h
    · simp at h
    next hr => exact ⟨p, hp, hr, h⟩

theorem decode_ok {cmd : CommandBytes} {mosi : List Byte} {i : Instr} (h : decode cmd mosi = .ok i) :
    ∃ c, decodeCommand cmd mosi = .ok c ∧ i = c.toInstr := by
  unfold decode at h
  split at h
  next c hc => exact ⟨c, hc, by simpa [eq_comm] using h⟩
  next => simp at h

/-- One step of the machine: the call in progress goes on; or, with none in progress, a transaction from the link, the
first step of a call, or a CANSIDE step is taken from the inbox. -/
theorem step_cases {s t : State} (h : step s = .next t) :
    (∃ r, s.running = some r ∧ s.continueCall r = .next t) ∨
    (s.running = none ∧ ∃ rest,
      ((∃ mosi c, s.inbox = .link mosi :: rest ∧ decodeCommand s.chip.commands mosi = .ok c ∧
          linkCommand c s.took = .next t) ∨
       (∃ i, s.inbox = .call i :: rest ∧ s.took.beginCall i = .next t) ∨
       (∃ e, s.inbox = .canside e :: rest ∧ t = s.took.canStep e))) := by
  unfold step at h
  split at h
  next r hr => exact .inl ⟨r, hr, h⟩
  next hn =>
    refine .inr ⟨hn, ?_⟩
    unfold takeInput at h
    cases hi : s.inbox with
    | nil => simp [hi] at h
    | cons x rest =>
      refine ⟨rest, ?_⟩
      simp only [hi, List.head?_cons] at h
      cases x with
      | link mosi =>
        simp only [runInput] at h
        split at h
        next i hd =>
          obtain ⟨c, hc, rfl⟩ := decode_ok hd
          exact .inl ⟨mosi, c, rfl, hc, by rwa [exec_toInstr] at h⟩
        next => simp at h
      | call i => exact .inr (.inl ⟨i, rfl, h⟩)
      | canside e => exact .inr (.inr ⟨e, rfl, by simpa [runInput, eq_comm] using h⟩)

/-! ## Several steps -/

@[simp] theorem State.steps_zero (s : State) : s.steps 0 = .next s := rfl

theorem State.steps_next {s t : State} (h : step s = .next t) (k : Nat) : s.steps (k + 1) = t.steps k := by
  rw [State.steps, h]

theorem State.steps_refused {s : State} {r : Refusal} (h : step s = .refused r) (k : Nat) :
    s.steps (k + 1) = .refused r := by
  rw [State.steps, h]

/-- k steps, then m more. -/
theorem State.steps_add {s t : State} {k : Nat} (h : s.steps k = .next t) (m : Nat) : s.steps (k + m) = t.steps m := by
  induction k generalizing s with
  | zero =>
    obtain rfl : s = t := by simpa using h
    rw [Nat.zero_add]
  | succ k ih =>
    rw [State.steps] at h
    split at h
    next u hu => rw [show k + 1 + m = (k + m) + 1 by omega, State.steps_next hu]; exact ih h
    · simp at h
    · simp at h

end Sys2Proof.Machine
end

