-- ==== Sys2Proof/Tests/Slice0.lean ====
section
/-! SUPPORT. The model's own tests: ill-formed terms, words written out from the encoding tables, single steps whose
expected results stand in the spec's 95_test_vectors.md (the vector is named in each comment), and for every statement
with hypotheses values that meet them. -/

namespace Sys2Proof.Tests

set_option Elab.async false

open Sys2Proof.Machine

/-! ## Small states -/

/-- HOST Ready, every register 0, nothing pending or scheduled. -/
def blank : State where
  regs := Vector.replicate 128 0x00
  status := .ready
  config := some (ControllerConfig.defaults false)
  running := none
  params := ChipParams.standard
  draws := 0
  sched := []
  inbox := []
  bus := []
  result := none

/-- `blank` with some registers set. -/
def holding (rs : List (Nat × Byte)) : State := rs.foldl (fun s r => s.putReg r.1 r.2) blank

/-- The outcome is a next state that satisfies p. -/
def answers (o : Host.Outcome State Fault Refusal) (p : State → Bool) : Bool :=
  match o with
  | .next t => p t
  | .fault _ => false
  | .refused _ => false

/-- The outcome is this refusal. -/
def refuses (o : Host.Outcome State Fault Refusal) (r : Refusal) : Bool :=
  match o with
  | .next _ => false
  | .fault _ => false
  | .refused r' => decide (r' = r)

/-- The outcome is this fault. -/
def faults (o : Host.Outcome State Fault Refusal) (f : Fault) : Bool :=
  match o with
  | .next _ => false
  | .fault f' => decide (f' = f)
  | .refused _ => false

/-- The bytes sent by the latest instruction. -/
def sent (t : State) : List (List Byte) := t.bus.map (·.mosi)

/-- The bytes captured by the latest instruction, without the first k of each exchange. -/
def captured (k : Nat) (t : State) : List (Option (List Byte)) := t.bus.map fun x => x.miso.map (·.drop k)

/-- A full receive buffer 0 (L2.5): identifier 0x123, CTRL 0x60, data 01 to 08, the DLC register given. -/
def rx0 (dlc : Byte) : State :=
  holding ([(CANINTF, 0x01), (0x60, 0x60), (0x61, 0x24), (0x62, 0x60), (0x65, dlc)] ++
    [(0x66, 0x01), (0x67, 0x02), (0x68, 0x03), (0x69, 0x04), (0x6A, 0x05), (0x6B, 0x06), (0x6C, 0x07), (0x6D, 0x08)])

/-- Nothing scheduled: no failure, no CANSIDE step. -/
theorem blank_standard : blank.standard := rfl

theorem blank_busCompletes : blank.busCompletes := by intro x hx; cases hx

theorem blank_canQuiet : blank.canQuiet := by intro x hx; cases hx

theorem busCompletes_of_nil {s : State} (h : s.sched = []) : s.busCompletes := by
  intro x hx; rw [h] at hx; cases hx

theorem canQuiet_of_nil {s : State} (h : s.sched = []) : s.canQuiet := by
  intro x hx; rw [h] at hx; cases hx

/-- A chip that differs from the spec's defaults in every kind of parameter: READ is 0x13, CANINTF stands at 0x2B and
CANINTE at 0x2C, RX0IF and RX1IF are bits 1 and 0, CNF1 is not protected and resets to 0x11, and the register at 0x2C
is not bit-modify capable and has only its low four bits writable. Buffers TXB0 and RXB0 have CTRL after D7, TXB0 its
data registers in descending order, RXB0 its data registers before SIDH; the pins of TXRTSCTRL are numbered downwards. -/
def oddChip : Chip where
  commands := { CommandBytes.standard with read := 0x13 }
  addr := { RegAddresses.standard with
    CANINTF := 0x2B
    CANINTE := 0x2C
    TXB0 := ⟨0x3D, 0x30, 0x31, 0x32, 0x33, 0x34, 0x3C, 0x3B, 0x3A, 0x39, 0x38, 0x37, 0x36, 0x35⟩
    RXB0 := ⟨0x6D, 0x68, 0x69, 0x6A, 0x6B, 0x6C, 0x60, 0x61, 0x62, 0x63, 0x64, 0x65, 0x66, 0x67⟩ }
  bits := { BitPositions.standard with
    RX0IF := 1, RX1IF := 0, B0RTS := 5, B1RTS := 4, B2RTS := 3, B0RTSM := 2, B1RTSM := 1, B2RTSM := 0 }
  modes := { ModeCodes.standard with sleep := 2, loopback := 1 }
  rows := [(0x2A, ⟨0x2A, 0xFF, 0xFF, true, false, 0x11, 0x00⟩), (0x2C, ⟨0x2C, 0xFF, 0x0F, false, false, 0x00, 0x00⟩)]

/-- A state on that chip. -/
def odd (s : State) : State := { s with params := ⟨oddChip, .ignored⟩ }

/-- The state with a call as its one pending input. -/
def calling (i : Instr) (s : State) : State := { s with inbox := [.call i] }

/-! ## WellFormed refuses ill-formed terms -/

theorem test_wf_read_pastEnd : (Instr.read 0x7F 2).wf = false := by decide
theorem test_wf_read_address : (Instr.read 0x80 0).wf = false := by decide
theorem test_wf_write_pastEnd : (Instr.write 0x7E [0x01, 0x02, 0x03]).wf = false := by decide
theorem test_wf_bitmod_address : (Instr.bitmod 0x80 0xFF 0xFF).wf = false := by decide
theorem test_wf_readRegister_pastEnd : (Instr.readRegister 0x7F 2).wf = false := by decide
theorem test_wf_writeRegister_pastEnd : (Instr.writeRegister 0x80 (.byte 0x00)).wf = false := by decide
theorem test_wf_modifyRegister_address : (Instr.modifyRegister 0xFF 0x01 0x01).wf = false := by decide
theorem test_wf_ctor_sjw : (Instr.ctor { ControllerConfig.defaults false with sjw := 5 }).wf = false := by decide
theorem test_wf_ctor_brp : (Instr.ctor { ControllerConfig.defaults false with brp := 65 }).wf = false := by decide
theorem test_wf_ctor_propSeg : (Instr.ctor { ControllerConfig.defaults false with propSeg := 0 }).wf = false := by decide
theorem test_wf_ctor_phaseSeg1 : (Instr.ctor { ControllerConfig.defaults false with phaseSeg1 := 9 }).wf = false := by
  decide
theorem test_wf_ctor_phaseSeg2 : (Instr.ctor { ControllerConfig.defaults false with phaseSeg2 := 0 }).wf = false := by
  decide
theorem test_wf_ctor_samplingMode :
    (Instr.ctor { ControllerConfig.defaults false with samplingMode := 0x01 }).wf = false := by decide
theorem test_wf_ctor_baudRateSelect :
    (Instr.ctor { ControllerConfig.defaults false with baudRateSelect := 2 }).wf = false := by decide
theorem test_wf_readFrame_index : (Instr.readFrame 2).wf = false := by decide
theorem test_wf_writeFrame_index : (Instr.writeFrame ⟨0x100, 0, []⟩ 3).wf = false := by decide
theorem test_wf_writeFrame_length : (Instr.writeFrame ⟨0x100, 9, List.replicate 9 0x00⟩ 0).wf = false := by decide
theorem test_wf_writeFrame_mismatch : (Instr.writeFrame ⟨0x100, 2, [0x00]⟩ 0).wf = false := by decide
theorem test_wf_writeFrame_bit29 : (Instr.writeFrame ⟨0x20000100, 0, []⟩ 0).wf = false := by decide
theorem test_wf_setMode_outside : (Instr.setMode (.outside 5)).wf = false := by decide
theorem test_wf_accepts : (Instr.read 0x7F 1).wf = true ∧ (Instr.write 0x00 (List.replicate 128 0x00)).wf = true ∧
    (Instr.ctor (ControllerConfig.defaults true)).wf = true ∧ (Instr.writeFrame ⟨0x7FF, 1, [0x00]⟩ 2).wf = true := by
  decide +kernel

/-! ## Words written out from R111 and R112 -/

theorem test_decode_reset : decode CommandBytes.standard [0b11000000] = .ok .reset := by decide
theorem test_decode_read : decode CommandBytes.standard [0b00000011, 0b00001110, 0x00] = .ok (.read 0x0E 1) := by decide
theorem test_decode_read_none : decode CommandBytes.standard [0b00000011, 0b01100001] = .ok (.read 0x61 0) := by decide
theorem test_decode_write : decode CommandBytes.standard [0b00000010, 0b00101010, 0b01000100] = .ok (.write 0x2A [0x44]) := by decide
theorem test_decode_bitmod :
    decode CommandBytes.standard [0b00000101, 0b00101100, 0b00000001, 0b00000000] = .ok (.bitmod 0x2C 0x01 0x00) := by decide
theorem test_decode_rdstatus : decode CommandBytes.standard [0b10100000, 0b00000000] = .ok .rdstatus := by decide
theorem test_decode_empty : decode CommandBytes.standard [] = .error .emptyTransaction := by decide
theorem test_decode_readRxBuffer : decode CommandBytes.standard [0x90] = .error (.unknownCommand 0x90) := by decide

/-- R124: the transactions of the transport calls, byte for byte (L1.10). -/
theorem test_encode_transport :
    encode CommandBytes.standard .resetCall = some [0xC0] ∧ encode CommandBytes.standard (.readRegister 0x0E) = some [0x03, 0x0E, 0x00] ∧
    encode CommandBytes.standard (.writeRegister 0x2A (.byte 0x44)) = some [0x02, 0x2A, 0x44] ∧
    encode CommandBytes.standard (.writeRegister 0x00 (.bytes [0x01, 0x02])) = some [0x02, 0x00, 0x01, 0x02] ∧
    encode CommandBytes.standard (.modifyRegister 0x2C 0x01 0x00) = some [0x05, 0x2C, 0x01, 0x00] ∧
    encode CommandBytes.standard .readStatus = some [0xA0, 0x00] := by decide

/-- R125: no host call has a bit pattern. -/
theorem test_encode_hostCalls :
    encode CommandBytes.standard (.ctor (ControllerConfig.defaults false)) = none ∧ encode CommandBytes.standard (.readFrame 0) = none ∧ encode CommandBytes.standard .pollFrame = none ∧
    encode CommandBytes.standard (.writeFrame ⟨0x100, 0, []⟩ 0) = none ∧ encode CommandBytes.standard .isFrameAvailable = none ∧ encode CommandBytes.standard .getMode = none ∧
    encode CommandBytes.standard (.setMode (.enumerator .sleep)) = none := by decide

/-- The opcode table's words: its command byte lowest, later bytes above it. -/
theorem test_tableWords :
    decodeTableWord 8 0xC0 = some .reset ∧ decodeTableWord 8 0x03 = some (.read 0x00 0) ∧
    decodeTableWord 8 0x02 = some (.write 0x00 []) ∧ decodeTableWord 8 0x05 = some (.bitmod 0x00 0x00 0x00) ∧
    decodeTableWord 8 0xA0 = some .rdstatus ∧ decodeTableWord 32 0x00012C05 = some (.bitmod 0x2C 0x01 0x00) ∧
    decodeTableWord 24 0x442A02 = some (.write 0x2A [0x44]) ∧ decodeTableWord 8 0x81 = none := by decide

/-- The step runs the word placed by withFetchWord, first thing after reset. -/
theorem test_step_afterReset :
    answers (step (State.reset.withFetchWord 8 0xA0)) (fun t => decide (sent t = [[0xA0, 0x00]])) = true := by decide

/-- With nothing pending no step is taken. -/
theorem test_step_noInput : faults (step State.reset) .noInput = true := by decide

/-- S24, S25, S27: bytes that are no transaction have no step. -/
theorem test_step_refuses :
    refuses (step (blank.withTransaction [0x81])) (.notATransaction (.unknownCommand 0x81)) = true ∧
    refuses (step (blank.withTransaction [0x05, 0x2C, 0x01])) (.notATransaction (.wrongLength .bitmod 3)) = true ∧
    refuses (step (blank.withTransaction [0xA0, 0x00, 0x00])) (.notATransaction (.wrongLength .rdstatus 3)) = true := by
  decide

/-! ## A call is taken one exchange or one CANSIDE step at a time (R7, R95) -/

/-- The first step of readFrame(0) is its first READ and no more. -/
theorem test_step_callBegins :
    answers (step (calling (.readFrame 0) (rx0 0x01))) (fun t => decide (sent t = [[0x03, 0x61, 0, 0, 0, 0, 0]] ∧
      t.running.isSome ∧ t.inbox = [] ∧ t.result = none)) = true := by decide +kernel

/-- readFrame(0) after its first READ, with what that READ returned and the schedule given. -/
def reading (sched : List XferSlot) : State :=
  { rx0 0x01 with running := some ⟨.readFrame 0, [[0, 0, 0x24, 0x60, 0x00, 0x00, 0x01]]⟩, sched := sched }

/-- A CANSIDE step due before the second READ is a step of its own (R96); the READ is the next (R95). -/
theorem test_step_callGoesOn :
    answers (step (reading [⟨[.pins 0x38 0x00], .completes⟩])) (fun t => decide (t.bus = [] ∧ t.running.isSome ∧
      t.reg TXRTSCTRL = 0x38 ∧ t.sched = [⟨[], .completes⟩])) = true ∧
    answers (step (reading [⟨[], .completes⟩])) (fun t => decide (sent t = [[0x03, 0x60, 0x00]] ∧ t.running.isSome ∧
      t.sched = [])) = true := by decide +kernel

/-- The fourth exchange of readFrame(0) clears the flag and ends the call (R215). -/
theorem test_step_callEnds :
    answers (step ((rx0 0x01).setRunning (some ⟨.readFrame 0,
      [[0, 0, 0x24, 0x60, 0x00, 0x00, 0x01], [0, 0, 0x60], [0, 0, 0x01]]⟩))) (fun t => decide (t.running = none ∧
      t.reg CANINTF = 0x00 ∧ t.result = some (.returned (.frame ⟨0x123, 1, [0x01]⟩)))) = true := by decide +kernel

/-- R217: a call that ends before any bus access is one step; R303: a refused call has none; a failing exchange ends
the call in its step (R161). -/
theorem test_step_callWithoutBus :
    answers (step (calling (.readFrame 2) blank)) (fun t => decide (t.bus = [] ∧ t.running = none ∧
      t.result = some (.raised (.argument .bufferNumber)))) = true ∧
    refuses (step (calling .getMode (blank.setStatus .failed))) .hostNotReady = true ∧
    answers (step (calling .pollFrame { blank with sched := [⟨[], .failsUnchanged⟩] })) (fun t =>
      decide (t.running = none ∧ t.result = some (.raised (.transport .rdstatus none)))) = true := by decide +kernel

/-- R6: the chip's constants are arguments: another READ byte, other flag addresses and positions, other mode codes,
and rows of R36's table replaced. -/
theorem test_chip_parameters :
    answers (step ((odd blank).withTransaction [0x13, 0x0E, 0x00])) (fun t => decide (sent t = [[0x13, 0x0E, 0x00]])) =
      true ∧
    refuses (step ((odd blank).withTransaction [0x03, 0x0E, 0x00])) (.notATransaction (.unknownCommand 0x03)) = true ∧
    answers (exec (.write 0x2A [0x44]) (odd blank)) (fun t => decide (t.reg 0x2A = 0x44)) = true ∧
    answers (exec (.bitmod 0x2C 0x01 0xF0) (odd (holding [(0x2C, 0xFF)]))) (fun t => decide (t.reg 0x2C = 0xF0)) = true ∧
    answers (exec .reset (odd blank)) (fun t => decide (t.reg 0x2A = 0x11)) = true := by decide +kernel

/-- The same chip through the host calls. -/
theorem test_chip_calls :
    answers (exec .isFrameAvailable (odd (holding [(0x2B, 0x02)]))) (fun t =>
      decide (t.result = some (.returned (.bool true)))) = true ∧
    answers (exec (.setMode (.enumerator .sleep)) (odd blank)) (fun t =>
      decide (sent t = [[0x05, 0x0F, 0xE0, 0x40]])) = true ∧
    answers (exec (.readFrame 0) (odd (holding [(0x2B, 0x02), (0x68, 0x24), (0x69, 0x60)]))) (fun t =>
      decide (t.result = some (.returned (.frame ⟨0x123, 0, []⟩)) ∧ t.reg 0x2B = 0x00)) = true := by decide +kernel

/-- R37, R38: each register of a buffer has an address of its own; writeFrame writes SIDH, SIDL, DLC, the data registers
and CTRL there. -/
theorem test_chip_buffers :
    answers (exec (.writeFrame ⟨0x123, 2, [0xAA, 0xBB]⟩ 0) (odd blank)) (fun t => decide (sent t =
      [[0x02, 0x30, 0x24], [0x02, 0x31, 0x60], [0x02, 0x34, 0x02], [0x02, 0x3C, 0xAA], [0x02, 0x3B, 0xBB],
        [0x05, 0x3D, 0x08, 0x08]])) = true ∧
    answers (exec (.readFrame 0) (odd (holding [(0x6C, 0x01), (0x60, 0x09)]))) (fun t => decide (sent t =
      [[0x13, 0x68, 0x00, 0x00, 0x00, 0x00, 0x00], [0x13, 0x6D, 0x00], [0x13, 0x60, 0x00], [0x05, 0x2B, 0x02, 0x00]] ∧
      t.result = some (.returned (.frame ⟨0x000, 1, [0x09]⟩)))) = true := by decide +kernel

/-- R60 E1 and E5 on that chip: the thirteen values go to SIDH, SIDL, EID8, EID0, DLC and D0 to D7; buffer 0's pin has its
mode at bit 2 and its level at bit 5. -/
theorem test_chip_canSide :
    (let t := (odd blank).canStep (.receive 0 #v[1, 2, 3, 4, 5, 6, 7, 8, 9, 10, 11, 12, 13] 0x00)
     t.reg 0x68 = 1 ∧ t.reg 0x6B = 4 ∧ t.reg 0x6C = 5 ∧ t.reg 0x67 = 13 ∧ t.reg 0x2B = 0x02) ∧
    ((odd (holding [(TXRTSCTRL, 0x04)])).canStep (.pins 0x20 0x01)).reg 0x3D = 0x08 ∧
    ((odd (holding [(TXRTSCTRL, 0x01)])).canStep (.pins 0x20 0x01)).reg 0x3D = 0x00 ∧
    ((odd (holding [(TXRTSCTRL, 0x04)])).canStep (.pins 0x20 0x01)).reg TXRTSCTRL = 0x24 := by decide +kernel

/-! ## One step of every instruction -/

/-- S1. -/
theorem test_reset : answers (exec .reset (holding [(CANCTRL, 0x00), (CANINTF, 0x03), (CNF1, 0x44)]))
    (fun t => decide (t.reg CANCTRL = 0x87 ∧ t.reg CANSTAT = 0x80 ∧ t.reg CANINTF = 0x00 ∧ t.reg CNF1 = 0x00)) = true := by
  decide +kernel

/-- S2. -/
theorem test_read : answers (exec (.read 0x61 5) (rx0 0x02))
    (fun t => decide (captured 2 t = [some [0x24, 0x60, 0x00, 0x00, 0x02]] ∧ t.regs = (rx0 0x02).regs)) = true := by
  decide +kernel

/-- S4 and S26: a mirror of CANSTAT, and a transaction past the register file. -/
theorem test_read_mirror : answers (exec (.read 0x3E 1) (holding [(CANSTAT, 0x80)]))
    (fun t => decide (captured 2 t = [some [0x80]])) = true ∧
    refuses (exec (.read 0x7F 2) blank) .addressOutOfRange = true := by decide +kernel

/-- S5 and S6: a protected register, in Configure and in Normal mode. -/
theorem test_write_protected :
    answers (exec (.write 0x2A [0x44]) (holding [(CANSTAT, 0x80)])) (fun t => decide (t.reg CNF1 = 0x44)) = true ∧
    answers (exec (.write 0x2A [0x44]) blank) (fun t => decide (t.reg CNF1 = 0x00)) = true := by decide +kernel

/-- S8 to S10: CANSTAT takes no write, a mirror of CANCTRL does, read-only bits stay. -/
theorem test_write_masks :
    answers (exec (.write 0x3E [0x00]) (holding [(CANSTAT, 0x80)])) (fun t => decide (t.reg CANSTAT = 0x80)) = true ∧
    answers (exec (.write 0x5F [0x47]) (holding [(CANCTRL, 0x07)])) (fun t => decide (t.reg CANCTRL = 0x47)) = true ∧
    answers (exec (.write 0x30 [0xFF]) (holding [(0x30, 0x70)])) (fun t => decide (t.reg 0x30 = 0x7B)) = true := by
  decide +kernel

/-- S13, S14, S15. -/
theorem test_bitmod :
    answers (exec (.bitmod 0x2C 0x02 0x00) (holding [(CANINTF, 0xFF)])) (fun t => decide (t.reg CANINTF = 0xFD)) = true ∧
    answers (exec (.bitmod 0x2C 0x00 0xFF) (holding [(CANINTF, 0x00)])) (fun t => decide (t.reg CANINTF = 0x00)) = true ∧
    answers (exec (.bitmod 0x2C 0xFF 0x81) (holding [(CANINTF, 0x5A)])) (fun t => decide (t.reg CANINTF = 0x81)) = true := by
  decide +kernel

/-- S16: not bit-modify capable. -/
theorem test_bitmod_incapable : answers (exec (.bitmod 0x31 0x0F 0x05) (holding [(0x31, 0xAA)]))
    (fun t => decide (t.reg 0x31 = 0x05)) = true := by decide +kernel

/-- S20, S21, S22, S23. -/
theorem test_rdstatus :
    (holding [(CANINTF, 0x1C)]).statusByte = 0xA8 ∧ (holding [(0x30, 0x08), (0x50, 0x08)]).statusByte = 0x44 ∧
    (holding [(CANINTF, 0xA5), (0x40, 0x08)]).statusByte = 0x19 ∧
    (holding [(CANINTF, 0xFC), (0x30, 0x08), (0x40, 0x08), (0x50, 0x08)]).statusByte = 0xFC := by decide +kernel

/-- S19. -/
theorem test_rdstatus_step : answers (exec .rdstatus (holding [(CANINTF, 0x03)]))
    (fun t => decide (captured 1 t = [some [0x03]] ∧ t.reg CANINTF = 0x03)) = true := by decide +kernel

/-- L1.10. -/
theorem test_resetCall : answers (exec .resetCall (holding [(CANINTE, 0xFF)]))
    (fun t => decide (sent t = [[0xC0]] ∧ t.reg CANINTE = 0x00 ∧ t.result = some (.returned .unit))) = true := by
  decide +kernel

/-- P2 rows 3 and 4. -/
theorem test_readRegister : answers (exec (.readRegister 0x61 5) (rx0 0x02))
    (fun t => decide (t.result = some (.returned (.bytes [0x24, 0x60, 0x00, 0x00, 0x02])))) = true := by decide +kernel

/-- S5 through the call. -/
theorem test_writeRegister : answers (exec (.writeRegister 0x2A (.byte 0x44)) (holding [(CANSTAT, 0x80)]))
    (fun t => decide (t.reg CNF1 = 0x44 ∧ sent t = [[0x02, 0x2A, 0x44]])) = true := by decide +kernel

/-- The transport failure vector of L2.1 with k = 2: the filters hold a prefix of the bytes sent. -/
theorem test_writeRegister_fails :
    answers (exec (.writeRegister 0x00 (.bytes (List.replicate 12 0x00)))
      { holding [(CANSTAT, 0x80), (0x00, 0xAA), (0x01, 0xAB), (0x02, 0xAC)] with sched := [⟨[], .failsAfter 2⟩] })
    (fun t => decide (t.reg 0x00 = 0x00 ∧ t.reg 0x01 = 0x00 ∧ t.reg 0x02 = 0xAC ∧
      t.result = some (.raised (.transport .write (some 0x00))))) = true := by decide +kernel

/-- S12. -/
theorem test_modifyRegister : answers (exec (.modifyRegister 0x2C 0x01 0x00) (holding [(CANINTF, 0x23)]))
    (fun t => decide (t.reg CANINTF = 0x22 ∧ sent t = [[0x05, 0x2C, 0x01, 0x00]])) = true := by decide +kernel

/-- S22. -/
theorem test_readStatus : answers (exec .readStatus (holding [(CANINTF, 0xA5), (0x40, 0x08)]))
    (fun t => decide (t.result = some (.returned (.statusByte 0x19)))) = true := by decide +kernel

/-- P1, by its registers. -/
theorem test_ctor : answers (exec (.ctor (ControllerConfig.defaults false)) State.powerOn)
    (fun t => decide (t.status = .ready ∧ t.bus.length = 19 ∧ t.reg CNF1 = 0x00 ∧ t.reg CNF2 = 0xD9 ∧ t.reg CNF3 = 0x02 ∧
      t.reg CANINTE = 0xA7 ∧ t.reg CANCTRL = 0x07 ∧ t.reg CANSTAT = 0x80 ∧ t.reg 0x60 = 0x60 ∧ t.reg 0x70 = 0x60)) =
    true := by
  decide +kernel

/-- L2.2 and L2.9: an invalid field, with a failing bus that is never tried. -/
theorem test_ctor_rejects :
    answers (exec (.ctor { ControllerConfig.defaults false with sjw := 0, brp := 0 })
      { State.reset with sched := [⟨[], .failsUnchanged⟩] })
    (fun t => decide (t.status = .failed ∧ t.bus = [] ∧ t.result = some (.raised (.argument .sjw)))) = true := by
  decide +kernel

/-- L2.5, DLC 8 with bit 6 set, under a CANSIDE reception that the lock keeps out between T1 and T3. -/
theorem test_readFrame :
    answers (exec (.readFrame 0) { rx0 0x48 with
      sched := [⟨[], .completes⟩, ⟨[.receive 0 (Vector.replicate 13 0xFF) 0xFF], .completes⟩] })
    (fun t => decide (t.result = some (.returned (.frame ⟨0x123, 8, [0x01, 0x02, 0x03, 0x04, 0x05, 0x06, 0x07, 0x08]⟩)) ∧
      t.reg CANINTF = 0x00)) = true := by decide +kernel

/-- L2.5, DLC 9. -/
theorem test_readFrame_corrupt : answers (exec (.readFrame 0) (rx0 0x09))
    (fun t => decide (t.result = some (.raised (.corruptFrame 0 9)) ∧ t.reg CANINTF = 0x01 ∧
      sent t = [[0x03, 0x61, 0x00, 0x00, 0x00, 0x00, 0x00], [0x03, 0x60, 0x00]])) = true := by decide +kernel

/-- P5 rows 1 to 5: an extended RTR frame in buffer 0 while buffer 1 is full. -/
theorem test_pollFrame :
    answers (exec .pollFrame (holding [(CANINTF, 0x0B), (0x60, 0x68), (0x61, 0x91), (0x62, 0xA8), (0x63, 0x56),
      (0x64, 0x78), (0x65, 0x01), (0x66, 0x55)]))
    (fun t => decide (t.result = some (.returned (.frame ⟨0xD2345678, 1, [0x55]⟩)) ∧ t.reg CANINTF = 0x0A)) = true := by
  decide +kernel

/-- L1.11. -/
theorem test_pollFrame_none : answers (exec .pollFrame (holding [(CANINTF, 0xFC)]))
    (fun t => decide (t.result = some (.returned .noFrame) ∧ sent t = [[0xA0, 0x00]])) = true := by decide +kernel

/-- P3 rows 1 to 7. -/
theorem test_writeFrame : answers (exec (.writeFrame ⟨0x7FF, 3, [0x01, 0x02, 0x03]⟩ 1) blank)
    (fun t => decide (sent t = [[0x02, 0x41, 0xFF], [0x02, 0x42, 0xE0], [0x02, 0x45, 0x03], [0x02, 0x46, 0x01],
      [0x02, 0x47, 0x02], [0x02, 0x48, 0x03], [0x05, 0x40, 0x08, 0x08]] ∧ t.reg 0x40 = 0x08)) = true := by
  decide +kernel

/-- L2.7's validation vectors. -/
theorem test_writeFrame_rejects :
    frameFault ⟨0x100, 1, [0x00]⟩ 3 = some (.argument .bufferIndex) ∧
    frameFault ⟨0x100, 9, List.replicate 9 0x00⟩ 0 = some (.argument .payloadLength) ∧
    frameFault ⟨0x100, 2, [0x00]⟩ 0 = some (.argument .payloadLength) ∧
    frameFault ⟨0xA0000000, 0, []⟩ 0 = some (.argument .ident) ∧
    frameFault ⟨0x80000100, 0, []⟩ 0 = some .unsupported ∧ frameFault ⟨0x40000100, 0, []⟩ 0 = some .unsupported ∧
    frameFault ⟨0x800, 0, []⟩ 0 = some (.argument .ident) := by decide

/-- L2.8. -/
theorem test_isFrameAvailable :
    answers (exec .isFrameAvailable (holding [(CANINTF, 0x02)]))
      (fun t => decide (t.result = some (.returned (.bool true)))) = true ∧
    answers (exec .isFrameAvailable (holding [(CANINTF, 0xFC)]))
      (fun t => decide (t.result = some (.returned (.bool false)))) = true := by decide +kernel

/-- L2.8. -/
theorem test_getMode :
    answers (exec .getMode (holding [(CANSTAT, 0x6C)]))
      (fun t => decide (t.result = some (.returned (.mode (.mode .listenOnly))))) = true ∧
    answers (exec .getMode (holding [(CANSTAT, 0xE0)]))
      (fun t => decide (t.result = some (.returned (.mode (.invalid 7))))) = true := by decide +kernel

/-- L2.8. -/
theorem test_setMode :
    answers (exec (.setMode (.enumerator .listenOnly)) (holding [(CANCTRL, 0x1F)]))
      (fun t => decide (t.reg CANCTRL = 0x7F ∧ sent t = [[0x05, 0x0F, 0xE0, 0x60]])) = true ∧
    answers (exec (.setMode (.outside 5)) blank)
      (fun t => decide (t.bus = [] ∧ t.result = some (.raised (.argument .mode)))) = true := by decide +kernel

/-! ## The pure functions (L2.2, L2.3, L2.4) -/

theorem test_packing :
    (packCNF1 2 5, packCNF2 0 0x00 5 3, packCNF3 true false 4) = (0x44, 0x22, 0x83) ∧
    (packCNF1 3 10, packCNF2 0 0x40 8 1, packCNF3 false true 2) = (0x89, 0x78, 0x41) ∧
    (packCNF1 4 64, packCNF2 1 0x40 8 8, packCNF3 true true 8) = (0xFF, 0xFF, 0xC7) := by decide

theorem test_encodeStdId :
    encodeStdId 0x001 = (0x00, 0x20) ∧ encodeStdId 0x555 = (0xAA, 0xA0) ∧ encodeStdId 0x7FF = (0xFF, 0xE0) := by decide

theorem test_decodeIdent :
    decodeIdent 3 0x24 0x77 0x12 0x34 = 0x00000123 ∧ decodeIdent 3 0x00 0x09 0x00 0x01 = 0x80010001 ∧
    decodeIdent 3 0x91 0xA8 0x56 0x78 = 0x92345678 ∧ decodeIdent 3 0xFF 0xFF 0xFF 0xFF = 0x9FFFFFFF ∧
    tagRtr 3 0x68 (decodeIdent 3 0x24 0x60 0x00 0x00) = 0x40000123 := by decide

/-- R115's layout of 0x12345678. -/
theorem test_storeExtId : storeExtId 3 0x12345678 = (0x91, 0xA8, 0x56, 0x78) := by decide

/-- P2, P4: a CANSIDE reception into a free buffer; a full one keeps its registers. -/
theorem test_canStep_receive :
    ((holding [(CANINTF, 0x08)]).canStep (.receive 1 (Vector.replicate 13 0x09) 0x00)).reg CANINTF = 0x0A ∧
    ((rx0 0x02).canStep (.receive 0 (Vector.replicate 13 0x09) 0x00)).reg 0x65 = 0x02 := by decide +kernel

/-- P3's end and P6: a completed transmission; the mode reached after a request. -/
theorem test_canStep_done :
    ((holding [(0x40, 0x08)]).canStep (.transmitDone 1)).reg CANINTF = 0x08 ∧
    ((holding [(0x40, 0x08)]).canStep (.transmitDone 1)).reg 0x40 = 0x00 ∧
    ((holding [(CANCTRL, 0x27)]).canStep (.applyMode none)).reg CANSTAT = 0x20 := by decide +kernel

/-! ## Values that meet the statements' hypotheses

For each statement that has hypotheses, one theorem named after it: concrete states and operands that meet them
together, at the boundaries of their ranges where there are several clauses. -/

theorem next_of_answers {o : Host.Outcome State Fault Refusal} {p : State → Bool} (h : answers o p = true) :
    ∃ t, o = .next t ∧ p t = true := by
  cases o with
  | next t => exact ⟨t, rfl, h⟩
  | fault f => exact absurd h (by simp [answers])
  | refused r => exact absurd h (by simp [answers])

/-- Not Ready, with nothing else changed. -/
def unbuilt : State := blank.setStatus .unconstructed

/-- The n-th exchange fails, those before it complete. -/
def failingAt (n : Nat) (s : State) : State :=
  { s with sched := List.replicate n ⟨[], .completes⟩ ++ [⟨[], .failsUnchanged⟩] }

/-- A full receive buffer 1 with the DLC register given. -/
def rx1 (dlc : Byte) : State := holding [(CANINTF, 0x02), (0x71, 0x24), (0x72, 0x60), (0x75, dlc)]

theorem witness_ResetCommandLoadsEveryResetValue : blank.standard := rfl

theorem witness_StatusByteCollectsFlagsAndRequests : blank.standard := rfl

theorem witness_ReadReturnsImplementedBitsAndChangesNothing :
    ((0x7F : Byte).toNat ≤ 0x7F ∧ (0x7F : Byte).toNat + 1 ≤ 0x80) ∧ ((0x00 : Byte).toNat ≤ 0x7F ∧ (0x00 : Byte).toNat + 128 ≤ 0x80) ∧
    ¬((0x7F : Byte).toNat ≤ 0x7F ∧ (0x7F : Byte).toNat + 2 ≤ 0x80) ∧ ¬((0x80 : Byte).toNat ≤ 0x7F ∧ (0x80 : Byte).toNat + 0 ≤ 0x80) := by
  decide

theorem witness_WriteStoresThroughWriteMaskAndProtection :
    blank.standard ∧ ((0x2A : Byte).toNat ≤ 0x7F ∧ (0x2A : Byte).toNat + ([0x44] : List Byte).length ≤ 0x80) ∧
    ¬((0x7F : Byte).toNat ≤ 0x7F ∧ (0x7F : Byte).toNat + ([0x44, 0x45] : List Byte).length ≤ 0x80) ∧
    blank.chip.configProtected 0x2C = false ∧ blank.chip.configProtected 0x2A = true ∧
    (holding [(CANSTAT, 0x80)]).opmod = 4 ∧ blank.opmod ≠ 4 ∧ blank.params.protectedWriteEffect = .ignored ∧
    ({ blank with params := ⟨Chip.standard, .applied⟩ } : State).standard ∧
    ({ blank with params := ⟨Chip.standard, .draw⟩ } : State).standard :=
  ⟨rfl, by decide, by decide, by decide, by decide, by decide +kernel, by decide +kernel, rfl, rfl, rfl⟩

theorem witness_BitmodChangesOnlyMaskedBits :
    0x80 ≤ (0x80 : Byte).toNat ∧ (0x7F : Byte).toNat < 0x80 ∧ blank.chip.bitmodCapable 0x7F = true ∧
    blank.chip.bitmodCapable 0x31 = false ∧
    (blank.chip.configProtected 0x29 = true ∧ blank.opmod ≠ blank.chip.modes.configure) ∧
    blank.chip.configProtected 0x7F = false ∧ oddChip.bitmodCapable 0x2C = false := by decide +kernel

theorem witness_ReadOnlyRegistersTakeNoWrite :
    (rx0 0x02).standard ∧ (∃ t, exec (.write 0x6D [0xFF, 0xFF]) (rx0 0x02) = .next t) ∧ (∃ t, exec (.bitmod 0x1C 0xFF 0xFF) blank = .next t) ∧
    (0x7E % 16 = 14) ∧ 0x7D = rxb 1 + 13 := by
  refine ⟨rfl, ?_, ?_, by decide, by decide⟩ <;>
    exact (next_of_answers (p := fun _ => true) (by decide +kernel)).imp fun _ h => h.1

theorem witness_MirrorsNameOneRegister :
    blank.standard ∧ (0x7E < 0x80 ∧ 0x7E % 16 = 14) ∧ ((0x7F : Byte).toNat < 0x80 ∧ (0x7F : Byte).toNat % 16 = 15) ∧
    Chip.standard.home 0x0E = Chip.standard.home 0x7E := ⟨rfl, by decide, by decide, by decide⟩

theorem witness_RepeatedTransactionsAreIdempotent :
    (rx0 0x02).standard ∧ (∃ t, exec (.read 0x61 5) (rx0 0x02) = .next t) ∧ (∃ t, exec .rdstatus (rx0 0x02) = .next t) ∧
    blank.params.protectedWriteEffect ≠ .draw ∧ (∃ t, exec (.write 0x2C [0x00]) (rx0 0x02) = .next t) ∧
    (∃ t, exec (.bitmod 0x2C 0x01 0x00) (rx0 0x02) = .next t) := by
  refine ⟨rfl, ?_, ?_, by decide, ?_, ?_⟩ <;>
    exact (next_of_answers (p := fun _ => true) (by decide +kernel)).imp fun _ h => h.1

theorem witness_OnlyFiveFormsAreTransactions :
    (blank.withTransaction [0xC0, 0x00]).standard ∧ (blank.withTransaction [0xC0, 0x00]).running = none ∧
    (blank.withTransaction [0xC0, 0x00]).inbox = .link [0xC0, 0x00] :: [] ∧
    (blank.withTransaction [0x02, 0x2A]).inbox = .link [0x02, 0x2A] :: [] := ⟨rfl, rfl, rfl, rfl⟩

theorem witness_DecodeEncodeAgree :
    CommandBytes.standard.distinct ∧ oddChip.commands.distinct ∧
    (Instr.readRegister 0x7F 1).command? = some (.read 0x7F 1) ∧
    decode oddChip.commands [0x13, 0x7F, 0xFF] = .ok (.read 0x7F 1) ∧
    decode CommandBytes.standard [0x02, 0x2A] = .ok (.write 0x2A []) ∧
    decode CommandBytes.standard [0xA0, 0xFF] = .ok .rdstatus := by
  unfold CommandBytes.distinct; decide

theorem witness_StepRunsTheOldestInput :
    (blank.running = none ∧ (blank.withTransaction [0xA0, 0x00]).inbox = .link [0xA0, 0x00] :: [] ∧
      decode blank.chip.commands [0xA0, 0x00] = .ok .rdstatus) ∧
    ({ blank with inbox := [.canside (.overflow 0)] } : State).inbox = .canside (.overflow 0) :: [] ∧
    blank.inbox = [] ∧ blank.chip.commands = CommandBytes.standard ∧ decodeTableWord 8 0xC0 = some .reset :=
  ⟨⟨rfl, rfl, rfl⟩, rfl, rfl, rfl, by decide⟩

theorem witness_EveryStepIsOneExchangeOrOneCanSideStep :
    blank.chip.commands.distinct ∧
    (∃ t, step { blank with inbox := [.call .getMode] } = .next t) ∧
    (∃ t, step { blank with inbox := [.canside (.pins 0x38 0x00)] } = .next t) ∧
    (∃ t, step { blank with inbox := [.call (.readFrame 2)] } = .next t) := by
  refine ⟨distinct_standard, ?_, ?_, ?_⟩ <;> exact (next_of_answers (p := fun _ => true) (by decide +kernel)).imp fun _ h => h.1

theorem witness_CallsRunAsTheirSteps :
    blank.running = none ∧ (calling (.readFrame 0) (rx0 0x02)).inbox = .call (.readFrame 0) :: [] ∧
    (∀ c : Command, Instr.readFrame 0 ≠ c.toInstr) ∧ (∃ t, exec (.readFrame 0) (rx0 0x02) = .next t) ∧
    exec (.readFrame 0) unbuilt = .refused .hostNotReady ∧ Instr.rdstatus = Command.rdstatus.toInstr :=
  ⟨rfl, rfl, fun c => by cases c <;> simp [Command.toInstr],
    (next_of_answers (p := fun _ => true) (by decide +kernel)).imp fun _ h => h.1, rfl, rfl⟩

theorem witness_TransportCallsIssueOneTransaction :
    (blank.chip.commands.distinct ∧ oddChip.commands.distinct) ∧ blank.nextSlot.ending = .completes ∧ blank.standard ∧
    ({ blank with sched := [⟨[.pins 0x38 0x07], .completes⟩] } : State).nextSlot.ending = .completes ∧
    ((0x7F : Byte).toNat ≤ 0x7F ∧ (0x7F : Byte).toNat + 1 ≤ 0x80) ∧
    ((0x7F : Byte).toNat ≤ 0x7F ∧ (0x7F : Byte).toNat + (ByteOrBytes.byte 0x00).toList.length ≤ 0x80) ∧
    (0x7F : Byte).toNat < 0x80 :=
  ⟨by unfold CommandBytes.distinct; decide, rfl, rfl, rfl, by decide, by decide, by decide⟩

theorem witness_AddressesPastTheFileAreRefused :
    blank.chip.commands.distinct ∧ 0x7F < (0x80 : Byte).toNat ∧ 0x80 < (0x7F : Byte).toNat + 2 ∧
    0x80 < (0x7F : Byte).toNat + (ByteOrBytes.bytes [0x00, 0x00]).toList.length :=
  ⟨distinct_standard, by decide, by decide, by decide⟩

theorem witness_FailedExchangeRaisesTransportError :
    let s : State := { blank with sched := [⟨[], .failsAfter 1⟩] }
    s.chip.commands.distinct ∧ (Instr.writeRegister 0x00 (.bytes [0x01, 0x02])).command? = some (.write 0x00 [0x01, 0x02]) ∧
    Instr.writeRegister 0x00 (.bytes [0x01, 0x02]) ≠ (Command.write 0x00 [0x01, 0x02]).toInstr ∧
    commandAdmitted (.write 0x00 [0x01, 0x02]) = true ∧ s.nextSlot.ending = .failsAfter 1 ∧
    s.nextSlot.ending ≠ .completes ∧ (failingAt 0 blank).nextSlot.ending = .failsUnchanged ∧
    ({ blank with sched := [⟨[], .failsApplied⟩] } : State).nextSlot.ending = .failsApplied :=
  ⟨distinct_standard, by decide⟩

theorem witness_FailedExchangeEndsTheCall :
    (∀ c : Command, Instr.readFrame 0 ≠ c.toInstr) ∧
    ∃ t, exec (.readFrame 0) (failingAt 1 (rx0 0x02)) = .next t ∧
      decide (t.bus.getLast?.map (·.miso) = some none ∧ t.result = some (.raised (.transport .read (some 0x60)))) = true :=
  ⟨fun c => by cases c <;> simp [Command.toInstr], next_of_answers (by decide +kernel)⟩

theorem witness_CanSideNeverDoes :
    ((rx0 0x02).standard ∧ (rx1 0x02).standard) ∧ (rx0 0x02).rxFlag 0 = true ∧ (rx1 0x02).rxFlag 1 = true ∧
    (holding [(TXRTSCTRL, 0x07)]).txRequested 2 = false ∧
    ((holding [(TXRTSCTRL, 0x07)]).canStep (.pins 0x00 0x04)).txRequested 2 = true :=
  ⟨⟨rfl, rfl⟩, by decide +kernel⟩

theorem witness_CanSideReceivesAndTransmits :
    (blank.standard ∧ (rx1 0x02).standard ∧ (holding [(CANINTF, 0x03)]).standard ∧ (holding [(0x50, 0x08)]).standard) ∧
    blank.rxFlag 1 = false ∧ (rx1 0x02).rxFlag 1 = true ∧
    ((holding [(CANINTF, 0x03)]).rxFlag 0 = true ∧ (holding [(CANINTF, 0x03)]).rxFlag 1 = true) ∧
    (rx0 0x02).rxFlag 1 = false ∧ (holding [(0x50, 0x08)]).txRequested 2 = true ∧ blank.txRequested 2 = false :=
  ⟨⟨rfl, rfl, rfl, rfl⟩, by decide +kernel⟩

theorem witness_CanSideErrorsModesAndPins :
    ((holding [(CANCTRL, 0x80)]).standard ∧ (holding [(CANCTRL, 0xA0)]).standard ∧ (holding [(CANSTAT, 0x20)]).standard) ∧
    (holding [(CANCTRL, 0x80)]).reqop.toNat ≤ 4 ∧ 4 < (holding [(CANCTRL, 0xA0)]).reqop.toNat ∧
    (holding [(CANSTAT, 0x20)]).opmod = 1 ∧ blank.opmod ≠ 1 ∧
    (holding [(TXRTSCTRL, 0x04)]).reg TXRTSCTRL &&& 0x04 &&& (1#8 <<< 2) ≠ 0 :=
  ⟨⟨rfl, rfl, rfl⟩, by decide +kernel⟩

theorem witness_ModeChangesOnlyByResetOrCanSide :
    blank.standard ∧ blank.canQuiet ∧ Instr.setMode (.enumerator .sleep) ≠ .reset ∧ Instr.setMode (.enumerator .sleep) ≠ .resetCall ∧
    (∀ c, Instr.setMode (.enumerator .sleep) ≠ .ctor c) ∧ ∃ t, exec (.setMode (.enumerator .sleep)) blank = .next t :=
  ⟨rfl, blank_canQuiet, by decide, by decide, by simp,
    (next_of_answers (p := fun _ => true) (by decide +kernel)).imp fun _ h => h.1⟩

theorem witness_PackedTimingFieldsAreExact :
    (1 ≤ 4 ∧ 4 ≤ 4 ∧ 1 ≤ 64 ∧ 64 ≤ 64) ∧ (1 ≤ 1 ∧ 0x40 = 0x40 ∧ 1 ≤ 8 ∧ 8 ≤ 8) ∧ packCNF1 1 1 = 0x00 ∧
    packCNF2 0 0x00 1 1 = 0x00 ∧ packCNF3 false false 1 = 0x00 := by decide

theorem witness_ConfigValidationReportsFirstFault :
    unbuilt.status = .unconstructed ∧
    configFault { ControllerConfig.defaults false with brp := 65 } = some .brp ∧
    configFault { ControllerConfig.defaults false with propSeg := 0 } = some .propSeg ∧
    configFault { ControllerConfig.defaults false with phaseSeg1 := 9 } = some .phaseSeg1 ∧
    configFault { ControllerConfig.defaults false with phaseSeg2 := 9 } = some .phaseSeg2 ∧
    configFault { ControllerConfig.defaults false with samplingMode := 0x41 } = some .samplingMode ∧
    configFault { ControllerConfig.defaults false with baudRateSelect := 2 } = some .baudRateSelect ∧
    configFault { ControllerConfig.defaults false with sjw := 0, brp := 0 } = some .sjw ∧
    configFault { ControllerConfig.defaults true with sjw := 4, brp := 64, propSeg := 8 } = none := by decide

theorem witness_IdentifierRoundTrips : (0x7FF : IdentWord) ≤ SFF_MASK ∧ (0x1FFFFFFF : IdentWord) ≤ EFF_MASK := by decide

theorem witness_FrameValidationReportsFirstFault :
    blank.status = .ready ∧ frameFault ⟨0x80000100, 0, []⟩ 0 = some .unsupported ∧
    frameFault ⟨0x7FF, 8, List.replicate 8 0x00⟩ 2 = none := by decide

theorem witness_ReadFrameDecodesTheBuffer :
    ((rx0 0x08).standard ∧ (rx0 0x08).status = .ready ∧ 0 < 2 ∧ (rx0 0x08).busCompletes ∧ (rx0 0x08).rxFlag 0 = true ∧
      (rx0 0x08).rxDlc 0 ≤ 8) ∧
    ((rx0 0x08).rxFlag 1 = false ∧ (rx0 0x08).canQuiet ∧ (rx0 0x08).rxDlc 1 ≤ 8) :=
  ⟨⟨rfl, rfl, by decide, busCompletes_of_nil rfl, by decide +kernel, by decide +kernel⟩, by decide +kernel,
    canQuiet_of_nil rfl, by decide +kernel⟩

theorem witness_ReadFrameReportsCorruptDlc :
    (rx0 0x09).standard ∧ (rx0 0x09).status = .ready ∧ (rx0 0x09).busCompletes ∧ 8 < (rx0 0x09).beforeXfer.rxDlc 0 ∧
    (rx0 0x09).rxFlag 0 = true ∧ (rx0 0x09).canQuiet ∧ 8 < (rx1 0x0F).beforeXfer.rxDlc 1 :=
  ⟨rfl, rfl, busCompletes_of_nil rfl, by decide +kernel, by decide +kernel, canQuiet_of_nil rfl, by decide +kernel⟩

theorem witness_ReadFrameChecksIndexBeforeBus : blank.status = .ready ∧ 2 ≤ 2 := by decide

theorem witness_PollFollowsStatusByte :
    (blank.standard ∧ blank.status = .ready ∧ blank.busCompletes ∧ blank.beforeXfer.rxFlag 0 = false ∧ blank.beforeXfer.rxFlag 1 = false) ∧
    ((rx0 0x08).beforeXfer.rxFlag 0 = true ∧ (rx0 0x08).beforeXfer.rxDlc 0 ≤ 8) ∧
    ((rx1 0x00).beforeXfer.rxFlag 0 = false ∧ (rx1 0x00).beforeXfer.rxFlag 1 = true ∧ (rx1 0x00).beforeXfer.rxDlc 1 ≤ 8) ∧
    ((rx0 0x09).beforeXfer.rxFlag 0 = true ∧ 8 < (rx0 0x09).beforeXfer.rxDlc 0) ∧
    ((rx1 0x0F).beforeXfer.rxFlag 1 = true ∧ 8 < (rx1 0x0F).beforeXfer.rxDlc 1) :=
  ⟨⟨rfl, rfl, blank_busCompletes, by decide +kernel, by decide +kernel⟩, by decide +kernel, by decide +kernel,
    by decide +kernel, by decide +kernel⟩

theorem witness_CorruptFrameHidesBufferOne :
    (rx0 0x09).standard ∧ (rx0 0x09).status = .ready ∧ (rx0 0x09).busCompletes ∧ (rx0 0x09).rxFlag 0 = true ∧ (rx0 0x09).rxDlc 0 = 9 ∧ 8 < 9 :=
  ⟨rfl, rfl, busCompletes_of_nil rfl, by decide +kernel, by decide +kernel, by decide⟩

theorem witness_OtherFlagsSurviveHostCalls :
    let both := (rx0 0x02).putReg CANINTF 0x07
    both.standard ∧ needsReady (.readFrame 0) = true ∧ (both.reg CANINTF)[1] = true ∧ (both.reg CANINTF)[2] = true ∧
    (∃ t, exec (.readFrame 0) both = .next t) ∧ needsReady .pollFrame = true ∧ both.beforeXfer.statusByte[0] = true ∧
    (∃ t, exec .pollFrame both = .next t ∧ decide (t.reg CANINTF = 0x06) = true) :=
  ⟨rfl, rfl, by decide +kernel, by decide +kernel,
    (next_of_answers (p := fun _ => true) (by decide +kernel)).imp fun _ h => h.1, rfl, by decide +kernel,
    next_of_answers (by decide +kernel)⟩

theorem witness_HostCallsSetNoInterruptFlag :
    (rx0 0x02).standard ∧ needsReady .pollFrame = true ∧ (rx0 0x02).canQuiet ∧
    ∃ t, exec .pollFrame ((rx0 0x02).putReg CANINTF 0x23) = .next t ∧ decide (t.reg CANINTF = 0x22) = true :=
  ⟨rfl, rfl, canQuiet_of_nil rfl, next_of_answers (by decide +kernel)⟩

theorem witness_FlagClearIsMaskedModify :
    (holding [(CANINTF, 0xFF)]).standard ∧ 1 < 2 ∧ (holding [(CANINTF, 0xFF)]).nextSlot.ending = .completes :=
  ⟨rfl, by decide, rfl⟩

theorem witness_WriteFrameLaysOutTheFrame :
    blank.standard ∧ blank.status = .ready ∧ blank.busCompletes ∧ frameFault ⟨0x7FF, 8, List.replicate 8 0x55⟩ 2 = none ∧
    frameFault ⟨0x000, 0, []⟩ 0 = none ∧ blank.canQuiet :=
  ⟨rfl, rfl, blank_busCompletes, by decide, by decide, blank_canQuiet⟩

theorem witness_WriteFrameRejectsBeforeBus :
    blank.status = .ready ∧ frameFault ⟨0x100, 0, []⟩ 3 = some (.argument .bufferIndex) := by decide

theorem witness_AvailabilityIsTheReceiveFlags :
    (rx1 0x00).standard ∧ (rx1 0x00).status = .ready ∧ (rx1 0x00).nextSlot.ending = .completes := ⟨rfl, rfl, rfl⟩

theorem witness_GetModeReportsModeInEffect :
    blank.standard ∧ blank.status = .ready ∧ blank.nextSlot.ending = .completes ∧ blank.beforeXfer.opmod = 0 ∧
    (holding [(CANSTAT, 0x80)]).beforeXfer.opmod = 4 ∧ 5 ≤ (holding [(CANSTAT, 0xA0)]).beforeXfer.opmod.toNat ∧
    5 ≤ (holding [(CANSTAT, 0xE0)]).beforeXfer.opmod.toNat := ⟨rfl, rfl, rfl, by decide +kernel, by decide +kernel,
      by decide +kernel, by decide +kernel⟩

theorem witness_SetModeWritesOnlyTheRequest :
    blank.standard ∧ blank.status = .ready ∧ blank.nextSlot.ending = .completes ∧
    (Mode.configure, (4 : Byte)) ∈ [(Mode.normal, (0 : Byte)), (.sleep, 1), (.loopback, 2), (.listenOnly, 3), (.configure, 4)] :=
  ⟨rfl, rfl, rfl, by decide⟩

theorem witness_ConstructionReachesItsEndState :
    unbuilt.standard ∧ unbuilt.status = .unconstructed ∧ unbuilt.busCompletes ∧ unbuilt.canQuiet ∧
    configFault (ControllerConfig.defaults true) = none ∧ configFault (ControllerConfig.defaults false) = none :=
  ⟨rfl, rfl, busCompletes_of_nil rfl, canQuiet_of_nil rfl, by decide, by decide⟩

theorem witness_ConstructionIssuesItsTransactionsInOrder :
    unbuilt.standard ∧ unbuilt.status = .unconstructed ∧ unbuilt.busCompletes ∧ configFault (ControllerConfig.defaults false) = none ∧
    ∃ t, exec (.ctor (ControllerConfig.defaults false)) unbuilt = .next t :=
  ⟨rfl, rfl, busCompletes_of_nil rfl, by decide,
    (next_of_answers (p := fun _ => true) (by decide +kernel)).imp fun _ h => h.1⟩

theorem witness_ConstructionRejectsBadConfiguration :
    unbuilt.status = .unconstructed ∧ configFault { ControllerConfig.defaults false with sjw := 5 } = some .sjw := by decide

theorem witness_ConstructionFailsWithTheFirstExchange :
    (∀ n, n = 0 ∨ n = 18 →
      (failingAt n unbuilt).standard ∧ (failingAt n unbuilt).status = .unconstructed ∧ n < 19 ∧
      (∀ j, j < n → ∀ x, (failingAt n unbuilt).sched[j]? = some x → x.ending = .completes) ∧
      ∃ x, (failingAt n unbuilt).sched[n]? = some x ∧ x.ending ≠ .completes) ∧
    configFault (ControllerConfig.defaults false) = none := by
  refine ⟨?_, by decide⟩
  rintro n (rfl | rfl)
  · exact ⟨rfl, rfl, by decide, fun j hj => absurd hj (by omega), _, rfl, by decide⟩
  · refine ⟨rfl, rfl, by decide, fun j hj x hx => ?_, _, rfl, by decide⟩
    have : ∀ j : Fin 18, (failingAt 18 unbuilt).sched[j.val]?.map (·.ending) = some .completes := by decide
    have := this ⟨j, hj⟩
    simp only [hx] at this
    simpa using this

theorem witness_HostCallsNeedTheirStatus :
    needsReady .getMode = true ∧ unbuilt.status ≠ .ready ∧ (blank.setStatus .failed).status ≠ .ready ∧
    blank.status ≠ .unconstructed := by decide

theorem witness_HostCallsAlwaysEnd :
    (failingAt 2 blank).standard ∧ needsReady (.writeFrame ⟨0x100, 1, [0x00]⟩ 0) = true ∧ (failingAt 2 blank).status = .ready ∧
    (failingAt 2 unbuilt).status = .unconstructed := ⟨rfl, rfl, rfl, rfl⟩

theorem witness_TransactionCountsAreBounded :
    ∃ t, exec (.writeFrame ⟨0x555, 8, List.replicate 8 0x10⟩ 2) blank = .next t ∧ decide (t.bus.length = 12) = true :=
  next_of_answers (by decide +kernel)

theorem witness_HostCallsWriteNoFlagOrModeRegister :
    blank.standard ∧ (Instr.writeFrame ⟨0x123, 0, []⟩ 0).command? = none ∧
    (∃ t, exec (.writeFrame ⟨0x123, 0, []⟩ 0) blank = .next t ∧ decide ([0x02, 0x31, 0x24] ∈ sent t) = true) ∧
    decodeCommand CommandBytes.standard [0x02, 0x31, 0x24] = .ok (.write 0x31 [0x24]) :=
  ⟨rfl, rfl, next_of_answers (by decide +kernel), by decide⟩

theorem witness_EveryStepKeepsTheInvariant :
    (blank.withTransaction [0x02, 0x30, 0xFF]).Inv ∧
    (∃ t, step (blank.withTransaction [0x02, 0x30, 0xFF]) = .next t) ∧
    (blank.setRunning (some ⟨.getMode, []⟩)).Inv ∧ ∃ t, step (blank.setRunning (some ⟨.getMode, []⟩)) = .next t := by
  have zero : ∀ s : State, s.regs = blank.regs → s.chip = blank.chip → s.implementedOnly ∧ s.modeLegal := by
    intro s hr hc
    have h0 : ∀ a : Fin 128, blank.reg a.val &&& ~~~blank.chip.impl a.val = 0 := by decide +kernel
    have h1 : blank.opmod.toNat ≤ 4 := by decide +kernel
    refine ⟨fun a ha => ?_, ?_⟩
    · unfold State.reg; rw [hr, hc]; exact h0 ⟨a, ha⟩
    · unfold State.modeLegal State.opmod State.reg; rw [hr, hc]; exact h1
  refine ⟨⟨rfl, (zero _ rfl rfl).1, (zero _ rfl rfl).2, fun _ => ⟨_, rfl, by decide⟩, ?_⟩, ?_,
    ⟨rfl, (zero _ rfl rfl).1, (zero _ rfl rfl).2, fun _ => ⟨_, rfl, by decide⟩, ?_⟩, ?_⟩
  · intro r hr; cases hr
  · exact (next_of_answers (p := fun _ => true) (by decide +kernel)).imp fun _ h => h.1
  · intro r hr
    obtain rfl : _ = r := by simpa using hr
    exact ⟨rfl, rfl, fun c hc => by cases hc⟩
  · exact (next_of_answers (p := fun _ => true) (by decide +kernel)).imp fun _ h => h.1

end Sys2Proof.Tests
end

section
/-! PROOFS. What one step is, and how a call runs as its steps (00_scope.md: R6, R7; R95, R96, R160, R161, R319): the
step on each kind of oldest input, the three kinds of step, and a call followed from its first step to its end. -/

namespace Sys2Proof.Machine

/-! ## A step takes the oldest pending input (R95, log 6) -/

section
variable {s : State} {rest : List Input}

theorem State.took_eq {x : Input} (h : s.inbox = x :: rest) : s.took = { s with inbox := rest } := by
  simp [State.took, h]

theorem step_of_running {r : Running} (h : s.running = some r) : step s = s.continueCall r := by
  simp [step, h]

theorem step_of_inbox_cons (hr : s.running = none) {x : Input} (h : s.inbox = x :: rest) :
    step s = runInput { s with inbox := rest } x := by
  simp [step, hr, takeInput, h, State.took_eq h]

theorem step_of_inbox_nil (hr : s.running = none) (h : s.inbox = []) : step s = .fault .noInput := by
  simp [step, hr, takeInput, h]

theorem runInput_link {mosi : List Byte} {i : Instr} (h : decode s.chip.commands mosi = .ok i) :
    runInput s (.link mosi) = exec i s := by
  simp [runInput, h]

theorem step_withTransaction {mosi : List Byte} {i : Instr} (h : decode s.chip.commands mosi = .ok i) :
    step (s.withTransaction mosi) = exec i { s with running := none } :=
  (step_of_inbox_cons rfl rfl).trans (runInput_link (s := { s with running := none }) h)

end

theorem decode_of_decodeTableWord {nbits w : Nat} {i : Instr} (h : decodeTableWord nbits w = some i) :
    decode CommandBytes.standard (tableTransaction nbits w) = .ok i := by
  unfold decodeTableWord at h
  split at h
  next j hj => rw [hj, Option.some.inj h]
  next => cases h

/-- Settles O14: the step on each kind of oldest input, and on the transaction that `withFetchWord` places. -/
theorem stepRunsTheOldestInput : Obligations.StepRunsTheOldestInput := by
  unfold Obligations.StepRunsTheOldestInput
  refine ⟨fun s rest hr => ⟨fun mosi i hi hd => ?_, fun e hi => ?_, step_of_inbox_nil hr⟩,
    fun s nbits w i hc hw => ?_⟩
  · exact (step_of_inbox_cons hr hi).trans (runInput_link (s := { s with inbox := rest }) hd)
  · exact step_of_inbox_cons hr hi
  · exact step_withTransaction (hc ▸ decode_of_decodeTableWord hw)

/-! ## The three kinds of step (R95, R161, log 1) -/

/-- From s to t is one recorded transaction: ENGINE's full effect where it completed, one of R161's where it failed. -/
def IsExchange (s t : State) : Prop :=
  ∃ mosi miso c ending, decodeCommand s.chip.commands mosi = .ok c ∧
    (t.bus = s.bus ++ [⟨mosi, miso⟩] ∨ t.bus = [⟨mosi, miso⟩]) ∧
    (miso.isSome = true → t.regs = (s.engineEffect c).regs) ∧
    (miso = none → t.regs = (s.failedEffect c ending).regs)

/-- From s to t is one CANSIDE step: no transaction, no free value taken, HOST's status and result as they were. -/
def IsCanSideStep (s t : State) : Prop :=
  ∃ e, t.regs = (s.canStep e).regs ∧ (t.bus = s.bus ∨ t.bus = []) ∧ t.draws = s.draws ∧
    t.status = s.status ∧ t.result = s.result

/-- From s to t a call ends with no bus access. -/
def IsQuietEnd (s t : State) : Prop :=
  t.regs = s.regs ∧ (t.bus = s.bus ∨ t.bus = []) ∧ t.sched = s.sched ∧ t.draws = s.draws ∧ t.running = none

/-- From s to t is one step of one of the three kinds, with the parameters kept (R6). -/
def IsOneStep (s t : State) : Prop :=
  t.params = s.params ∧ (IsExchange s t ∨ IsCanSideStep s t ∨ IsQuietEnd s t)

/-- u is s as a step's action meets it: the input may be taken, the record of exchanges cleared, HOST's configuration
and place in a call set; all else is as in s. -/
structure SameBefore (s u : State) : Prop where
  engine : sameEngine s u
  sched  : u.sched = s.sched
  status : u.status = s.status
  result : u.result = s.result
  bus    : u.bus = s.bus ∨ u.bus = []

theorem SameBefore.refl (s : State) : SameBefore s s := ⟨⟨rfl, rfl, rfl⟩, rfl, rfl, rfl, .inl rfl⟩

theorem SameBefore.took (s : State) : SameBefore s s.took := ⟨⟨rfl, rfl, rfl⟩, rfl, rfl, rfl, .inl rfl⟩

theorem SameBefore.callBegun {s u : State} (h : SameBefore s u) (i : Instr) : SameBefore s (u.callBegun i) :=
  ⟨⟨by simpa using h.engine.regs, by simpa using h.engine.params, by simpa using h.engine.draws⟩,
    by simpa using h.sched, by simpa using h.status, by simpa using h.result, .inr (by simp)⟩

theorem sameEngine.clearBus {s t : State} (h : sameEngine s t) : sameEngine s t.clearBus := ⟨h.regs, h.params, h.draws⟩

theorem sameEngine.slotTaken {s t : State} (h : sameEngine s t) : sameEngine s t.slotTaken :=
  ⟨h.regs, h.params, h.draws⟩

theorem sameEngine.failedEffect {s t : State} (h : sameEngine s t) (c : Command) (x : XferEnd) :
    sameEngine (s.failedEffect c x) (t.failedEffect c x) := by
  cases x with
  | completes => exact h
  | failsUnchanged => exact h
  | failsApplied => exact h.engineEffect c
  | failsAfter k =>
    cases c with
    | write a ds => exact h.storeRegs _ _
    | reset => exact h
    | read a n => exact h
    | bitmod a m v => exact h
    | rdstatus => exact h

section
variable {s u v t : State}

/-- What happens to HOST's own state after an exchange is no part of it. -/
theorem IsExchange.congr (h : IsExchange s v) (hr : t.regs = v.regs) (hb : t.bus = v.bus) : IsExchange s t := by
  unfold IsExchange
  rw [hr, hb]
  exact h

theorem isExchange_engine (he : sameEngine s u) (hb : u.bus = s.bus ∨ u.bus = []) {mosi : List Byte} {c : Command}
    (hc : decodeCommand s.chip.commands mosi = .ok c) (miso : List Byte) :
    IsExchange s ((u.engine c).2.logged ⟨mosi, some miso⟩) :=
  ⟨mosi, some miso, c, .completes, hc, by simpa [State.engine_snd] using hb,
    fun _ => (he.engineEffect c).regs.symm, fun hn => by simp at hn⟩

theorem isExchange_failedEffect (he : sameEngine s u) (hb : u.bus = s.bus ∨ u.bus = []) {mosi : List Byte}
    {c : Command} (hc : decodeCommand s.chip.commands mosi = .ok c) (x : XferEnd) :
    IsExchange s ((u.failedEffect c x).logged ⟨mosi, none⟩) :=
  ⟨mosi, none, c, x, hc, by simpa using hb, fun hs => by simp at hs, fun _ => (he.failedEffect c x).regs.symm⟩

theorem State.exchange_completed_params {mosi miso : List Byte} {x : XferEnd}
    (hx : u.exchange mosi x = .completed miso v) : v.params = u.params := by
  obtain ⟨c, -, -, -, -, rfl⟩ := State.exchange_completed hx
  simp [State.engine_snd]

theorem State.exchange_failed_params {mosi : List Byte} {x : XferEnd} {e : HostError}
    (hx : u.exchange mosi x = .failed e v) : v.params = u.params := by
  obtain ⟨c, -, -, -, -, rfl⟩ := State.exchange_failed hx
  simp

theorem isExchange_of_completed (he : sameEngine s u) (hb : u.bus = s.bus ∨ u.bus = []) {mosi miso : List Byte}
    {x : XferEnd} (hx : u.exchange mosi x = .completed miso v) : IsExchange s v := by
  obtain ⟨c, hc, -, -, -, rfl⟩ := State.exchange_completed hx
  exact isExchange_engine he hb (he.chip ▸ hc) miso

theorem isExchange_of_failed (he : sameEngine s u) (hb : u.bus = s.bus ∨ u.bus = []) {mosi : List Byte}
    {x : XferEnd} {e : HostError} (hx : u.exchange mosi x = .failed e v) : IsExchange s v := by
  obtain ⟨c, hc, -, -, -, rfl⟩ := State.exchange_failed hx
  exact isExchange_failedEffect he hb (he.chip ▸ hc) x

end

section
variable (i : Instr) (responses : List (List Byte)) (s : State) (p : Prog)

@[simp] theorem State.settled_regs : (s.settled i responses p).regs = s.regs := by
  cases p <;> simp [State.settled]
@[simp] theorem State.settled_bus : (s.settled i responses p).bus = s.bus := by
  cases p <;> simp [State.settled]
@[simp] theorem State.settled_params : (s.settled i responses p).params = s.params := by
  cases p <;> simp [State.settled]

end

section
variable {s u t : State}

theorem isOneStep_callEnded (h : SameBefore s u) (i : Instr) (r : Result) : IsOneStep s (u.callEnded i r) :=
  ⟨by simpa using h.engine.params.symm, .inr (.inr ⟨by simpa using h.engine.regs.symm, by simpa using h.bus,
    by simpa using h.sched, by simpa using h.engine.draws.symm, by simp⟩)⟩

/-- A step of a call is one exchange, one CANSIDE step, or the call's end. -/
theorem isOneStep_of_callStep (h : SameBefore s u) {i : Instr} {responses : List (List Byte)} {p : Prog}
    (hstep : u.callStep i responses p = .next t) : IsOneStep s t := by
  rcases State.callStep_cases hstep with ⟨v, -, rfl⟩ | ⟨e, -, rfl⟩ | ⟨mosi, next, -, hx⟩
  · exact isOneStep_callEnded h i _
  · exact isOneStep_callEnded h i _
  rcases hx with ⟨e, es, -, rfl⟩ | ⟨-, ⟨miso, v, hx, rfl⟩ | ⟨e, v, hx, rfl⟩⟩
  · have hf : sameFile u.canStepTaken s := ⟨h.engine.chip.symm, h.engine.regs.symm⟩
    exact ⟨by simpa using h.engine.params.symm, .inr (.inl ⟨e, (hf.canStep e).regs, by simpa using h.bus,
      by simpa using h.engine.draws.symm, by simpa using h.status, by simpa using h.result⟩)⟩
  · exact ⟨by simpa [State.exchange_completed_params hx] using h.engine.params.symm,
      .inl ((isExchange_of_completed h.engine.slotTaken h.bus hx).congr (by simp) (by simp))⟩
  · exact ⟨by simpa [State.exchange_failed_params hx] using h.engine.params.symm,
      .inl ((isExchange_of_failed h.engine.slotTaken h.bus hx).congr (by simp) (by simp))⟩

theorem isOneStep_of_linkCommand (hd : s.chip.commands.distinct) (h : SameBefore s u) {c : Command}
    (hstep : linkCommand c u = .next t) : IsOneStep s t := by
  obtain ⟨-, rfl⟩ := linkCommand_next.1 hstep
  exact ⟨by simpa [State.engine_snd] using h.engine.params.symm,
    .inl (isExchange_engine h.engine.clearBus (.inr rfl) (h.engine.chip ▸ decodeCommand_encodeCommand hd c) _)⟩

theorem isOneStep_of_continueCall {r : Running} (hstep : s.continueCall r = .next t) : IsOneStep s t := by
  unfold State.continueCall at hstep
  split at hstep
  · obtain rfl : s.setRunning none = t := by simpa using hstep
    exact ⟨rfl, .inr (.inr ⟨rfl, .inl rfl, rfl, rfl, rfl⟩)⟩
  · exact isOneStep_of_callStep (.refl s) hstep

theorem isOneStep_of_beginCall (hd : s.chip.commands.distinct) {i : Instr} (hstep : s.took.beginCall i = .next t) :
    IsOneStep s t := by
  rcases State.beginCall_cases hstep with ⟨c, -, hc⟩ | ⟨p, -, -, hp⟩
  · exact isOneStep_of_linkCommand hd (.took s) hc
  · exact isOneStep_of_callStep ((SameBefore.took s).callBegun i) hp

theorem isOneStep_canStep (s : State) (e : CanStep) : IsOneStep s (s.took.canStep e) :=
  ⟨by simp, .inr (.inl ⟨e, (sameFile.canStep (s := s.took) (t := s) ⟨rfl, rfl⟩ e).regs, by simp, by simp, by simp,
    by simp⟩)⟩

theorem isOneStep_of_step (hd : s.chip.commands.distinct) (h : step s = .next t) : IsOneStep s t := by
  rcases step_cases h with ⟨r, -, hr⟩ | ⟨-, rest, ⟨mosi, c, -, -, hc⟩ | ⟨i, -, hi⟩ | ⟨e, -, rfl⟩⟩
  · exact isOneStep_of_continueCall hr
  · exact isOneStep_of_linkCommand hd (.took s) hc
  · exact isOneStep_of_beginCall hd hi
  · exact isOneStep_canStep s e

end

/-- Settles O51, by the case analysis of a step: the call in progress goes on, or one input is taken. -/
theorem everyStepIsOneExchangeOrOneCanSideStep : Obligations.EveryStepIsOneExchangeOrOneCanSideStep := by
  unfold Obligations.EveryStepIsOneExchangeOrOneCanSideStep
  exact fun s t hd h => isOneStep_of_step hd h

/-! ## Several steps inside one call -/

theorem State.steps_succ_congr {s s' : State} (h : step s = step s') (k : Nat) : s.steps (k + 1) = s'.steps (k + 1) := by
  simp only [State.steps, h]

/-- k steps from s come to o, and before each of them HOST is inside the call i. -/
structure State.RunsInside (s : State) (i : Instr) (k : Nat) (o : Host.Outcome State Fault Refusal) : Prop where
  reaches : s.steps k = o
  inside  : ∀ j, j < k → ∃ v r, s.steps j = .next v ∧ v.running = some r ∧ r.call = i

section
variable {s u : State} {i : Instr} {o : Host.Outcome State Fault Refusal}

theorem State.RunsInside.zero (s : State) (i : Instr) : s.RunsInside i 0 (.next s) :=
  ⟨rfl, fun j hj => absurd hj (Nat.not_lt_zero j)⟩

theorem State.RunsInside.one {r : Running} (hr : s.running = some r) (hi : r.call = i) (h : step s = o) :
    s.RunsInside i 1 o := by
  refine ⟨?_, fun j hj => ?_⟩
  · subst h
    simp only [State.steps]
    split <;> simp [*]
  · obtain rfl : j = 0 := by omega
    exact ⟨s, r, rfl, hr, hi⟩

theorem State.RunsInside.trans {k m : Nat} (h : s.RunsInside i k (.next u)) (h' : u.RunsInside i m o) :
    s.RunsInside i (k + m) o := by
  refine ⟨(State.steps_add h.reaches m).trans h'.reaches, fun j hj => ?_⟩
  by_cases hk : j < k
  · exact h.inside j hk
  · obtain ⟨n, rfl⟩ : ∃ n, j = k + n := ⟨j - k, by omega⟩
    rw [State.steps_add h.reaches n]
    exact h'.inside n (by omega)

end

/-! ## The CANSIDE steps before a transaction, taken one step each (R96) -/

/-- Taking the first CANSIDE step before a transaction on its own leaves the transaction where it was. -/
theorem State.slotTaken_canStep_canStepTaken (s : State) (e : CanStep) :
    (s.canStepTaken.canStep e).slotTaken = s.slotTaken.canStep e :=
  State.ext_fields (sameFile.canStep (s := s.canStepTaken) (t := s.slotTaken) ⟨rfl, rfl⟩ e).regs (by simp) (by simp)
    (by simp) (by simp) (by simp) (by simp) (by simp) (by simp) (by simp)

theorem State.nextSlot_canStep_canStepTaken (s : State) (e : CanStep) :
    (s.canStepTaken.canStep e).nextSlot = { s.nextSlot with before := s.nextSlot.before.tail } := by
  simp [State.nextSlot]

theorem State.xfer_canStep_canStepTaken {s : State} {e : CanStep} {es : List CanStep} (h : s.nextSlot.before = e :: es)
    (mosi : List Byte) : (s.canStepTaken.canStep e).xfer mosi = s.xfer mosi := by
  simp [State.xfer, State.beforeXfer, State.nextSlot_canStep_canStepTaken, State.slotTaken_canStep_canStepTaken, h,
    State.canSteps]

theorem State.xfer_of_before_nil {s : State} (h : s.nextSlot.before = []) (mosi : List Byte) :
    s.xfer mosi = s.slotTaken.exchange mosi s.nextSlot.ending := by
  simp [State.xfer, State.beforeXfer, h, State.canSteps]

/-- What a transaction of a call comes to, with what HOST does on its outcome. -/
def State.afterTransaction (s : State) (i : Instr) (responses : List (List Byte)) (mosi : List Byte)
    (next : List Byte → Prog) : Host.Outcome State Fault Refusal :=
  match s.xfer mosi with
  | .completed miso t => .next (t.settled i (responses ++ [miso]) (next miso))
  | .failed e t => .next (t.callEnded i (.raised e))
  | .refused r => .refused r

section
variable {s t : State}

theorem State.xfer_completed_running {mosi miso : List Byte} (h : s.xfer mosi = .completed miso t) :
    t.running = s.running := by
  obtain ⟨c, -, -, -, -, rfl⟩ := State.exchange_completed h
  simp [State.engine_snd]

theorem State.xfer_completed_chip {mosi miso : List Byte} (h : s.xfer mosi = .completed miso t) : t.chip = s.chip := by
  obtain ⟨c, -, -, -, -, rfl⟩ := State.exchange_completed h
  simp [State.engine_snd]

theorem State.xfer_completed_sched {mosi miso : List Byte} (h : s.xfer mosi = .completed miso t) :
    t.sched = s.sched.tail := by
  obtain ⟨c, -, -, -, -, rfl⟩ := State.exchange_completed h
  simp [State.engine_snd]

theorem State.xfer_completed_length_bus {mosi miso : List Byte} (h : s.xfer mosi = .completed miso t) :
    t.bus.length = s.bus.length + 1 := by
  obtain ⟨c, -, -, -, -, rfl⟩ := State.exchange_completed h
  simp [State.engine_snd]

theorem State.xfer_failed_running {mosi : List Byte} {e : HostError} (h : s.xfer mosi = .failed e t) :
    t.running = s.running := by
  obtain ⟨c, -, -, -, -, rfl⟩ := State.exchange_failed h
  simp

theorem State.xfer_failed_sched {mosi : List Byte} {e : HostError} (h : s.xfer mosi = .failed e t) :
    t.sched = s.sched.tail := by
  obtain ⟨c, -, -, -, -, rfl⟩ := State.exchange_failed h
  simp

theorem State.xfer_failed_length_bus {mosi : List Byte} {e : HostError} (h : s.xfer mosi = .failed e t) :
    t.bus.length = s.bus.length + 1 := by
  obtain ⟨c, -, -, -, -, rfl⟩ := State.exchange_failed h
  simp

end

/-! ## A call from its first step to its end (R95, R319) -/

theorem State.setRunning_eq_self {s : State} {r : Option Running} (h : s.running = r) : s.setRunning r = s := by
  subst h; rfl

/-- Where no call is in progress, ending one is recording its result. -/
theorem State.callEnded_eq_callEnds {s : State} (hs : s.running = none) (i : Instr) (x : Result) :
    s.callEnded i x = callEnds i s x :=
  State.setRunning_eq_self (by simpa using hs)

theorem State.callEnded_setRunning (s : State) (r : Option Running) (i : Instr) (x : Result) :
    (s.setRunning r).callEnded i x = s.callEnded i x := by
  unfold State.callEnded callEnds
  split <;> rfl

theorem State.settled_setRunning (s : State) (r : Option Running) (i : Instr) (responses : List (List Byte)) (p : Prog) :
    (s.setRunning r).settled i responses p = s.settled i responses p := by
  cases p with
  | ret v => exact s.callEnded_setRunning r i _
  | raise e => exact s.callEnded_setRunning r i _
  | xfer mosi next => rfl

section
variable {s : State} {i : Instr} {responses : List (List Byte)} {mosi : List Byte} {next : List Byte → Prog} {q : Prog}

/-- The step of a call with no CANSIDE step left before its next transaction is that transaction. -/
theorem callStep_of_before_nil (r : Option Running) (hb : s.nextSlot.before = []) :
    (s.setRunning r).callStep i responses (.xfer mosi next) = s.afterTransaction i responses mosi next := by
  have hb' : (s.setRunning r).nextSlot.before = [] := hb
  have hx : (s.setRunning r).slotTaken.exchange mosi (s.setRunning r).nextSlot.ending = _ :=
    s.slotTaken.exchange_setRunning r mosi s.nextSlot.ending
  simp only [State.callStep, hb', hx, State.afterTransaction, ← State.xfer_of_before_nil hb]
  cases hr : s.xfer mosi with
  | completed miso t => simp only [State.settled_setRunning]
  | failed e t => simp only [State.callEnded_setRunning]
  | refused x => rfl

/-- The step of a call with a CANSIDE step before its next transaction is that CANSIDE step. -/
theorem callStep_of_before_cons {e : CanStep} {es : List CanStep} (r : Option Running)
    (hb : s.nextSlot.before = e :: es) :
    (s.setRunning r).callStep i responses (.xfer mosi next) =
      .next ((s.canStepTaken.canStep e).setRunning (some ⟨i, responses⟩)) := by
  have hb' : (s.setRunning r).nextSlot.before = e :: es := hb
  have hc : (s.setRunning r).canStepTaken.canStep e = (s.canStepTaken.canStep e).setRunning r :=
    s.canStepTaken.canStep_setRunning r e
  simp only [State.callStep, hb', hc]
  rfl

/-- A step of a call that has a transaction left does not look at HOST's place. -/
theorem callStep_xfer_setRunning (r : Option Running) :
    (s.setRunning r).callStep i responses (.xfer mosi next) = s.callStep i responses (.xfer mosi next) := by
  cases hb : s.nextSlot.before with
  | nil => exact (callStep_of_before_nil r hb).trans (callStep_of_before_nil s.running hb).symm
  | cons e es => exact (callStep_of_before_cons r hb).trans (callStep_of_before_cons s.running hb).symm

theorem step_inside_call (hq : callProg s.chip i = some q) :
    step (s.setRunning (some ⟨i, responses⟩)) =
      (s.setRunning (some ⟨i, responses⟩)).callStep i responses (q.resume responses) :=
  (step_of_running rfl).trans (by simp [State.continueCall, hq])

/-- From its last response, a call takes one step for each CANSIDE step before its next transaction and one for the
transaction. -/
theorem transaction_runsInside (hs : s.running = none) (hq : callProg s.chip i = some q)
    (hp : q.resume responses = .xfer mosi next) :
    (s.setRunning (some ⟨i, responses⟩)).RunsInside i (s.nextSlot.before.length + 1)
      (s.afterTransaction i responses mosi next) := by
  generalize hb : s.nextSlot.before = es
  have hstep := step_inside_call (responses := responses) hq
  rw [hp] at hstep
  induction es generalizing s with
  | nil => exact .one rfl rfl (hstep.trans (callStep_of_before_nil _ hb))
  | cons e es ih =>
    have hfirst := State.RunsInside.one (i := i) rfl rfl (hstep.trans (callStep_of_before_cons _ hb))
    have hq' : callProg (s.canStepTaken.canStep e).chip i = some q := by simpa using hq
    have hrest := ih (s := s.canStepTaken.canStep e) (by simpa using hs) hq'
      (by simp [State.nextSlot_canStep_canStepTaken, hb]) (by rw [step_inside_call hq', hp])
    have hsame : (s.canStepTaken.canStep e).afterTransaction i responses mosi next =
        s.afterTransaction i responses mosi next := by
      simp only [State.afterTransaction, State.xfer_canStep_canStepTaken hb]
    rw [hsame] at hrest
    rw [List.length_cons, Nat.add_comm]
    exact hfirst.trans hrest

end

/-- The steps that n transactions of a call take: one each, and one for each CANSIDE step that the schedule places
before them. -/
def stepsFor (sched : List XferSlot) (n : Nat) : Nat := n + ((sched.take n).map (·.before.length)).sum

@[simp] theorem stepsFor_zero (sched : List XferSlot) : stepsFor sched 0 = 0 := by simp [stepsFor]

theorem stepsFor_succ (s : State) (n : Nat) :
    stepsFor s.sched (n + 1) = s.nextSlot.before.length + 1 + stepsFor s.sched.tail n := by
  unfold stepsFor State.nextSlot
  cases s.sched with
  | nil => simp; omega
  | cons x xs => simp; omega

/-- From v, steps inside the call i come to o, as many as the transactions of o issued after s and the CANSIDE steps
before them; a next state is the call's end. -/
def ComesTo (v s : State) (i : Instr) (o : Host.Outcome State Fault Refusal) : Prop :=
  ∃ k, v.RunsInside i k o ∧ ∀ t, o = .next t → t.running = none ∧
    ∃ n, t.bus.length = s.bus.length + n ∧ k = stepsFor s.sched n

section
variable {s : State} {i : Instr}

theorem comesTo_callEnded (hs : s.running = none) (x : Result) :
    ComesTo (s.callEnded i x) s i (.next (callEnds i s x)) := by
  rw [State.callEnded_eq_callEnds hs]
  refine ⟨0, .zero _ i, ?_⟩
  rintro t ⟨⟩
  exact ⟨by simpa using hs, 0, by simp, by simp⟩

/-- One transaction, with the CANSIDE steps before it, and then the rest. -/
theorem ComesTo.afterTransaction {v t u : State} {o : Host.Outcome State Fault Refusal}
    (h : v.RunsInside i (s.nextSlot.before.length + 1) (.next u)) (hsched : t.sched = s.sched.tail)
    (hbus : t.bus.length = s.bus.length + 1) (hrest : ComesTo u t i o) : ComesTo v s i o := by
  obtain ⟨k, hk, hend⟩ := hrest
  refine ⟨_, h.trans hk, fun w hw => ?_⟩
  obtain ⟨hrun, n, hn, rfl⟩ := hend w hw
  exact ⟨hrun, n + 1, by omega, by rw [stepsFor_succ, hsched]⟩

/-- What is left of a call, taken in steps, comes to what it comes to as a whole. -/
theorem comesTo_run {q p : Prog} {responses : List (List Byte)} (hs : s.running = none)
    (hq : callProg s.chip i = some q) (hp : q.resume responses = p) :
    ComesTo (s.settled i responses p) s i (p.run (callEnds i) s) := by
  induction p generalizing s responses with
  | ret v => exact comesTo_callEnded hs _
  | raise e => exact comesTo_callEnded hs _
  | xfer mosi next ih =>
    have hfirst := transaction_runsInside hs hq hp
    unfold State.afterTransaction at hfirst
    unfold Prog.run
    cases hx : s.xfer mosi with
    | completed miso t =>
      rw [hx] at hfirst
      exact .afterTransaction hfirst (State.xfer_completed_sched hx) (State.xfer_completed_length_bus hx)
        (ih miso ((State.xfer_completed_running hx).trans hs) (State.xfer_completed_chip hx ▸ hq)
          (Prog.resume_append hp miso))
    | failed e t =>
      rw [hx] at hfirst
      exact .afterTransaction hfirst (State.xfer_failed_sched hx) (State.xfer_failed_length_bus hx)
        (comesTo_callEnded ((State.xfer_failed_running hx).trans hs) _)
    | refused r =>
      rw [hx] at hfirst
      exact ⟨_, hfirst, by simp⟩

theorem beginCall_toInstr (s : State) (c : Command) : s.beginCall c.toInstr = exec c.toInstr s := by
  cases c <;> rfl

theorem callProg_of_ne_toInstr (h : ∀ c : Command, i ≠ c.toInstr) (chip : Chip) : ∃ p, callProg chip i = some p :=
  (toInstr_or_call chip i).resolve_left fun ⟨c, hc⟩ => h c hc

/-- From s, whose step begins the call i at w, steps come to o, HOST being inside the call between them: as many as the
transactions of o and the CANSIDE steps before them, and one where there are none. -/
def BegunComesTo (s w : State) (i : Instr) (o : Host.Outcome State Fault Refusal) : Prop :=
  ∃ k, s.steps k = o ∧
    (∀ j, 0 < j → j < k → ∃ v r, s.steps j = .next v ∧ v.running = some r ∧ r.call = i) ∧
    ∀ t, o = .next t → t.running = none ∧
      ∃ n, t.bus.length = w.bus.length + n ∧ k = max 1 (stepsFor w.sched n)

/-- A call that issues no transaction is one step (log 1). -/
theorem begunComesTo_callEnds {w : State} (hw : w.running = none) {x : Result}
    (hstep : step s = .next (w.callEnded i x)) : BegunComesTo s w i (.next (callEnds i w x)) := by
  refine ⟨1, ?_, fun j h0 h1 => by omega, ?_⟩
  · rw [State.steps_next hstep, State.callEnded_eq_callEnds hw, State.steps_zero]
  · rintro t ⟨⟩
    exact ⟨by simpa using hw, 0, by simp, by simp⟩

/-- The step that begins a call with a transaction is the one HOST would take with the call begun. -/
theorem begunComesTo_of_comesTo {w v : State} {r : Running} {o : Host.Outcome State Fault Refusal}
    (hv : v.running = some r) (hstep : step s = step v) (h : ComesTo v w i o) : BegunComesTo s w i o := by
  obtain ⟨k, hk, hend⟩ := h
  cases k with
  | zero =>
    have hstart : o = .next v := hk.reaches.symm
    have hnone := (hend v hstart).1
    rw [hv] at hnone
    cases hnone
  | succ k =>
    refine ⟨k + 1, (State.steps_succ_congr hstep k).trans hk.reaches, fun j h0 hj => ?_, fun t ht => ?_⟩
    · obtain ⟨m, rfl⟩ : ∃ m, j = m + 1 := ⟨j - 1, by omega⟩
      rw [State.steps_succ_congr hstep m]
      exact hk.inside _ hj
    · obtain ⟨hrun, n, hn, he⟩ := hend t ht
      exact ⟨hrun, n, hn, by omega⟩

theorem begunComesTo_run {w : State} {p : Prog} (hw : w.running = none) (hp : callProg w.chip i = some p)
    (hstep : step s = w.callStep i [] p) : BegunComesTo s w i (p.run (callEnds i) w) := by
  cases p with
  | ret v => exact begunComesTo_callEnds hw hstep
  | raise e => exact begunComesTo_callEnds hw hstep
  | xfer mosi next =>
    have hsame : step s = step (w.setRunning (some ⟨i, []⟩)) := by
      rw [step_inside_call hp, Prog.resume_nil, callStep_xfer_setRunning, hstep]
    exact begunComesTo_of_comesTo rfl hsame (comesTo_run (responses := []) hw hp rfl)

end

/-- A call that exec refuses is refused by its first step; any other comes to what exec says (R303, R319). -/
theorem begunComesTo_exec {s u : State} {i : Instr} {p : Prog} (hu : u.running = none)
    (hp : callProg u.chip i = some p) (hstep : step s = u.beginCall i) :
    BegunComesTo s (u.callBegun i) i (exec i u) := by
  rw [exec_call hp]
  unfold State.beginCall at hstep
  rw [hp] at hstep
  cases hr : u.callRefused i with
  | some r =>
    rw [hr] at hstep
    exact ⟨1, State.steps_refused hstep 0, fun j h0 h1 => by omega, by simp⟩
  | none =>
    rw [hr] at hstep
    exact begunComesTo_run (by simpa using hu) (by simpa using hp) hstep

/-- Settles O52, by induction over the call's operation: each transaction is one step, after one for each CANSIDE step
before it. -/
theorem callsRunAsTheirSteps : Obligations.CallsRunAsTheirSteps := by
  unfold Obligations.CallsRunAsTheirSteps
  intro s i rest hs hi u
  have hstep : step s = u.beginCall i := step_of_inbox_cons hs hi
  refine ⟨?_, fun hcall => ?_⟩
  · rintro c rfl
    exact hstep.trans (beginCall_toInstr u c)
  · obtain ⟨p, hp⟩ := callProg_of_ne_toInstr hcall u.chip
    obtain ⟨k, hk, hinside, hend⟩ := begunComesTo_exec (u := u) hs hp hstep
    refine ⟨fun t ht => ?_, fun r hr => ⟨k, hk.trans hr⟩⟩
    obtain ⟨hrun, n, hn, rfl⟩ := hend t ht
    obtain rfl : t.bus.length = n := by simpa using hn
    rw [State.callBegun_sched] at hk hinside
    exact ⟨hk.trans ht, hrun, hinside⟩

end Sys2Proof.Machine
end

section
/-! PROOFS. The invariant (10_state.md: R32, R59, R119, R183, R283, R303): what it says of ENGINE and what it says of
HOST performing a call, each kept by everything a step is made of; then the reset state and the step. -/

namespace Sys2Proof.Machine

/-! ## ENGINE's part of the invariant (R59, R119) -/

/-- What the invariant says of the chip and the register file. -/
structure State.EngineInv (s : State) : Prop where
  standard        : s.standard
  implementedOnly : s.implementedOnly
  modeLegal       : s.modeLegal

section
variable {s t : State}

theorem State.Inv.engineInv (h : s.Inv) : s.EngineInv := ⟨h.standard, h.implementedOnly, h.modeLegal⟩

/-- It looks at the chip and the register file alone. -/
theorem State.EngineInv.of_regs (h : s.EngineInv) (hc : t.chip = s.chip) (hr : t.regs = s.regs) : t.EngineInv where
  standard := h.standard.of_chip hc
  implementedOnly a ha := by
    rw [State.reg_of_regs hc hr, hc]
    exact h.implementedOnly a ha
  modeLegal := by
    unfold State.modeLegal State.opmod
    rw [State.reg_of_regs hc hr, hc]
    exact h.modeLegal

theorem State.EngineInv.engineEffect (h : s.EngineInv) (c : Command) : (s.engineEffect c).EngineInv :=
  ⟨h.standard.of_chip (by simp), State.implementedOnly_engineEffect h.standard h.implementedOnly c,
    State.modeLegal_engineEffect h.standard h.modeLegal c⟩

theorem State.EngineInv.failedEffect (h : s.EngineInv) (c : Command) (x : XferEnd) :
    (s.failedEffect c x).EngineInv := by
  rcases s.failedEffect_cases c x with he | he | ⟨a, ds, k, -, he⟩ <;> rw [he]
  · exact h
  · exact h.engineEffect c
  · exact h.engineEffect _

theorem State.EngineInv.canStep (h : s.EngineInv) (e : CanStep) : (s.canStep e).EngineInv :=
  ⟨h.standard.of_chip (by simp), State.implementedOnly_canStep h.standard h.implementedOnly e,
    State.modeLegal_canStep h.standard h.modeLegal e⟩

/-- RESET establishes it, whatever the registers held (R301). -/
theorem State.engineInv_resetRegisters (hs : s.standard) : s.resetRegisters.EngineInv where
  standard := hs.of_chip (by simp)
  implementedOnly := State.implementedOnly_resetRegisters hs
  modeLegal := by
    unfold State.modeLegal
    rw [State.opmod_resetRegisters hs]
    decide

end

/-! ## HOST's part of the invariant (R32, R183, R303) -/

/-- The invariant of a state in which HOST is performing, or about to perform, the call i. -/
structure State.MayPerform (s : State) (i : Instr) : Prop where
  engineInv       : s.EngineInv
  readyConfigured : s.readyConfigured
  isCall          : (callProg s.chip i).isSome = true
  allowed         : s.callRefused i = none
  record          : ∀ c, i = .ctor c → s.config = some c

/-- t differs from s in nothing that the invariant says of HOST, its place in a call apart. -/
structure sameRecord (s t : State) : Prop where
  chip   : t.chip = s.chip
  status : t.status = s.status
  config : t.config = s.config

section
variable {s t u : State} {i : Instr}

theorem State.readyConfigured.congr (h : s.readyConfigured) (hst : t.status = s.status) (hc : t.config = s.config) :
    t.readyConfigured := by
  unfold State.readyConfigured
  rw [hst, hc]
  exact h

theorem State.MayPerform.congr (h : s.MayPerform i) (ht : t.EngineInv) (hh : sameRecord s t) : t.MayPerform i where
  engineInv := ht
  readyConfigured := h.readyConfigured.congr hh.status hh.config
  isCall := by rw [hh.chip]; exact h.isCall
  allowed := (callRefused_congr hh.status i).trans h.allowed
  record c hi := hh.config.trans (h.record c hi)

/-- Between calls the invariant is ENGINE's part and HOST's record. -/
theorem State.EngineInv.inv_idle (h : t.EngineInv) (hc : t.readyConfigured) (hr : t.running = none) : t.Inv :=
  ⟨h.standard, h.implementedOnly, h.modeLegal, hc, fun r hs => by rw [hr] at hs; cases hs⟩

theorem State.MayPerform.inv_setRunning (h : s.MayPerform i) (responses : List (List Byte)) :
    (s.setRunning (some ⟨i, responses⟩)).Inv := by
  obtain ⟨hc, hi, hm⟩ := h.engineInv.of_regs (t := s.setRunning (some ⟨i, responses⟩)) rfl rfl
  refine ⟨hc, hi, hm, h.readyConfigured, ?_⟩
  rintro r ⟨⟩
  exact ⟨h.isCall, h.allowed, h.record⟩

theorem State.Inv.mayPerform {r : Running} (h : s.Inv) (hr : s.running = some r) : s.MayPerform r.call := by
  obtain ⟨hcall, hallowed, hrecord⟩ := h.runningAdmitted r hr
  exact ⟨h.engineInv, h.readyConfigured, hcall, hallowed, hrecord⟩

theorem eq_ctor_of_ctorConfig {c : ControllerConfig} (h : ctorConfig i = some c) : i = .ctor c := by
  cases i <;> simp [ctorConfig] at h
  rw [h]

/-- A constructor is admitted only while HOST is Unconstructed (R303). -/
theorem status_of_callRefused_ctor {c : ControllerConfig} (h : s.callRefused (.ctor c) = none) :
    s.status = .unconstructed := by
  by_contra hn
  simp [State.callRefused, needsReady, ctorConfig, hn] at h

/-- HOST takes the record it is constructed with while it is Unconstructed, so not Ready (R303). -/
theorem State.EngineInv.mayPerform_callBegun (h : s.EngineInv) (hc : s.readyConfigured)
    (hi : (callProg s.chip i).isSome = true) (hr : s.callRefused i = none) : (s.callBegun i).MayPerform i where
  engineInv := h.of_regs (by simp) (by simp)
  readyConfigured := by
    cases hx : ctorConfig i with
    | none => exact hc.congr (by simp) (State.callBegun_config_of hx s)
    | some c =>
      obtain rfl := eq_ctor_of_ctorConfig hx
      intro hready
      rw [State.callBegun_status, status_of_callRefused_ctor hr] at hready
      cases hready
  isCall := by simpa using hi
  allowed := (callRefused_congr (by simp) i).trans hr
  record c hx := by subst hx; rfl

/-! ## The end of a call -/

/-- A constructor whose record fails validation raises; so one that returns has a valid record (R183). -/
theorem configFault_of_ctorProg_resume {chip : Chip} {c : ControllerConfig} {responses : List (List Byte)} {v : Value}
    (h : (ctorProg chip c).resume responses = .ret v) : configFault c = none := by
  cases hf : configFault c with
  | none => rfl
  | some name =>
    rw [show ctorProg chip c = .raise (.argument name) by simp [ctorProg, hf]] at h
    cases responses <;> cases h

/-- What is left of the operation of call i, when it may return only with a valid record. -/
def returnsConfigured (i : Instr) (p : Prog) : Prop := ∀ v c, p = .ret v → i = .ctor c → configFault c = none

theorem returnsConfigured_resume {chip : Chip} {p : Prog} (hp : callProg chip i = some p)
    (responses : List (List Byte)) : returnsConfigured i (p.resume responses) := by
  rintro v c hv rfl
  obtain rfl : ctorProg chip c = p := by simpa [callProg] using hp
  exact configFault_of_ctorProg_resume hv

/-- A call that ends keeps the invariant: a constructor leaves HOST Ready only with a valid record (R195). -/
theorem State.MayPerform.inv_callEnded (h : s.MayPerform i) {x : Result}
    (hx : ∀ v c, x = .returned v → i = .ctor c → configFault c = none) : (s.callEnded i x).Inv := by
  have hchip : (s.callEnded i x).chip = s.chip := by simp [State.chip]
  refine (h.engineInv.of_regs hchip (by simp)).inv_idle ?_ (by simp)
  cases hi : ctorConfig i with
  | none => exact h.readyConfigured.congr (by simp [State.callEnded, callEnds_status_of hi]) (by simp)
  | some c =>
    obtain rfl := eq_ctor_of_ctorConfig hi
    intro hready
    cases x with
    | returned v => exact ⟨c, by simpa using h.record c rfl, hx v c rfl rfl⟩
    | raised e => cases hready

theorem State.MayPerform.inv_settled (h : s.MayPerform i) (responses : List (List Byte)) {p : Prog}
    (hp : returnsConfigured i p) : (s.settled i responses p).Inv := by
  rcases s.settled_cases i responses p with ⟨mosi, next, rfl, he⟩ | ⟨v, rfl, he⟩ | ⟨e, rfl, he⟩ <;> rw [he]
  · exact h.inv_setRunning responses
  · exact h.inv_callEnded fun _ c _ hi => hp v c rfl hi
  · exact h.inv_callEnded fun _ _ hx => by cases hx

/-! ## One exchange, and one step -/

theorem State.MayPerform.exchange_completed (h : s.MayPerform i) {mosi miso : List Byte} {x : XferEnd}
    (hx : s.exchange mosi x = .completed miso t) : t.MayPerform i := by
  obtain ⟨c, -, -, -, -, rfl⟩ := State.exchange_completed hx
  exact h.congr ((h.engineInv.engineEffect c).of_regs rfl rfl)
    ⟨by simp [State.engine_snd], by simp [State.engine_snd], by simp [State.engine_snd]⟩

theorem State.MayPerform.exchange_failed (h : s.MayPerform i) {mosi : List Byte} {x : XferEnd} {e : HostError}
    (hx : s.exchange mosi x = .failed e t) : t.MayPerform i := by
  obtain ⟨c, -, -, -, -, rfl⟩ := State.exchange_failed hx
  exact h.congr ((h.engineInv.failedEffect c x).of_regs rfl rfl) ⟨by simp, by simp, by simp⟩

/-- One step of a call keeps the invariant. -/
theorem State.MayPerform.inv_callStep (h : s.MayPerform i) {p : Prog} (hp : callProg s.chip i = some p)
    {responses : List (List Byte)} (hstep : s.callStep i responses (p.resume responses) = .next t) : t.Inv := by
  rcases State.callStep_cases hstep with ⟨v, hv, rfl⟩ | ⟨e, -, rfl⟩ | ⟨mosi, next, hnext, hx⟩
  · exact h.inv_callEnded fun _ c _ hi => returnsConfigured_resume hp responses v c hv hi
  · exact h.inv_callEnded fun _ _ hr => by cases hr
  · have htaken : s.slotTaken.MayPerform i := h.congr (h.engineInv.of_regs rfl rfl) ⟨rfl, rfl, rfl⟩
    rcases hx with ⟨e, es, -, rfl⟩ | ⟨-, ⟨miso, u, hu, rfl⟩ | ⟨e, u, hu, rfl⟩⟩
    · have hcan : (s.canStepTaken.canStep e).MayPerform i :=
        h.congr ((h.engineInv.of_regs (t := s.canStepTaken) rfl rfl).canStep e) ⟨by simp, by simp, by simp⟩
      exact hcan.inv_setRunning responses
    · refine (htaken.exchange_completed hu).inv_settled _ ?_
      rw [← Prog.resume_append hnext]
      exact returnsConfigured_resume hp _
    · exact (htaken.exchange_failed hu).inv_callEnded fun _ _ hr => by cases hr

theorem State.EngineInv.inv_linkCommand (h : s.EngineInv) (hc : s.readyConfigured) (hr : s.running = none)
    {c : Command} (hstep : linkCommand c s = .next t) : t.Inv := by
  obtain ⟨-, rfl⟩ := linkCommand_next.1 hstep
  have he : (s.clearBus.engineEffect c).EngineInv := (h.of_regs (t := s.clearBus) rfl rfl).engineEffect c
  exact State.EngineInv.inv_idle (he.of_regs rfl rfl)
    (hc.congr (by simp [State.engine_snd]) (by simp [State.engine_snd])) (by simpa [State.engine_snd] using hr)

theorem State.EngineInv.inv_beginCall (h : s.EngineInv) (hc : s.readyConfigured) (hr : s.running = none)
    (hstep : s.beginCall i = .next t) : t.Inv := by
  rcases State.beginCall_cases hstep with ⟨c, -, hlink⟩ | ⟨p, hp, hallowed, hfirst⟩
  · exact h.inv_linkCommand hc hr hlink
  · rw [← Prog.resume_nil p] at hfirst
    exact (h.mayPerform_callBegun hc (by simp [hp]) hallowed).inv_callStep (by simpa using hp) hfirst

theorem State.MayPerform.inv_continueCall {r : Running} (h : s.MayPerform r.call)
    (hstep : s.continueCall r = .next t) : t.Inv := by
  obtain ⟨p, hp⟩ := Option.isSome_iff_exists.1 h.isCall
  unfold State.continueCall at hstep
  rw [hp] at hstep
  exact h.inv_callStep hp hstep

end

/-- Settles O50: a step goes on with a call that HOST's status admits, or takes one input between calls. -/
theorem everyStepKeepsTheInvariant : Obligations.EveryStepKeepsTheInvariant := by
  unfold Obligations.EveryStepKeepsTheInvariant
  intro s t h hstep
  have htook : s.took.EngineInv := h.engineInv.of_regs rfl rfl
  rcases step_cases hstep with
    ⟨r, hr, hcont⟩ | ⟨hr, rest, ⟨mosi, c, -, -, hlink⟩ | ⟨i, -, hbegin⟩ | ⟨e, -, rfl⟩⟩
  · exact (h.mayPerform hr).inv_continueCall hcont
  · exact htook.inv_linkCommand h.readyConfigured hr hlink
  · exact htook.inv_beginCall h.readyConfigured hr hbegin
  · exact (htook.canStep e).inv_idle (h.readyConfigured.congr (by simp) (by simp)) (by simpa using hr)

/-- State.reset is what the RESET command leaves of itself with no free value taken yet (log 5). -/
theorem State.reset_eq_resetRegisters : State.reset = ({ State.reset with draws := 0 } : State).resetRegisters := rfl

/-- Settles O49: ENGINE's part holds as after every RESET, and HOST is Unconstructed with no call in progress. -/
theorem resetStateMeetsTheInvariant : Obligations.ResetStateMeetsTheInvariant := by
  unfold Obligations.ResetStateMeetsTheInvariant
  have hstatus : State.reset.status ≠ .ready := by decide
  have hengine : State.reset.EngineInv := by
    rw [State.reset_eq_resetRegisters]
    exact State.engineInv_resetRegisters rfl
  exact ⟨hengine.inv_idle (fun h => absurd h hstatus) rfl, hstatus⟩

end Sys2Proof.Machine
end

section
/-! PROOFS. Registers seen from outside (10_state.md: R34, R35, R40, R53, R55): the status byte, the mirrors, and
CANSTAT under every instruction but a RESET. -/

namespace Sys2Proof.Machine

/-! ## The status byte (R53) -/

/-- `bitOf` has one bit, at place 0. -/
theorem getElem_bitOf (b : Byte) {i k : Nat} (hi : i < 8) (hk : k < 8) : (bitOf b i)[k] = (decide (k = 0) && b[i]) := by
  unfold bitOf
  by_cases h0 : k = 0 <;> simp [h0, BitVec.getElem_one, BitVec.getLsbD_eq_getElem hi]

theorem State.statusByte_standard {s : State} (hs : s.standard) : s.statusByte =
    bitOf (s.reg CANINTF) 0 <<< 0 ||| bitOf (s.reg CANINTF) 1 <<< 1 ||| bitOf (s.reg 0x30) 3 <<< 2 |||
      bitOf (s.reg CANINTF) 2 <<< 3 ||| bitOf (s.reg 0x40) 3 <<< 4 ||| bitOf (s.reg CANINTF) 3 <<< 5 |||
      bitOf (s.reg 0x50) 3 <<< 6 ||| bitOf (s.reg CANINTF) 4 <<< 7 := by
  unfold State.statusByte
  rw [hs]
  rfl

/-- An SPI command whose registers exist answers a next state: ENGINE's, with the one exchange recorded. -/
theorem exec_toInstr_of_admitted {c : Command} (hc : commandAdmitted c = true) (s : State) :
    exec c.toInstr s =
      .next ((s.clearBus.engine c).2.logged ⟨encodeCommand s.chip.commands c, some (s.clearBus.engine c).1⟩) := by
  rw [exec_toInstr]
  exact linkCommand_next.2 ⟨hc, rfl⟩

/-- Settles O6, bit by bit: each bit of the status byte is one flag or request moved to its place. -/
theorem statusByteCollectsFlagsAndRequests : Obligations.StatusByteCollectsFlagsAndRequests := by
  unfold Obligations.StatusByteCollectsFlagsAndRequests
  intro s hs
  have hb := State.statusByte_standard hs
  refine ⟨?_, ?_, ?_, ?_, ?_, ?_, ?_, ?_, _, Config.freeByte s.draws,
    exec_toInstr_of_admitted (c := .rdstatus) rfl s, by rw [hs]; rfl⟩ <;> simp [hb, getElem_bitOf]

/-! ## Mirrors (R35) -/

/-- The mirrors of CANCTRL have its row. -/
theorem info_canctrl_mirror {a : Nat} (ha : a < 0x80) (hm : a % 16 = 15) :
    Chip.standard.info a = Chip.standard.info CANCTRL := by
  have h : slotOf a = slotOf CANCTRL := (slotOf_eq_iff ha (by decide)).2 (.inr (.inr ⟨hm, rfl⟩))
  rw [← info_slotOf ha, h]
  exact info_slotOf (by decide)

theorem maskedWrite_allOnes (old v : Byte) : maskedWrite 0xFF old v = v := by
  have : v &&& 0xFF#8 = v := BitVec.and_allOnes
  simp [maskedWrite, this]

/-- Every bit of CANCTRL can be written, in every mode (R36, R41, R89). -/
theorem storedValue_canctrl_mirror {s : State} (hs : s.standard) {a : Nat} (ha : a < 0x80) (hm : a % 16 = 15)
    (v : Byte) : storedValue s a v = v := by
  have hi := info_canctrl_mirror ha hm
  have hprot : s.chip.configProtected a = false := by
    rw [hs, Chip.configProtected, hi]
    decide
  have hmask : s.chip.wmask a = 0xFF := by
    rw [hs, Chip.wmask, hi]
    decide
  rw [storedValue_unprotected v (by simp [State.protectedNow, hprot]), hmask, maskedWrite_allOnes]

/-- A store to a mirror of CANCTRL changes all its mirrors and no other register. -/
theorem State.reg_storeReg_canctrl_mirror {s : State} (hs : s.standard) {a b : Nat} (ha : a < 0x80)
    (hm : a % 16 = 15) (hb : b < 0x80) (v : Byte) :
    (s.storeReg a v).reg b = if b % 16 = 15 then v else s.reg b := by
  have hslot : slotOf a = slotOf b ↔ b % 16 = 15 := by
    rw [slotOf_eq_iff ha hb]
    omega
  rw [s.reg_storeReg b v ha, storedValue_canctrl_mirror hs ha hm, hs]
  exact if_congr hslot rfl rfl

/-- Settles O9: addresses share storage as `slotOf_eq_iff` says, and CANCTRL takes a whole byte. -/
theorem mirrorsNameOneRegister : Obligations.MirrorsNameOneRegister := by
  unfold Obligations.MirrorsNameOneRegister
  refine ⟨fun s a hs ha => ⟨fun hm => ?_, fun hm => ?_⟩, fun s a v hs ha hm => ?_,
    fun a b ha hb => (slotOf_eq_iff ha hb).1⟩
  · exact s.reg_congr (by rw [hs]; exact (slotOf_eq_iff ha (by decide)).2 (.inr (.inl ⟨hm, rfl⟩)))
  · exact s.reg_congr (by rw [hs]; exact (slotOf_eq_iff ha (by decide)).2 (.inr (.inr ⟨hm, rfl⟩)))
  · have hadm : commandAdmitted (.write a [v]) = true := registersExist_iff.2 (by simp; omega)
    exact ⟨_, exec_toInstr_of_admitted hadm s, fun b hb =>
      State.reg_storeReg_canctrl_mirror (s := s.clearBus) hs ha hm hb v⟩

/-! ## CANSTAT under every instruction but a RESET (R40, R55) -/

theorem State.reg_canstat_failedEffect {s : State} (hs : s.standard) {c : Command} (hc : c ≠ .reset) (x : XferEnd) :
    (s.failedEffect c x).reg CANSTAT = s.reg CANSTAT := by
  rcases s.failedEffect_cases c x with he | he | ⟨a, ds, k, -, he⟩ <;> rw [he]
  · exact State.reg_canstat_engineEffect hs hc
  · exact State.reg_canstat_engineEffect hs (by simp)

theorem State.reg_beforeXfer_quiet {s : State} (h : s.canQuiet) (b : Nat) : s.beforeXfer.reg b = s.reg b :=
  State.reg_of_regs (by simp) (State.beforeXfer_regs_quiet h) b

theorem State.canQuiet_afterFailure {s : State} (h : s.canQuiet) (c : Command) : (s.afterFailure c).canQuiet := by
  intro x hx
  rw [State.afterFailure_sched] at hx
  exact h x (List.mem_of_mem_tail hx)

/-- From s to t CANSTAT stays where the schedule is quiet, and the schedule stays quiet. -/
def keepsCanstat (s t : State) : Prop := s.canQuiet → t.canQuiet ∧ t.reg CANSTAT = s.reg CANSTAT

/-- Commands other than RESET keep CANSTAT, completed or failed. -/
theorem keptBy_keepsCanstat {C : Command → Bool} (hC : ∀ c, C c = true → c ≠ .reset) : KeptBy C keepsCanstat where
  refl s hq := ⟨hq, rfl⟩
  trans h k hq := by
    obtain ⟨hq', h'⟩ := h hq
    obtain ⟨hq'', k'⟩ := k hq'
    exact ⟨hq'', k'.trans h'⟩
  done c hc _ s hs hq := by
    refine ⟨State.canQuiet_afterXfer hq c, ?_⟩
    rw [State.reg_afterXfer, State.reg_canstat_engineEffect (hs.of_chip (by simp)) (hC c hc),
      State.reg_beforeXfer_quiet hq]
  failed c hc _ s hs _ hq := by
    refine ⟨State.canQuiet_afterFailure hq c, ?_⟩
    rw [State.reg_afterFailure, State.reg_canstat_failedEffect (hs.of_chip (by simp)) (hC c hc),
      State.reg_beforeXfer_quiet hq]

/-- Settles O22: every transaction of such an instruction is a command other than RESET, and these keep CANSTAT. -/
theorem modeChangesOnlyByResetOrCanSide : Obligations.ModeChangesOnlyByResetOrCanSide := by
  unfold Obligations.ModeChangesOnlyByResetOrCanSide
  intro s t i hs hq hreset hcall hctor h
  rcases exec_next hs h with ⟨c, rfl, hlink⟩ | ⟨p, hp, hadm, hallowed, -⟩
  · obtain ⟨-, rfl⟩ := linkCommand_next.1 hlink
    have hc : c ≠ .reset := by
      rintro rfl
      exact hreset rfl
    exact State.reg_canstat_engineEffect (s := s.clearBus) hs hc
  · have hkept := keptBy_keepsCanstat fun c hc => mayIssue_reset hcall hctor hc
    obtain ⟨u, r, hu, hR⟩ := exec_call_kept hkept hadm hs hp hallowed
    obtain rfl : t = callEnds i u r := by simpa [h] using hu
    have hquiet : (s.callBegun i).canQuiet := by
      unfold State.canQuiet
      rw [State.callBegun_sched]
      exact hq
    rw [reg_callEnds, (hR hquiet).2, State.reg_callBegun]

end Sys2Proof.Machine
end

section
/-! PROOFS. CANSIDE's effects value by value (10_state.md: R60, E1 to E5) and what CANSIDE never does (R61), on the chip
with the spec's constants: each effect as the writes it consists of, then the registers after it. -/

namespace Sys2Proof.Machine

/-! ## A step that may occur, and one that may not (log 3) -/

section
variable {s : State}

theorem State.canStep_of_admitted {e : CanStep} (h : s.admitsCanStep e = true) : s.canStep e = s.canEffect e := by
  simp [State.canStep, h]

theorem State.canStep_of_not_admitted {e : CanStep} (h : s.admitsCanStep e = false) : s.canStep e = s := by
  simp [State.canStep, h]

/-- A CANSIDE step changes the registers R60 names for it, and no other. -/
theorem sameRegsExcept_canStep {e : CanStep} {changed : List Nat} (h : canTouched s.chip e = changed) :
    sameRegsExcept changed s (s.canStep e) :=
  fun _ _ hb => s.reg_canStep_ne e (h ▸ hb)

theorem State.txRequested_eq (hs : s.standard) {n : Nat} (hn : n < 3) :
    s.txRequested n = (s.reg (txb n) &&& 0x08 != 0) := by
  unfold State.txRequested
  rw [hs, txb_standard hn]
  rfl

end

/-! ## Registers of different addresses -/

/-- An address that is no mirror shares storage with no other. -/
theorem slotOf_ne {a b : Nat} (ha : a < 0x80) (hb : b < 0x80) (h : a ≠ b) (hm : a % 16 < 14) : slotOf a ≠ slotOf b := by
  rw [Ne, slotOf_eq_iff ha hb]
  omega

theorem State.home_ne {s : State} (hs : s.standard) {a b : Nat} (ha : a < 0x80) (hb : b < 0x80) (h : a ≠ b)
    (hm : a % 16 < 14) : s.chip.home a ≠ s.chip.home b := by
  rw [hs]
  exact slotOf_ne ha hb h hm

/-! ## E1: reception and overflow -/

section
variable {s : State}

theorem State.canStep_receive (hs : s.standard) {n : Fin 2} (h : s.rxFlag n = false) (v : Vector Byte 13) (c : Byte) :
    s.canStep (.receive n v c) = ((s.loadRegs ((List.range 13).map (rxb n + 1 + ·)) v.toList).putBits (rxb n)
      (readOnlyBits s.chip (rxb n)) c).setBits CANINTF (1#8 <<< n.val) := by
  rw [State.canStep_of_admitted (by simp [State.admitsCanStep, h])]
  simp only [State.canEffect, hs, rxb_standard n.isLt, rxIF_standard n.isLt, bufferAt_frame, bufferAt_CTRL,
    standard_CANINTF]

theorem State.canStep_overflow (hs : s.standard) (h0 : s.rxFlag 0 = true) (h1 : s.rxFlag 1 = true) (n : Fin 2) :
    s.canStep (.overflow n) = s.setBits EFLG (0x40#8 <<< n.val) := by
  rw [State.canStep_of_admitted (by simp [State.admitsCanStep, h0, h1])]
  simp only [State.canEffect, hs, standard_EFLG]
  fin_cases n <;> rfl

end

section
variable {s : State} {n : Nat}

theorem rxb_add_lt (hn : n < 2) {k : Nat} (hk : k < 14) : rxb n + k < 0x80 := by
  unfold rxb
  omega

theorem State.home_rxb_ne (hs : s.standard) (hn : n < 2) {k b : Nat} (hk : k < 14) (hb : b < 0x80)
    (h : rxb n + k ≠ b) : s.chip.home (rxb n + k) ≠ s.chip.home b :=
  State.home_ne hs (rxb_add_lt hn hk) hb h (by unfold rxb; omega)

theorem State.home_rxb_ne_canintf (hs : s.standard) (hn : n < 2) {k : Nat} (hk : k < 14) :
    s.chip.home CANINTF ≠ s.chip.home (rxb n + k) :=
  (State.home_rxb_ne hs hn hk (by decide) (by unfold rxb CANINTF; omega)).symm

/-- The 13 registers a reception loads are different registers. -/
theorem pairwise_slotOf_rxb (n : Fin 2) :
    ((List.range 13).map (rxb n + 1 + ·)).Pairwise fun a b => slotOf a ≠ slotOf b := by
  revert n
  decide +kernel

end

section
variable {s : State} (hs : s.standard) {n : Fin 2} (h : s.rxFlag n = false) (v : Vector Byte 13) (c : Byte)
include hs h

/-- Registers +1 to +13 of the buffer take the received values within IMPL. -/
theorem State.reg_receive_frame {k : Nat} (hk : k < 13) :
    (s.canStep (.receive n v c)).reg (rxb n + 1 + k) = v[k] &&& s.chip.impl (rxb n + 1 + k) := by
  have hfar : s.chip.home CANINTF ≠ s.chip.home (rxb n + 1 + k) := by
    rw [Nat.add_assoc]
    exact State.home_rxb_ne_canintf hs n.isLt (by omega)
  have hctrl : s.chip.home (rxb n) ≠ s.chip.home (rxb n + 1 + k) := by
    rw [Nat.add_assoc]
    exact (State.home_rxb_ne hs n.isLt (k := 1 + k) (by omega) (by fin_cases n <;> decide) (by omega)).symm
  rw [State.canStep_receive hs h, State.reg_setBits_ne _ _ (by simpa using hfar),
    State.reg_putBits_ne _ _ _ (by simpa using hctrl)]
  have hload := s.reg_loadRegs_at (as := (List.range 13).map (rxb n + 1 + ·)) (i := k) v.toList (by simpa using hk)
    (by simpa using hk) (by simpa [Nat.add_assoc] using rxb_add_lt n.isLt (k := 1 + k) (by omega))
    (by rw [hs]; exact pairwise_slotOf_rxb n)
  simpa using hload

/-- RXBnCTRL takes its read-only bits from the step. -/
theorem State.reg_receive_ctrl : (s.canStep (.receive n v c)).reg (rxb n) =
    (s.reg (rxb n) &&& ~~~readOnlyBits s.chip (rxb n)) ||| (c &&& readOnlyBits s.chip (rxb n)) := by
  have hlt : rxb n < 0x80 := rxb_add_lt n.isLt (k := 0) (by omega)
  rw [State.canStep_receive hs h,
    State.reg_setBits_ne _ _ (by simpa using State.home_rxb_ne_canintf hs n.isLt (k := 0) (by omega)),
    State.reg_putBits_same _ _ _ hlt, State.reg_loadRegs_ne]
  intro a ha
  obtain ⟨i, hi, rfl⟩ := List.mem_map.1 ha
  rw [List.mem_range] at hi
  rw [Nat.add_assoc]
  exact State.home_rxb_ne hs n.isLt (by omega) hlt (by omega)

theorem State.reg_receive_canintf :
    (s.canStep (.receive n v c)).reg CANINTF = s.reg CANINTF ||| (1#8 <<< n.val) := by
  have hctrl : s.chip.home (rxb n) ≠ s.chip.home CANINTF :=
    (State.home_rxb_ne_canintf hs n.isLt (k := 0) (by omega)).symm
  rw [State.canStep_receive hs h, State.reg_setBits_same _ _ (by decide),
    State.reg_putBits_ne _ _ _ (by simpa using hctrl), State.reg_loadRegs_ne]
  intro a ha
  obtain ⟨i, hi, rfl⟩ := List.mem_map.1 ha
  rw [List.mem_range] at hi
  rw [Nat.add_assoc]
  exact (State.home_rxb_ne_canintf hs n.isLt (by omega)).symm

end

/-! ## E2: the outcomes of a transmission -/

section
variable {s : State} {n : Nat}

theorem txb_lt (hn : n < 3) : txb n < 0x80 := by
  unfold txb
  omega

theorem State.home_txb_ne (hs : s.standard) (hn : n < 3) {b : Nat} (hb : b < 0x80) (h : txb n ≠ b) :
    s.chip.home (txb n) ≠ s.chip.home b :=
  State.home_ne hs (txb_lt hn) hb h (by unfold txb; omega)

theorem State.home_txb_ne_canintf (hs : s.standard) (hn : n < 3) : s.chip.home (txb n) ≠ s.chip.home CANINTF :=
  State.home_txb_ne hs hn (by decide) (by unfold txb CANINTF; omega)

end

section
variable {s : State} (hs : s.standard) {n : Fin 3} (h : s.txRequested n = true)
include hs h

theorem State.canStep_transmitDone :
    s.canStep (.transmitDone n) = (s.clearBits (txb n) 0x08#8).setBits CANINTF (0x04#8 <<< n.val) := by
  rw [State.canStep_of_admitted (by simp [State.admitsCanStep, h])]
  simp only [State.canEffect, hs, txb_standard n.isLt, txIF_standard n.isLt, bufferAt_CTRL, standard_CANINTF,
    standard_txreq]

theorem State.reg_transmitDone_ctrl :
    (s.canStep (.transmitDone n)).reg (txb n) = s.reg (txb n) &&& ~~~0x08#8 := by
  rw [State.canStep_transmitDone hs h,
    State.reg_setBits_ne _ _ (by simpa using (State.home_txb_ne_canintf hs n.isLt).symm),
    State.reg_clearBits_same _ _ (txb_lt n.isLt)]

theorem State.reg_transmitDone_canintf :
    (s.canStep (.transmitDone n)).reg CANINTF = s.reg CANINTF ||| (0x04#8 <<< n.val) := by
  rw [State.canStep_transmitDone hs h, State.reg_setBits_same _ _ (by decide),
    State.reg_clearBits_ne _ _ (State.home_txb_ne_canintf hs n.isLt)]

/-- The bits a failed transmission sets; it may clear TXREQ as well. -/
theorem State.canStep_transmitError (x y : Byte) (abort : Bool) : s.canStep (.transmitError n x y abort) =
    if abort then ((s.setBits (txb n) (x &&& 0x70#8)).setBits CANINTF (y &&& 0xA0#8)).clearBits (txb n) 0x08#8
    else (s.setBits (txb n) (x &&& 0x70#8)).setBits CANINTF (y &&& 0xA0#8) := by
  rw [State.canStep_of_admitted (by simp [State.admitsCanStep, h])]
  simp only [State.canEffect, hs, txb_standard n.isLt, bufferAt_CTRL, standard_CANINTF, standard_txreq,
    standard_outcomeBits, standard_errIF, standard_merrF]
  rfl

theorem State.reg_transmitError_ctrl (x y : Byte) (abort : Bool) :
    (s.canStep (.transmitError n x y abort)).reg (txb n) =
      (s.reg (txb n) ||| (x &&& 0x70)) &&& (if abort then ~~~0x08#8 else 0xFF) := by
  have hset : ((s.setBits (txb n) (x &&& 0x70#8)).setBits CANINTF (y &&& 0xA0#8)).reg (txb n) =
      s.reg (txb n) ||| (x &&& 0x70#8) := by
    rw [State.reg_setBits_ne _ _ (by simpa using (State.home_txb_ne_canintf hs n.isLt).symm),
      State.reg_setBits_same _ _ (txb_lt n.isLt)]
  rw [State.canStep_transmitError hs h]
  cases abort
  · exact hset.trans BitVec.and_allOnes.symm
  · exact (State.reg_clearBits_same _ _ (txb_lt n.isLt)).trans (congrArg (· &&& ~~~0x08#8) hset)

theorem State.reg_transmitError_canintf (x y : Byte) (abort : Bool) :
    (s.canStep (.transmitError n x y abort)).reg CANINTF = s.reg CANINTF ||| (y &&& 0xA0) := by
  have hfar := State.home_txb_ne_canintf hs n.isLt
  have hset : ((s.setBits (txb n) (x &&& 0x70#8)).setBits CANINTF (y &&& 0xA0#8)).reg CANINTF =
      s.reg CANINTF ||| (y &&& 0xA0#8) := by
    rw [State.reg_setBits_same _ _ (by decide), State.reg_setBits_ne _ _ hfar]
  rw [State.canStep_transmitError hs h]
  cases abort
  · exact hset
  · exact (State.reg_clearBits_ne _ _ (by simpa using hfar)).trans hset

end

/-- Settles O20: the registers after each effect, the frame from the addresses it may write, and no step where R60's
precondition fails. -/
theorem canSideReceivesAndTransmits : Obligations.CanSideReceivesAndTransmits := by
  unfold Obligations.CanSideReceivesAndTransmits
  refine ⟨fun s n v c hs h => ⟨fun k hk => State.reg_receive_frame hs h v c hk, State.reg_receive_ctrl hs h v c,
      State.reg_receive_canintf hs h v c, sameRegsExcept_canStep ?_⟩,
    fun s n v c hs h => State.canStep_of_not_admitted (by simp [State.admitsCanStep, h]),
    fun s n hs => ⟨fun ⟨h0, h1⟩ => ⟨?_, sameRegsExcept_canStep ?_⟩, fun h => State.canStep_of_not_admitted ?_⟩,
    fun s n hs h => ⟨State.reg_transmitDone_ctrl hs h, State.reg_transmitDone_canintf hs h,
      sameRegsExcept_canStep ?_⟩,
    fun s n x y abort hs h => ⟨State.reg_transmitError_ctrl hs h x y abort,
      State.reg_transmitError_canintf hs h x y abort, sameRegsExcept_canStep ?_⟩,
    fun s n x y abort hs h => ⟨State.canStep_of_not_admitted (by simp [State.admitsCanStep, h]),
      State.canStep_of_not_admitted (by simp [State.admitsCanStep, h])⟩⟩
  · rw [hs, canTouched, rxb_standard n.isLt, bufferAt_registers, standard_CANINTF]
  · rw [State.canStep_overflow hs h0 h1, State.reg_setBits_same _ _ (by decide)]
  · rw [hs, canTouched, standard_EFLG]
  · rcases h with h | h <;> simp [State.admitsCanStep, h]
  · rw [hs, canTouched, txb_standard n.isLt, bufferAt_CTRL, standard_CANINTF]
  · rw [hs, canTouched, txb_standard n.isLt, bufferAt_CTRL, standard_CANINTF]

/-! ## E3: error bookkeeping -/

section
variable {s : State} (hs : s.standard)
include hs

theorem State.canStep_errorUpdate (tec rec eflg flags : Byte) : s.canStep (.errorUpdate tec rec eflg flags) =
    ((((s.putReg TEC (tec &&& 0xFF#8)).putReg REC (rec &&& 0xFF#8)).putBits EFLG 0x3F#8 eflg).setBits EFLG
      (eflg &&& 0xC0#8)).setBits CANINTF (flags &&& 0xE0#8) := by
  rw [State.canStep_of_admitted rfl]
  simp only [State.canEffect, hs]
  rfl

end

/-- EFLG's bits 7:6 are set only, the others written whole (R60 E3). -/
theorem eflg_errorUpdate (b e : Byte) :
    (b &&& ~~~0x3F#8) ||| (e &&& 0x3F#8) ||| (e &&& 0xC0#8) = (b &&& 0xC0) ||| e := by
  rw [BitVec.or_assoc, ← BitVec.and_or_distrib_left]
  exact congrArg _ BitVec.and_allOnes

section
variable {s : State} (hs : s.standard) (tec rec eflg flags : Byte)
include hs

/-- The four registers that error bookkeeping writes. -/
theorem State.regs_errorUpdate : let t := s.canStep (.errorUpdate tec rec eflg flags)
    t.reg TEC = tec ∧ t.reg REC = rec ∧ t.reg EFLG = (s.reg EFLG &&& 0xC0) ||| eflg ∧
      t.reg CANINTF = s.reg CANINTF ||| (flags &&& 0xE0#8) := by
  have ne : [TEC, REC, EFLG, CANINTF].Pairwise (s.chip.home · ≠ s.chip.home ·) := by
    rw [hs]
    decide
  simp only [List.pairwise_cons, List.mem_cons, List.not_mem_nil, or_false, forall_eq_or_imp, forall_eq] at ne
  obtain ⟨⟨hTecRec, hTecEflg, hTecIntf⟩, ⟨hRecEflg, hRecIntf⟩, hEflgIntf, -⟩ := ne
  have full (b : Byte) : b &&& 0xFF#8 = b := BitVec.and_allOnes
  simp only [State.canStep_errorUpdate hs]
  refine ⟨?_, ?_, ?_, ?_⟩
  · rw [State.reg_setBits_ne _ _ (by simpa using hTecIntf.symm),
      State.reg_setBits_ne _ _ (by simpa using hTecEflg.symm),
      State.reg_putBits_ne _ _ _ (by simpa using hTecEflg.symm), State.reg_putReg_ne _ _ (by simpa using hTecRec.symm),
      State.reg_putReg_same _ _ (by decide), full]
  · rw [State.reg_setBits_ne _ _ (by simpa using hRecIntf.symm),
      State.reg_setBits_ne _ _ (by simpa using hRecEflg.symm),
      State.reg_putBits_ne _ _ _ (by simpa using hRecEflg.symm), State.reg_putReg_same _ _ (by decide), full]
  · rw [State.reg_setBits_ne _ _ (by simpa using hEflgIntf.symm), State.reg_setBits_same _ _ (by decide),
      State.reg_putBits_same _ _ _ (by decide), State.reg_putReg_ne _ _ (by simpa using hRecEflg),
      State.reg_putReg_ne _ _ hTecEflg]
    exact eflg_errorUpdate _ _
  · rw [State.reg_setBits_same _ _ (by decide), State.reg_setBits_ne _ _ (by simpa using hEflgIntf),
      State.reg_putBits_ne _ _ _ (by simpa using hEflgIntf), State.reg_putReg_ne _ _ (by simpa using hRecIntf),
      State.reg_putReg_ne _ _ hTecIntf]

end

/-! ## E4: mode changes -/

/-- ICOD of a CANSTAT byte (R40). -/
def icodOf (b : Byte) : BitVec 3 := (b >>> 1).setWidth 3

theorem icodOf_putOpmod (b : Byte) (m : BitVec 3) :
    icodOf ((b &&& ~~~(0xE0 : Byte)) ||| (atField 5 m &&& 0xE0)) = icodOf b := by
  unfold icodOf atField
  revert b m
  decide +kernel

theorem icodOf_putIcod (b : Byte) (i : BitVec 3) :
    icodOf ((b &&& ~~~(atField 1 0x7)) ||| (atField 1 i &&& atField 1 0x7)) = i := by
  unfold icodOf atField
  revert b i
  decide +kernel

/-- Bits that a masked write does not reach stay. -/
theorem and_putBits_of_disjoint {k m : Byte} (h : ~~~m &&& k = k) (hm : m &&& k = 0) (b v : Byte) :
    ((b &&& ~~~m) ||| (v &&& m)) &&& k = b &&& k := by
  have hand : ((b &&& ~~~m) ||| (v &&& m)) &&& k = (b &&& (~~~m &&& k)) ||| (v &&& (m &&& k)) := by
    ext i hi
    simp
    grind
  rw [hand, h, hm]
  simp

section
variable {s : State} (hs : s.standard)
include hs

theorem State.reg_canstat_putOpmod (m : BitVec 3) :
    (s.putOpmod m).reg CANSTAT = (s.reg CANSTAT &&& ~~~0xE0) ||| (atField 5 m &&& 0xE0) := by
  rw [State.putOpmod, hs]
  exact State.reg_putBits_same _ _ _ (by decide)

theorem State.reg_canstat_putIcod (i : BitVec 3) : (s.putIcod (some i)).reg CANSTAT =
    (s.reg CANSTAT &&& ~~~atField 1 0x7) ||| (atField 1 i &&& atField 1 0x7) := by
  rw [State.putIcod, hs]
  exact State.reg_putBits_same _ _ _ (by decide)

theorem State.icodOf_putOpmod (m : BitVec 3) : icodOf ((s.putOpmod m).reg CANSTAT) = icodOf (s.reg CANSTAT) := by
  rw [State.reg_canstat_putOpmod hs]
  exact Machine.icodOf_putOpmod _ _

theorem State.icodOf_putIcod (icod : Option (BitVec 3)) :
    icodOf ((s.putIcod icod).reg CANSTAT) = icod.getD (icodOf (s.reg CANSTAT)) := by
  cases icod with
  | none => rfl
  | some i =>
    rw [State.reg_canstat_putIcod hs]
    exact Machine.icodOf_putIcod _ _

/-- Writing OPMOD leaves the bits of CANSTAT that are neither OPMOD's nor ICOD's. -/
theorem State.otherBits_putOpmod (m : BitVec 3) : (s.putOpmod m).reg CANSTAT &&& 0x11 = s.reg CANSTAT &&& 0x11 := by
  rw [State.reg_canstat_putOpmod hs]
  exact and_putBits_of_disjoint (by decide) (by decide) _ _

theorem State.otherBits_putIcod (icod : Option (BitVec 3)) :
    (s.putIcod icod).reg CANSTAT &&& 0x11 = s.reg CANSTAT &&& 0x11 := by
  cases icod with
  | none => rfl
  | some i =>
    rw [State.reg_canstat_putIcod hs]
    exact and_putBits_of_disjoint (by decide) (by decide) _ _

theorem State.admitsCanStep_applyMode (icod : Option (BitVec 3)) :
    s.admitsCanStep (.applyMode icod) = true ↔ s.reqop.toNat ≤ 4 := by
  rw [State.admitsCanStep, hs, isModeCode_standard]

theorem State.admitsCanStep_wakeUp (icod : Option (BitVec 3)) :
    s.admitsCanStep (.wakeUp icod) = true ↔ s.opmod = 1 := by
  rw [State.admitsCanStep, hs, standard_mode_sleep, decide_eq_true_iff]

/-- A mode change gives OPMOD the requested mode and ICOD the value the step carries. -/
theorem State.canstat_applyMode (icod : Option (BitVec 3)) (h : s.reqop.toNat ≤ 4) :
    let t := s.canStep (.applyMode icod)
    t.opmod = s.reqop ∧ icodOf (t.reg CANSTAT) = icod.getD (icodOf (s.reg CANSTAT)) ∧
      t.reg CANSTAT &&& 0x11 = s.reg CANSTAT &&& 0x11 := by
  have hu : (s.putOpmod s.reqop).standard := hs.of_chip (by simp)
  simp only [State.canStep_of_admitted ((State.admitsCanStep_applyMode hs icod).2 h), State.canEffect]
  refine ⟨?_, ?_, ?_⟩
  · rw [State.opmod_putIcod hu, State.opmod_putOpmod hs]
  · rw [State.icodOf_putIcod hu, State.icodOf_putOpmod hs]
  · rw [State.otherBits_putIcod hu, State.otherBits_putOpmod hs]

theorem State.canStep_wakeUp (icod : Option (BitVec 3)) (h : s.opmod = 1) :
    s.canStep (.wakeUp icod) = ((s.putOpmod 3).setBits CANINTF 0x40#8).putIcod icod := by
  rw [State.canStep_of_admitted ((State.admitsCanStep_wakeUp hs icod).2 h)]
  simp only [State.canEffect, hs]
  rfl

/-- A wake-up leaves Sleep for Listen-Only, ICOD takes the value the step carries, and WAKIF is set. -/
theorem State.canstat_wakeUp (icod : Option (BitVec 3)) (h : s.opmod = 1) :
    let t := s.canStep (.wakeUp icod)
    t.opmod = 3 ∧ icodOf (t.reg CANSTAT) = icod.getD (icodOf (s.reg CANSTAT)) ∧
      t.reg CANSTAT &&& 0x11 = s.reg CANSTAT &&& 0x11 ∧ t.reg CANINTF = s.reg CANINTF ||| 0x40#8 := by
  have hp : (s.putOpmod 3).standard := hs.of_chip (by simp)
  have hu : ((s.putOpmod 3).setBits CANINTF 0x40#8).standard := hs.of_chip (by simp)
  have hfar : s.chip.home CANINTF ≠ s.chip.home CANSTAT :=
    State.home_ne hs (by decide) (by decide) (by decide) (by decide)
  have hstat : ((s.putOpmod 3).setBits CANINTF 0x40#8).reg CANSTAT = (s.putOpmod 3).reg CANSTAT :=
    State.reg_setBits_ne _ _ (by simpa using hfar)
  have hflags : (s.putOpmod 3).reg CANINTF = s.reg CANINTF := by
    rw [State.putOpmod, hs]
    exact State.reg_putBits_ne _ _ _ hfar.symm
  simp only [State.canStep_wakeUp hs icod h]
  refine ⟨?_, ?_, ?_, ?_⟩
  · rw [State.opmod_putIcod hu, State.opmod_eq hu, hstat, ← State.opmod_eq hp, State.opmod_putOpmod hs]
  · rw [State.icodOf_putIcod hu, hstat, State.icodOf_putOpmod hs]
  · rw [State.otherBits_putIcod hu, hstat, State.otherBits_putOpmod hs]
  · rw [State.reg_putIcod_ne _ _ (by simpa [hs] using hfar.symm), State.reg_setBits_same _ _ (by decide), hflags]

end

/-! ## E5: pins -/

theorem and_bit_eq_zero (x : Byte) {n : Nat} (hn : n < 8) : x &&& (1#8 <<< n) = 0 ↔ x[n] = false := by
  rw [← BitVec.twoPow_eq, BitVec.and_twoPow, BitVec.getLsbD_eq_getElem hn]
  have hne : BitVec.twoPow 8 n ≠ 0#8 := fun h => by
    have := congrArg (·[n]) h
    simp at this
  cases x[n] <;> simp [hne]

theorem and_bit_bne_zero (x : Byte) {n : Nat} (hn : n < 8) : (x &&& (1#8 <<< n) != 0) = x[n] := by
  rw [Bool.eq_iff_iff, bne_iff_ne, Ne, and_bit_eq_zero x hn, Bool.not_eq_false]

section
variable {s : State} (hs : s.standard) (modes requests : Byte)
include hs

/-- A pin's request sets TXREQ of its own buffer, where its mode bit and its request are set. -/
theorem State.reg_pinRequest {n : Nat} (hn : n < 3) : (s.pinRequest modes requests n).reg (txb n) =
    if modes &&& requests &&& (1#8 <<< n) = 0 then s.reg (txb n) else s.reg (txb n) ||| 0x08#8 := by
  have hn8 : n < 8 := by omega
  have hpin : bit n = 1#8 <<< n := rfl
  have hset := s.reg_setBits_same (0x08#8) (txb_lt hn)
  simp only [State.pinRequest, hs, txb_standard hn, pinMode_standard hn, hpin, and_bit_bne_zero _ hn8,
    and_bit_eq_zero _ hn8, BitVec.getElem_and, standard_txreq, bufferAt_CTRL]
  cases modes[n] <;> cases requests[n] <;> simp [hset]

theorem State.reg_pinRequest_other {m n : Nat} (hm : m < 3) (hn : n < 3) (h : m ≠ n) :
    (s.pinRequest modes requests m).reg (txb n) = s.reg (txb n) := by
  refine s.reg_pinRequest_ne _ _ ?_
  rw [hs, txb_standard hm, ← hs]
  exact State.home_txb_ne hs hm (txb_lt hn) (by unfold txb; omega)

/-- The three requests of a pins step, each for its own buffer. -/
theorem State.reg_pinRequests {n : Nat} (hn : n < 3) :
    (((s.pinRequest modes requests 0).pinRequest modes requests 1).pinRequest modes requests 2).reg (txb n) =
      if modes &&& requests &&& (1#8 <<< n) = 0 then s.reg (txb n) else s.reg (txb n) ||| 0x08#8 := by
  have h1 : (s.pinRequest modes requests 0).standard := hs.of_chip (by simp)
  have h2 : ((s.pinRequest modes requests 0).pinRequest modes requests 1).standard := hs.of_chip (by simp)
  have other {u : State} (hu : u.standard) {m : Nat} (hm : m < 3) (h : m ≠ n) :=
    State.reg_pinRequest_other hu modes requests hm hn h
  obtain rfl | rfl | rfl : n = 0 ∨ n = 1 ∨ n = 2 := by omega
  · rw [other h2 (by omega) (by omega), other h1 (by omega) (by omega), State.reg_pinRequest hs _ _ hn]
  · rw [other h2 (by omega) (by omega), State.reg_pinRequest h1 _ _ hn, other hs (by omega) (by omega)]
  · rw [State.reg_pinRequest h2 _ _ hn, other h1 (by omega) (by omega), other hs (by omega) (by omega)]

end

section
variable {s : State} (hs : s.standard)
include hs

theorem State.home_txrtsctrl_ne_txb {n : Nat} (hn : n < 3) : s.chip.home TXRTSCTRL ≠ s.chip.home (txb n) :=
  (State.home_txb_ne hs hn (by decide) (by unfold txb TXRTSCTRL; omega)).symm

theorem State.canStep_pins (levels requests : Byte) :
    let modes := s.reg TXRTSCTRL
    s.canStep (.pins levels requests) = (((s.putBits TXRTSCTRL 0x38#8 levels).pinRequest modes requests 0).pinRequest
      modes requests 1).pinRequest modes requests 2 := by
  rw [State.canStep_of_admitted rfl]
  simp only [State.canEffect, hs, standard_TXRTSCTRL, standard_pinLevels]

theorem State.reg_pins_txb (levels requests : Byte) {n : Nat} (hn : n < 3) :
    (s.canStep (.pins levels requests)).reg (txb n) =
      if s.reg TXRTSCTRL &&& requests &&& (1#8 <<< n) = 0 then s.reg (txb n) else s.reg (txb n) ||| 0x08#8 := by
  simp only [State.canStep_pins hs]
  rw [State.reg_pinRequests (hs.of_chip (by simp)) _ _ hn,
    State.reg_putBits_ne _ _ _ (State.home_txrtsctrl_ne_txb hs hn)]

theorem State.reg_pins_txrtsctrl (levels requests : Byte) : (s.canStep (.pins levels requests)).reg TXRTSCTRL =
    (s.reg TXRTSCTRL &&& ~~~0x38#8) ||| (levels &&& 0x38#8) := by
  have hfar {n : Nat} (hn : n < 3) : s.chip.home (s.chip.txb n).CTRL ≠ s.chip.home TXRTSCTRL := by
    rw [hs, txb_standard hn, ← hs]
    exact (State.home_txrtsctrl_ne_txb hs hn).symm
  simp only [State.canStep_pins hs]
  rw [State.reg_pinRequest_ne _ _ _ (by simpa using hfar (n := 2) (by omega)),
    State.reg_pinRequest_ne _ _ _ (by simpa using hfar (n := 1) (by omega)),
    State.reg_pinRequest_ne _ _ _ (by simpa using hfar (n := 0) (by omega)), State.reg_putBits_same _ _ _ (by decide)]

end

/-- Settles O21: E3's four registers, E4's CANSTAT and CANINTF, E5's pins and requests, each with its frame. -/
theorem canSideErrorsModesAndPins : Obligations.CanSideErrorsModesAndPins := by
  unfold Obligations.CanSideErrorsModesAndPins
  intro s hs icod
  refine ⟨fun tec rec eflg flags => ?_, fun i => ⟨fun h => ?_, fun h => State.canStep_of_not_admitted ?_⟩,
    fun i => ⟨fun h => ?_, fun h => State.canStep_of_not_admitted ?_⟩, fun l r => ?_⟩
  · obtain ⟨h1, h2, h3, h4⟩ := State.regs_errorUpdate hs tec rec eflg flags
    exact ⟨h1, h2, h3, h4, sameRegsExcept_canStep (by rw [hs]; rfl)⟩
  · obtain ⟨h1, h2, h3⟩ := State.canstat_applyMode hs i h
    exact ⟨h1, h2, h3, sameRegsExcept_canStep (by rw [hs]; rfl)⟩
  · rw [← Bool.not_eq_true, State.admitsCanStep_applyMode hs]
    omega
  · obtain ⟨h1, h2, h3, h4⟩ := State.canstat_wakeUp hs i h
    exact ⟨h1, h2, h3, h4, sameRegsExcept_canStep (by rw [hs]; rfl)⟩
  · rw [← Bool.not_eq_true, State.admitsCanStep_wakeUp hs]
    exact h
  · exact ⟨State.reg_pins_txrtsctrl hs l r, fun n hn => State.reg_pins_txb hs l r hn,
      sameRegsExcept_canStep (by rw [hs]; rfl)⟩

/-! ## What CANSIDE never does (R61) -/

/-- The addresses that CANSIDE effects outside the transmit side may write. -/
def canTouchedElsewhere : List Nat :=
  [CANSTAT, CANINTF, EFLG, TEC, REC] ++ (List.range 14).map (rxb 0 + ·) ++ (List.range 14).map (rxb 1 + ·)

/-- e is the outcome of a transmission of buffer n (E2). -/
def endsTransmission (n : Nat) (e : CanStep) : Prop :=
  ∃ m : Fin 3, m.val = n ∧ (e = .transmitDone m ∨ ∃ x y z, e = .transmitError m x y z)

/-- Only a pins step may write TXRTSCTRL; only it and a transmission's outcome may write a TXBnCTRL. -/
theorem canTouched_cases {e : CanStep} (hpins : ∀ l r, e ≠ .pins l r) {a : Nat} (ha : a ∈ canTouched Chip.standard e) :
    (∃ n, n < 3 ∧ a = txb n ∧ endsTransmission n e) ∨ a ∈ canTouchedElsewhere := by
  cases e with
  | receive m v c =>
    right
    rw [canTouched, rxb_standard m.isLt, bufferAt_registers, List.mem_cons] at ha
    rcases ha with rfl | ha
    · decide
    · revert ha
      fin_cases m <;> simp +contextual [canTouchedElsewhere]
  | overflow m => right; revert a; simp only [canTouched]; decide
  | transmitDone m =>
    simp only [canTouched, txb_standard m.isLt, bufferAt_CTRL, List.mem_cons, List.not_mem_nil, or_false] at ha
    rcases ha with rfl | rfl
    · exact .inl ⟨m, m.isLt, rfl, m, rfl, .inl rfl⟩
    · right; decide
  | transmitError m x y z =>
    simp only [canTouched, txb_standard m.isLt, bufferAt_CTRL, List.mem_cons, List.not_mem_nil, or_false] at ha
    rcases ha with rfl | rfl
    · exact .inl ⟨m, m.isLt, rfl, m, rfl, .inr ⟨x, y, z, rfl⟩⟩
    · right; decide
  | errorUpdate x y z w => right; revert a; simp only [canTouched]; decide
  | applyMode i => right; revert a; simp only [canTouched]; decide
  | wakeUp i => right; revert a; simp only [canTouched]; decide
  | pins l r => exact absurd rfl (hpins l r)

theorem slotOf_canTouchedElsewhere : ∀ a ∈ canTouchedElsewhere,
    slotOf a ≠ slotOf TXRTSCTRL ∧ ∀ n : Fin 3, slotOf a ≠ slotOf (txb n) := by
  decide +kernel

/-- A transmission that is not requested has no outcome. -/
theorem State.canStep_of_not_requested {s : State} {e : CanStep} {n : Nat} (he : endsTransmission n e)
    (h : s.txRequested n = false) : s.canStep e = s := by
  obtain ⟨m, rfl, rfl | ⟨x, y, z, rfl⟩⟩ := he
  · exact State.canStep_of_not_admitted h
  · exact State.canStep_of_not_admitted h

section
variable {s : State} (hs : s.standard)
include hs

theorem State.reg_txrtsctrl_canStep {e : CanStep} (hpins : ∀ l r, e ≠ .pins l r) :
    (s.canStep e).reg TXRTSCTRL = s.reg TXRTSCTRL := by
  refine s.reg_canStep_ne e fun a ha => ?_
  rw [hs] at ha
  rcases canTouched_cases hpins ha with ⟨n, hn, rfl, -⟩ | ha
  · exact (State.home_txrtsctrl_ne_txb hs hn).symm
  · rw [hs]
    exact (slotOf_canTouchedElsewhere a ha).1

/-- No CANSIDE step changes the pin modes, TXRTSCTRL's bits 2:0. -/
theorem State.pinModes_canStep (e : CanStep) :
    (s.canStep e).reg TXRTSCTRL &&& 0x07 = s.reg TXRTSCTRL &&& 0x07 := by
  by_cases hpins : ∃ l r, e = .pins l r
  · obtain ⟨l, r, rfl⟩ := hpins
    rw [State.reg_pins_txrtsctrl hs]
    exact and_putBits_of_disjoint (by decide) (by decide) _ _
  · rw [State.reg_txrtsctrl_canStep hs fun l r he => hpins ⟨l, r, he⟩]

/-- A step that is no pins step and ends no transmission of buffer n leaves TXBnCTRL. -/
theorem State.reg_txb_canStep {e : CanStep} (hpins : ∀ l r, e ≠ .pins l r) {n : Nat} (hn : n < 3)
    (he : ¬endsTransmission n e) : (s.canStep e).reg (txb n) = s.reg (txb n) := by
  refine s.reg_canStep_ne e fun a ha => ?_
  rw [hs] at ha
  rcases canTouched_cases hpins ha with ⟨m, hm, rfl, hem⟩ | ha
  · have hmn : m ≠ n := by
      rintro rfl
      exact he hem
    exact State.home_txb_ne hs hm (txb_lt hn) (by unfold txb; omega)
  · rw [hs]
    exact (slotOf_canTouchedElsewhere a ha).2 ⟨n, hn⟩

/-- TXREQ is set only by a pin whose enable bit is set (E5). -/
theorem State.pins_of_txRequested_canStep {e : CanStep} {n : Nat} (hn : n < 3) (h : s.txRequested n = false)
    (h' : (s.canStep e).txRequested n = true) : ∃ l r, e = .pins l r ∧ s.reg TXRTSCTRL &&& (1#8 <<< n) ≠ 0 := by
  have hchanged : (s.canStep e).reg (txb n) ≠ s.reg (txb n) := by
    intro hsame
    rw [State.txRequested_eq (hs.of_chip (by simp)) hn, hsame, ← State.txRequested_eq hs hn, h] at h'
    cases h'
  by_cases hpins : ∃ l r, e = .pins l r
  · obtain ⟨l, r, rfl⟩ := hpins
    refine ⟨l, r, rfl, fun hmode => hchanged ?_⟩
    rw [State.reg_pins_txb hs l r hn, BitVec.and_assoc, BitVec.and_comm r, ← BitVec.and_assoc, hmode]
    simp
  · by_cases he : endsTransmission n e
    · exact absurd (congrArg (State.reg · (txb n)) (State.canStep_of_not_requested he h)) hchanged
    · exact absurd (State.reg_txb_canStep hs (fun l r hp => hpins ⟨l, r, hp⟩) hn he) hchanged

end

/-- The filters and masks (R39) are among the registers CANSIDE never writes. -/
theorem hostOnly_filters {b : Nat} (h : b < 0x0C ∨ (0x10 ≤ b ∧ b < 0x1C) ∨ (0x20 ≤ b ∧ b < 0x28)) :
    hostOnly b = true := by
  simp only [hostOnly, Bool.or_eq_true, Bool.and_eq_true, decide_eq_true_iff]
  omega

/-- So are registers +1 to +13 of every transmit buffer (R37). -/
theorem hostOnly_txb {n k : Nat} (hn : n < 3) (h1 : 1 ≤ k) (hk : k < 14) : hostOnly (txb n + k) = true := by
  unfold txb
  simp only [hostOnly, Bool.or_eq_true, Bool.and_eq_true, decide_eq_true_iff]
  omega

/-- Settles O19: the flags and the lock, the registers CANSIDE never writes, the pin modes, and TXREQ. -/
theorem canSideNeverDoes : Obligations.CanSideNeverDoes := by
  unfold Obligations.CanSideNeverDoes
  intro s e hs
  refine ⟨fun n _ h => State.rxFlag_canStep hs h e, fun n k hn hk h => State.reg_canStep_locked hs hn h e hk,
    fun b hb => ?_, fun b hb => ?_, State.pinModes_canStep hs e, fun n k hn hk hk' => ?_,
    fun n hn h h' => State.pins_of_txRequested_canStep hs hn h h', ⟨by simp, by simp, by simp, by simp, by simp⟩,
    by simp, by simp⟩
  · have hlist : ∀ b ∈ [CNF1, CNF2, CNF3, CANINTE, CANCTRL, BFPCTRL], b < 0x80 ∧ hostOnly b = true := by decide
    exact State.reg_canStep_hostOnly hs e (hlist b hb).1 (hlist b hb).2
  · exact State.reg_canStep_hostOnly hs e (by omega) (hostOnly_filters hb)
  · exact State.reg_canStep_hostOnly hs e (by unfold txb; omega) (hostOnly_txb hn hk hk')

end Sys2Proof.Machine
end

section
/-! PROOFS. The memory rules (20_memory.md: R82, R86, R92): what is refused past the register file, which registers no
transaction writes, and that READ, RDSTATUS, WRITE and BITMOD may be repeated. -/

namespace Sys2Proof.Machine

/-! ## Addresses past the register file (R82) -/

theorem registersExist_eq_false {a n : Nat} (h : 0x7F < a ∨ 0x80 < a + n) : registersExist a n = false := by
  rw [← Bool.not_eq_true, registersExist_iff]
  omega

theorem exec_toInstr_refused {c : Command} (hc : commandAdmitted c = false) (s : State) :
    exec c.toInstr s = .refused .addressOutOfRange := by
  rw [exec_toInstr]
  simp [linkCommand, hc]

/-- A call is refused when HOST's status admits it and its one transaction reaches no register. -/
theorem exec_call_notAdmitted {i : Instr} (hi : callAdmitted i = false) {s : State} (hd : s.chip.commands.distinct)
    {p : Prog} (hp : callProg s.chip i = some p) (hr : s.callRefused i = none) :
    exec i s = .refused .addressOutOfRange := by
  rw [exec_call_of hp hr]
  exact run_notAdmitted hi (by simpa using hd) (by simpa using hp) _

/-- Settles O16: ENGINE admits no such transaction, on the link or from HOST. -/
theorem addressesPastTheFileAreRefused : Obligations.AddressesPastTheFileAreRefused := by
  unfold Obligations.AddressesPastTheFileAreRefused
  intro s a m v n data hd
  refine ⟨fun h => ?_, fun h => ?_, fun h => ?_⟩
  · have hc : commandAdmitted (.read a n) = false := registersExist_eq_false h
    exact ⟨exec_toInstr_refused hc s, exec_call_notAdmitted (i := .readRegister a n) hc hd rfl rfl⟩
  · have hc : commandAdmitted (.write a data.toList) = false := registersExist_eq_false h
    exact ⟨exec_toInstr_refused hc s, exec_call_notAdmitted (i := .writeRegister a data) hc hd rfl rfl⟩
  · have hc : commandAdmitted (.bitmod a m v) = false := registersExist_eq_false (.inl h)
    exact ⟨exec_toInstr_refused hc s, exec_call_notAdmitted (i := .modifyRegister a m v) hc hd rfl rfl⟩

/-! ## Registers that take no write (R36, R86) -/

/-- Addresses of one register have the same row (R35). -/
theorem info_congr {a b : Nat} (ha : a < 0x80) (hb : b < 0x80) (h : slotOf a = slotOf b) :
    Chip.standard.info a = Chip.standard.info b := by
  rw [← info_slotOf ha, ← info_slotOf hb, h]

theorem State.protectedNow_congr {s : State} (hs : s.standard) {a b : Nat} (ha : a < 0x80) (hb : b < 0x80)
    (h : slotOf a = slotOf b) : s.protectedNow a = s.protectedNow b := by
  simp only [State.protectedNow, Chip.configProtected, hs, info_congr ha hb h]

/-- The register at address b has no bit that WRITE or BITMOD can change (R36). -/
def readOnlyAt (b : Nat) : Prop := Chip.standard.wmask b = 0 ∧ Chip.standard.configProtected b = false

theorem readOnlyAt_canstat_mirror {b : Nat} (hb : b < 0x80) (hm : b % 16 = 14) : readOnlyAt b := by
  have h : Chip.standard.info b = Chip.standard.info CANSTAT :=
    info_congr hb (by decide) ((slotOf_eq_iff hb (by decide)).2 (.inr (.inl ⟨hm, by decide⟩)))
  unfold readOnlyAt Chip.wmask Chip.configProtected
  rw [h]
  decide

theorem readOnlyAt_rxb {n k : Nat} (hn : n < 2) (h1 : 1 ≤ k) (hk : k < 14) : readOnlyAt (rxb n + k) := by
  have h : ∀ (n : Fin 2) (k : Fin 14), 1 ≤ k.val → Chip.standard.wmask (rxb n + k) = 0 ∧
      Chip.standard.configProtected (rxb n + k) = false := by decide +kernel
  exact h ⟨n, hn⟩ ⟨k, hk⟩ h1

section
variable {s : State} {b : Nat}

theorem State.reg_storeReg_readOnly (hs : s.standard) (hb : b < 0x80) (h : readOnlyAt b) (a : Nat) (v : Byte) :
    (s.storeReg a v).reg b = s.reg b := by
  obtain ⟨hw, hp⟩ := h
  by_cases hab : a < 0x80 ∧ slotOf a = slotOf b
  · obtain ⟨ha, hab⟩ := hab
    have hun : s.protectedNow a = false := by
      rw [State.protectedNow_congr hs ha hb hab]
      simp [State.protectedNow, hs, hp]
    rw [s.reg_storeReg b v ha, if_pos (by rw [hs]; exact hab), storedValue_unprotected v hun,
      maskedWrite_readOnly (by rw [hs, wmask_congr ha hb hab, hw])]
    exact s.reg_congr (by rw [hs]; exact hab)
  · refine s.reg_storeReg_ne v fun h => hab ?_
    rw [hs] at h
    exact ⟨by_contra fun ha => slotOf_ne_of_ge (by omega) hb h, h⟩

theorem State.reg_storeRegs_readOnly (hs : s.standard) (hb : b < 0x80) (h : readOnlyAt b) (a : Nat) (ds : List Byte) :
    (s.storeRegs a ds).reg b = s.reg b := by
  induction ds generalizing s a with
  | nil => rfl
  | cons d ds ih => rw [State.storeRegs, ih (hs.of_chip (by simp)), State.reg_storeReg_readOnly hs hb h]

theorem State.reg_engineEffect_readOnly (hs : s.standard) (hb : b < 0x80) (h : readOnlyAt b) {c : Command}
    (hc : c ≠ .reset) : (s.engineEffect c).reg b = s.reg b := by
  cases c with
  | reset => exact absurd rfl hc
  | read a n => rfl
  | write a ds => exact State.reg_storeRegs_readOnly hs hb h _ ds
  | bitmod a m v => exact State.reg_storeReg_readOnly hs hb h _ _
  | rdstatus => rfl

end

/-- Settles O8: the write mask of each of these registers is empty, and none is protected. -/
theorem readOnlyRegistersTakeNoWrite : Obligations.ReadOnlyRegistersTakeNoWrite := by
  unfold Obligations.ReadOnlyRegistersTakeNoWrite
  intro s t i hs hi hexec b hb hreg
  obtain ⟨c, rfl, hc⟩ : ∃ c : Command, i = c.toInstr ∧ c ≠ .reset := by
    rcases hi with ⟨a, ds, rfl⟩ | ⟨a, m, v, rfl⟩
    · exact ⟨.write a ds, rfl, by simp⟩
    · exact ⟨.bitmod a m v, rfl, by simp⟩
  have hro : readOnlyAt b := by
    rcases hreg with hm | rfl | rfl | ⟨n, k, hn, h1, hk, rfl⟩
    · exact readOnlyAt_canstat_mirror hb hm
    · exact ⟨by decide, by decide⟩
    · exact ⟨by decide, by decide⟩
    · exact readOnlyAt_rxb hn h1 hk
  rw [exec_toInstr, linkCommand_next] at hexec
  obtain ⟨-, rfl⟩ := hexec
  exact State.reg_engineEffect_readOnly (s := s.clearBus) hs hb hro hc

/-! ## What a store leaves where protection draws nothing (R86, R89)

A store then replaces a fixed set of the register's bits, so of two stores to one register the later alone shows. -/

/-- The bits of register a that a store replaces now. -/
def State.storeMask (s : State) (a : Nat) : Byte :=
  if s.protectedNow a ∧ s.params.protectedWriteEffect = .ignored then 0 else s.chip.wmask a

theorem maskedWrite_maskedWrite (m old v w : Byte) : maskedWrite m (maskedWrite m old v) w = maskedWrite m old w := by
  unfold maskedWrite
  ext i hi
  simp only [BitVec.getElem_or, BitVec.getElem_and, BitVec.getElem_not]
  cases m[i] <;> simp

/-- A BITMOD of what the same BITMOD left carries the same bits to the register (R88). -/
theorem maskedWrite_bitmodValue (k : Byte) (capable : Bool) (old m v : Byte) :
    maskedWrite k old (bitmodValue capable (maskedWrite k old (bitmodValue capable old m v)) m v) =
      maskedWrite k old (bitmodValue capable old m v) := by
  unfold maskedWrite bitmodValue
  dsimp only
  generalize (if capable then m else 0xFF : Byte) = m'
  ext i hi
  simp only [BitVec.getElem_or, BitVec.getElem_and, BitVec.getElem_not]
  cases k[i] <;> cases m'[i] <;> simp

theorem storedValue_congr {s : State} (hs : s.standard) {a b : Nat} (ha : a < 0x80) (hb : b < 0x80)
    (h : slotOf a = slotOf b) (v : Byte) : storedValue s a v = storedValue s b v := by
  have hr : s.reg a = s.reg b := s.reg_congr (by rw [hs]; exact h)
  simp only [storedValue, State.protectedNow_congr hs ha hb h, hr, hs, wmask_congr ha hb h, impl_congr ha hb h]

section
variable {s : State} (hs : s.standard)
include hs

/-- The register at address a stands at the place `slotOf a` of the file (R34, R35). -/
theorem State.reg_eq_getElem {a : Nat} (ha : a < 0x80) : s.reg a = s.regs[slotOf a]'(slotOf_lt ha) := by
  unfold State.reg regGet
  rw [hs, Vector.getElem?_eq_getElem (slotOf_lt ha), Option.getD_some]

theorem State.regs_putReg_ne {a k : Nat} (v : Byte) (hk : k < 128) (h : slotOf a ≠ k) :
    (s.putReg a v).regs[k] = s.regs[k] := by
  simp only [State.putReg_regs, regSet, hs]
  exact Vector.getElem_setIfInBounds_ne hk h

/-- A store changes the place of its own register in the file and no other. -/
theorem State.regs_storeReg {a k : Nat} (v : Byte) (ha : a < 0x80) (hk : k < 128) :
    (s.storeReg a v).regs[k] = if slotOf a = k then storedValue s k v else s.regs[k] := by
  split
  · next h =>
    subst h
    rw [← State.reg_eq_getElem (hs.of_chip (by simp)) ha, s.reg_storeReg a v ha, if_pos rfl]
    exact storedValue_congr hs ha hk (slotOf_slotOf ha).symm v
  · next h =>
    unfold State.storeReg
    split
    · split
      · rfl
      · exact State.regs_putReg_ne hs _ hk h
      · exact State.regs_putReg_ne hs _ hk h
    · exact State.regs_putReg_ne hs _ hk h

/-- A store of what its register holds already changes nothing. -/
theorem State.regs_storeReg_same {a : Nat} {v : Byte} (ha : a < 0x80) (h : storedValue s a v = s.reg a) :
    (s.storeReg a v).regs = s.regs := by
  ext1 k hk
  rw [State.regs_storeReg hs v ha hk]
  split
  · next hak =>
    subst hak
    rw [← storedValue_congr hs ha hk (slotOf_slotOf ha).symm, h, State.reg_eq_getElem hs ha]
  · rfl

end

section
variable {s t : State} (hd : s.params.protectedWriteEffect ≠ .draw)
include hd

theorem storedValue_eq_maskedWrite (a : Nat) (v : Byte) :
    storedValue s a v = maskedWrite (s.storeMask a) (s.reg a) v := by
  unfold storedValue State.storeMask
  cases s.protectedNow a with
  | false => simp
  | true =>
    cases he : s.params.protectedWriteEffect with
    | ignored => simp [maskedWrite_readOnly]
    | applied => simp
    | draw => exact absurd he hd

/-- What a store leaves depends on the registers and the parameters alone. -/
theorem storedValue_of_regs (hp : t.params = s.params) (hr : t.regs = s.regs) (a : Nat) (v : Byte) :
    storedValue t a v = storedValue s a v := by
  have hc : t.chip = s.chip := congrArg ChipParams.chip hp
  have hreg : ∀ b, t.reg b = s.reg b := State.reg_of_regs hc hr
  have hprot : t.protectedNow a = s.protectedNow a := by
    unfold State.protectedNow State.opmod
    rw [hreg, hc]
  have hm : t.storeMask a = s.storeMask a := by
    unfold State.storeMask
    rw [hprot, hp, hc]
  rw [storedValue_eq_maskedWrite hd, storedValue_eq_maskedWrite (by rwa [hp]), hm, hreg]

end

section
variable {s : State} (hs : s.standard) (hd : s.params.protectedWriteEffect ≠ .draw)
include hs hd

/-- What a store leaves does not depend on the stores before it. -/
theorem storedValue_storeReg {a b : Nat} (ha : a < 0x80) (hb : b < 0x80) (v w : Byte) :
    storedValue (s.storeReg a v) b w = storedValue s b w := by
  have hm : (s.storeReg a v).storeMask b = s.storeMask b := by
    simp [State.storeMask, State.protectedNow, State.opmod_storeReg hs]
  rw [storedValue_eq_maskedWrite (by simpa using hd), hm, s.reg_storeReg b v ha, hs, storedValue_eq_maskedWrite hd b]
  split
  · next h => rw [storedValue_congr hs ha hb h, storedValue_eq_maskedWrite hd, maskedWrite_maskedWrite]
  · rfl

theorem storedValue_storeRegs {a b : Nat} (ds : List Byte) (ha : a + ds.length ≤ 0x80) (hb : b < 0x80) (w : Byte) :
    storedValue (s.storeRegs a ds) b w = storedValue s b w := by
  induction ds generalizing s a with
  | nil => rfl
  | cons d ds ih =>
    rw [List.length_cons] at ha
    rw [State.storeRegs, ih (hs.of_chip (by simp)) (by simpa using hd) (by omega),
      storedValue_storeReg hs hd (by omega) hb]

end

/-! ## A repeated transaction (R92) -/

/-- The last of the bytes, going to the addresses from a on, that goes to place k of the register file. -/
def lastByteTo (k : Nat) : Nat → List Byte → Option Byte
  | _, [] => none
  | a, d :: ds => (lastByteTo k (a + 1) ds).or (if slotOf a = k then some d else none)

section
variable {s t : State} (hs : s.standard) (hd : s.params.protectedWriteEffect ≠ .draw)
include hs hd

/-- Of the bytes a WRITE carries to one register the last decides what it leaves there. -/
theorem State.regs_storeRegs {a k : Nat} (ds : List Byte) (ha : a + ds.length ≤ 0x80) (hk : k < 128) :
    (s.storeRegs a ds).regs[k] = (lastByteTo k a ds).elim s.regs[k] (storedValue s k) := by
  induction ds generalizing s a with
  | nil => rfl
  | cons d ds ih =>
    rw [List.length_cons] at ha
    simp only [State.storeRegs, lastByteTo]
    rw [ih (hs.of_chip (by simp)) (by simpa using hd) (by omega)]
    cases lastByteTo k (a + 1) ds with
    | some e => exact storedValue_storeReg hs hd (by omega) hk d e
    | none =>
      rw [Option.elim_none, State.regs_storeReg hs d (by omega) hk, Option.none_or]
      split <;> rfl

theorem State.regs_storeRegs_again {a : Nat} {ds : List Byte} (ha : a + ds.length ≤ 0x80) (hp : t.params = s.params)
    (hr : t.regs = (s.storeRegs a ds).regs) : (t.storeRegs a ds).regs = t.regs := by
  have ht : t.standard := hs.of_chip (congrArg ChipParams.chip hp)
  ext1 k hk
  rw [State.regs_storeRegs ht (by rwa [hp]) ds ha hk]
  cases hl : lastByteTo k a ds with
  | none => rfl
  | some d =>
    have hst : storedValue t k d = storedValue s k d := by
      rw [storedValue_of_regs (s := s.storeRegs a ds) (by simpa using hd) (by simpa using hp) hr,
        storedValue_storeRegs hs hd ds ha hk]
    simp only [Option.elim_some, hst, hr, State.regs_storeRegs hs hd ds ha hk, hl]

theorem State.regs_bitmodReg_again {a : Nat} (ha : a < 0x80) (m v : Byte) (hp : t.params = s.params)
    (hr : t.regs = (s.bitmodReg a m v).regs) : (t.bitmodReg a m v).regs = t.regs := by
  have hc : t.chip = s.chip := congrArg ChipParams.chip hp
  have hreg : t.reg a = storedValue s a (bitmodValue (s.chip.bitmodCapable a) (s.reg a) m v) := by
    rw [State.reg_of_regs (t := s.bitmodReg a m v) (by simpa [State.bitmodReg] using hc) hr, State.bitmodReg,
      s.reg_storeReg a _ ha, if_pos rfl]
  refine State.regs_storeReg_same (hs.of_chip hc) ha ?_
  calc storedValue t a (bitmodValue (t.chip.bitmodCapable a) (t.reg a) m v)
    _ = storedValue (s.bitmodReg a m v) a (bitmodValue (t.chip.bitmodCapable a) (t.reg a) m v) :=
        storedValue_of_regs (by simpa [State.bitmodReg] using hd) (by simpa [State.bitmodReg] using hp) hr a _
    _ = storedValue s a (bitmodValue (t.chip.bitmodCapable a) (t.reg a) m v) := storedValue_storeReg hs hd ha ha _ _
    _ = storedValue s a (bitmodValue (s.chip.bitmodCapable a) (s.reg a) m v) := by
        rw [hreg, hc]
        simp only [storedValue_eq_maskedWrite hd, maskedWrite_bitmodValue]
    _ = t.reg a := hreg.symm

end

theorem command?_toInstr (c : Command) : c.toInstr.command? = some c := by cases c <;> rfl

theorem toInstr_injective : Function.Injective Command.toInstr := fun c d h => by
  simpa [command?_toInstr] using congrArg Instr.command? h

/-- R92's commands: READ and RDSTATUS, and WRITE and BITMOD where protection draws nothing. -/
def State.mayRepeat (s : State) (c : Command) : Prop :=
  c.kind = .read ∨ c.kind = .rdstatus ∨
    (s.params.protectedWriteEffect ≠ .draw ∧ (c.kind = .write ∨ c.kind = .bitmod))

section
variable {s t : State} {c : Command}

theorem State.regs_engineEffect_again (hs : s.standard) (hc : s.mayRepeat c) (ha : commandAdmitted c = true)
    (hp : t.params = s.params) (hr : t.regs = (s.engineEffect c).regs) : (t.engineEffect c).regs = t.regs := by
  cases c with
  | reset => simp [State.mayRepeat, Command.kind] at hc
  | read a n => rfl
  | write a ds =>
    have hd : s.params.protectedWriteEffect ≠ .draw := by simpa [State.mayRepeat, Command.kind] using hc
    exact State.regs_storeRegs_again hs hd (registersExist_iff.1 ha).2 hp hr
  | bitmod a m v =>
    have hd : s.params.protectedWriteEffect ≠ .draw := by simpa [State.mayRepeat, Command.kind] using hc
    have hlt : a.toNat < 0x80 := by have := (registersExist_iff.1 ha).1; omega
    exact State.regs_bitmodReg_again hs hd hlt m v hp hr
  | rdstatus => rfl

/-- A response is computed from the registers alone (R87, R158). -/
theorem State.engineResponse_of_regs (hc : t.chip = s.chip) (hr : t.regs = s.regs) :
    t.engineResponse c = s.engineResponse c := by
  have hreg : ∀ b, t.reg b = s.reg b := State.reg_of_regs hc hr
  cases c with
  | read a n => simp only [State.engineResponse, State.readRegs, State.readReg, hreg, hc]
  | rdstatus => simp only [State.engineResponse, State.statusByte, hreg, hc]
  | _ => rfl

/-- What a transaction on the link leaves, and the one exchange it records. -/
theorem linkCommand_next_fields (h : linkCommand c s = .next t) :
    t.params = s.params ∧ t.regs = (s.clearBus.engineEffect c).regs ∧
      ∃ d, t.bus.map (·.miso) = [some (freeBytes d (fillerLength c) ++ s.engineResponse c)] := by
  obtain ⟨-, rfl⟩ := linkCommand_next.1 h
  refine ⟨by simp [State.engine_snd], rfl, (s.clearBus.engineEffect c).draws, ?_⟩
  simp [State.engine_snd, State.engine_fst, State.engineResponse_of_regs (t := s.clearBus) (s := s) rfl rfl]

/-- Every repetition answers, and changes no register. -/
theorem linkCommand_again (hs : s.standard) (hc : s.mayRepeat c) (h : linkCommand c s = .next t) :
    ∃ u, linkCommand c t = .next u ∧ u.regs = t.regs := by
  obtain ⟨hp, hr, -⟩ := linkCommand_next_fields h
  have ha := (linkCommand_next.1 h).1
  refine ⟨_, linkCommand_next.2 ⟨ha, rfl⟩, ?_⟩
  exact State.regs_engineEffect_again (s := s.clearBus) (t := t.clearBus) hs hc ha hp hr

/-- A command that changes no register is answered the same again. -/
theorem miso_linkCommand_again {u : State} (hq : c.kind = .read ∨ c.kind = .rdstatus) (h : linkCommand c s = .next t)
    (h' : linkCommand c t = .next u) : ∃ d d',
      t.bus.map (·.miso) = [some (freeBytes d (fillerLength c) ++ s.engineResponse c)] ∧
      u.bus.map (·.miso) = [some (freeBytes d' (fillerLength c) ++ s.engineResponse c)] := by
  obtain ⟨hp, hr, d, hd⟩ := linkCommand_next_fields h
  obtain ⟨-, -, d', hd'⟩ := linkCommand_next_fields h'
  have hregs : t.regs = s.regs := by
    rw [hr]
    cases c <;> simp [Command.kind, State.engineEffect] at hq ⊢
  rw [State.engineResponse_of_regs (congrArg ChipParams.chip hp) hregs] at hd'
  exact ⟨d, d', hd, hd'⟩

end

/-- Settles O10: a WRITE or BITMOD leaves each place of the file what its last byte there decides, whatever stands there
before within the bits it replaces, and a READ or RDSTATUS leaves every register as it was. -/
theorem repeatedTransactionsAreIdempotent : Obligations.RepeatedTransactionsAreIdempotent := by
  unfold Obligations.RepeatedTransactionsAreIdempotent
  intro s t i hs hi hexec
  obtain ⟨c, rfl, hc⟩ : ∃ c : Command, i = c.toInstr ∧ s.mayRepeat c := by
    rcases hi with ⟨a, n, rfl⟩ | rfl | ⟨hd, ⟨a, ds, rfl⟩ | ⟨a, m, v, rfl⟩⟩
    · exact ⟨.read a n, rfl, .inl rfl⟩
    · exact ⟨.rdstatus, rfl, .inr (.inl rfl)⟩
    · exact ⟨.write a ds, rfl, .inr (.inr ⟨hd, .inl rfl⟩)⟩
    · exact ⟨.bitmod a m v, rfl, .inr (.inr ⟨hd, .inr rfl⟩)⟩
  rw [exec_toInstr] at hexec
  obtain ⟨u, hu, hregs⟩ := linkCommand_again hs hc hexec
  refine ⟨u, by rwa [exec_toInstr], hregs, fun a n hr => ?_, fun hr => ?_⟩
  · obtain rfl : c = .read a n := toInstr_injective hr
    obtain ⟨d, d', ht, hu⟩ := miso_linkCommand_again (.inl rfl) hexec hu
    exact ⟨_, _, _, _, s.readRegs a.toNat n, ht, hu⟩
  · obtain rfl : c = .rdstatus := toInstr_injective hr
    obtain ⟨d, d', ht, hu⟩ := miso_linkCommand_again (.inr rfl) hexec hu
    exact ⟨_, _, s.statusByte, ht, hu⟩

end Sys2Proof.Machine
end

section
/-! PROOFS. The encoding (30_encoding.md: R110 to R113, R121, R124, R160; log 12): the bytes that have a command's form,
that the decoder accepts exactly these, and what this says of the encoder and of the step. -/

namespace Sys2Proof

/-! ## The five forms (R112) -/

/-- The bytes are a transaction of the command by R112, its placeholder bytes of any value (R81; log 12). -/
def Command.HasForm (cmd : CommandBytes) (mosi : List Byte) : Command → Prop
  | .reset => mosi = [cmd.reset]
  | .read a n => ∃ placeholders : List Byte, placeholders.length = n ∧ mosi = cmd.read :: a :: placeholders
  | .write a ds => mosi = cmd.write :: a :: ds
  | .bitmod a m v => mosi = [cmd.bitmod, a, m, v]
  | .rdstatus => ∃ x, mosi = [cmd.rdstatus, x]

theorem hasForm_encodeCommand (cmd : CommandBytes) (c : Command) : c.HasForm cmd (encodeCommand cmd c) := by
  cases c with
  | read a n => exact ⟨List.replicate n 0x00, List.length_replicate, rfl⟩
  | rdstatus => exact ⟨0x00, rfl⟩
  | reset | write | bitmod => rfl

section
variable {cmd : CommandBytes} {mosi : List Byte} {c : Command}

/-- The encoder writes the form with 0x00 as every placeholder, so it differs from the bytes in placeholders alone. -/
theorem Command.HasForm.encodeCommand_agrees (h : c.HasForm cmd mosi) :
    (encodeCommand cmd c).length = mosi.length ∧ (encodeCommand cmd c).head? = mosi.head? ∧
      (c ≠ .rdstatus → (encodeCommand cmd c).take 2 = mosi.take 2) := by
  cases c with
  | read a n =>
    obtain ⟨placeholders, rfl, rfl⟩ := h
    simp [encodeCommand]
  | rdstatus =>
    obtain ⟨x, rfl⟩ := h
    simp [encodeCommand]
  | reset | write | bitmod =>
    subst h
    exact ⟨rfl, rfl, fun _ => rfl⟩

/-- READ and RDSTATUS alone have placeholder bytes. -/
theorem Command.HasForm.encodeCommand_eq (h : c.HasForm cmd mosi) (hread : ∀ a n, c ≠ .read a n)
    (hrdstatus : c ≠ .rdstatus) : encodeCommand cmd c = mosi := by
  cases c with
  | read a n => exact absurd rfl (hread a n)
  | rdstatus => exact absurd rfl hrdstatus
  | reset | write | bitmod => exact h.symm

/-! ## The decoder accepts exactly the five forms (R110, R113, R160) -/

/-- Five branches of the decoder accept: RESET, READ, WRITE, BITMOD and RDSTATUS, in this order. -/
theorem hasForm_of_decodeCommand (h : decodeCommand cmd mosi = .ok c) : c.HasForm cmd mosi := by
  revert h
  fun_cases decodeCommand cmd mosi <;> rintro ⟨⟩
  case case2 => exact rfl
  case case4 placeholders _ => exact ⟨placeholders, rfl, rfl⟩
  case case6 => exact rfl
  case case8 => exact rfl
  case case10 x _ _ _ _ => exact ⟨x, rfl⟩

theorem rdstatus_ne_of_distinct (hd : cmd.distinct) :
    cmd.rdstatus ≠ cmd.bitmod ∧ cmd.rdstatus ≠ cmd.write ∧ cmd.rdstatus ≠ cmd.read ∧ cmd.rdstatus ≠ cmd.reset := by
  simpa [CommandBytes.distinct] using (List.nodup_reverse.2 hd).notMem

/-- The decoder does not look at the values of placeholder bytes. -/
theorem Command.HasForm.decodeCommand_eq (hd : cmd.distinct) (h : c.HasForm cmd mosi) :
    decodeCommand cmd mosi = decodeCommand cmd (encodeCommand cmd c) := by
  cases c with
  | read a n =>
    obtain ⟨placeholders, rfl, rfl⟩ := h
    simp [decodeCommand, encodeCommand]
  | rdstatus =>
    obtain ⟨x, rfl⟩ := h
    simp [decodeCommand, encodeCommand, rdstatus_ne_of_distinct hd]
  | reset | write | bitmod => exact congrArg _ h

theorem decodeCommand_eq_ok_iff (hd : cmd.distinct) : decodeCommand cmd mosi = .ok c ↔ c.HasForm cmd mosi :=
  ⟨hasForm_of_decodeCommand, fun h => (h.decodeCommand_eq hd).trans (Machine.decodeCommand_encodeCommand hd c)⟩

theorem decode_of_hasForm (hd : cmd.distinct) (h : c.HasForm cmd mosi) : decode cmd mosi = .ok c.toInstr := by
  rw [decode, (decodeCommand_eq_ok_iff hd).2 h]

theorem hasForm_of_decode {i : Instr} (h : decode cmd mosi = .ok i) :
    ∃ c : Command, i = c.toInstr ∧ c.HasForm cmd mosi := by
  obtain ⟨c, hc, hi⟩ := Machine.decode_ok h
  exact ⟨c, hi, hasForm_of_decodeCommand hc⟩

theorem decode_eq_error_iff (hd : cmd.distinct) :
    (∃ e, decode cmd mosi = .error e) ↔ ¬∃ c : Command, c.HasForm cmd mosi := by
  refine ⟨fun ⟨e, he⟩ ⟨c, hc⟩ => ?_, fun h => ?_⟩
  · rw [decode_of_hasForm hd hc] at he
    cases he
  · cases hm : decode cmd mosi with
    | error e => exact ⟨e, rfl⟩
    | ok i =>
      obtain ⟨c, -, hc⟩ := hasForm_of_decode hm
      exact absurd ⟨c, hc⟩ h

end

theorem encode_toInstr (cmd : CommandBytes) (c : Command) : encode cmd c.toInstr = some (encodeCommand cmd c) := by
  rw [encode, Machine.command?_toInstr, Option.map_some]

/-- Settles O12: the encoder writes each command in its form, and the decoder accepts exactly the forms. -/
theorem decodeEncodeAgree : Obligations.DecodeEncodeAgree := by
  unfold Obligations.DecodeEncodeAgree
  intro cmd hd
  refine ⟨fun i c hi => ?_, Machine.command?_toInstr, fun mosi i hm => ?_, fun mosi i hm hread hrdstatus => ?_⟩
  · refine ⟨encodeCommand cmd c, ?_, decode_of_hasForm hd (hasForm_encodeCommand cmd c)⟩
    rw [encode, hi, Option.map_some]
  · obtain ⟨c, rfl, hc⟩ := hasForm_of_decode hm
    obtain ⟨hlength, hhead, htake⟩ := hc.encodeCommand_agrees
    exact ⟨_, encode_toInstr cmd c, hlength, hhead, fun h => htake (h <| congrArg Command.toInstr ·)⟩
  · obtain ⟨c, rfl, hc⟩ := hasForm_of_decode hm
    have heq := hc.encodeCommand_eq (fun a n h => hread a n (congrArg Command.toInstr h))
      fun h => hrdstatus (congrArg Command.toInstr h)
    rw [encode_toInstr, heq]

/-! ## With the command bytes of R111 -/

theorem exists_hasForm_standard_iff (mosi : List Byte) :
    (∃ c : Command, c.HasForm CommandBytes.standard mosi) ↔
      mosi = [0xC0] ∨ (∃ a placeholders, mosi = 0x03 :: a :: placeholders) ∨ (∃ a ds, mosi = 0x02 :: a :: ds) ∨
        (∃ a m v, mosi = [0x05, a, m, v]) ∨ ∃ x, mosi = [0xA0, x] := by
  constructor
  · rintro ⟨c, hc⟩
    cases c with
    | reset => exact .inl hc
    | read a n =>
      obtain ⟨placeholders, -, hm⟩ := hc
      exact .inr (.inl ⟨a, placeholders, hm⟩)
    | write a ds => exact .inr (.inr (.inl ⟨a, ds, hc⟩))
    | bitmod a m v => exact .inr (.inr (.inr (.inl ⟨a, m, v, hc⟩)))
    | rdstatus => exact .inr (.inr (.inr (.inr hc)))
  · rintro (hm | ⟨a, placeholders, hm⟩ | ⟨a, ds, hm⟩ | ⟨a, m, v, hm⟩ | ⟨x, hm⟩)
    · exact ⟨.reset, hm⟩
    · exact ⟨.read a placeholders.length, placeholders, rfl, hm⟩
    · exact ⟨.write a ds, hm⟩
    · exact ⟨.bitmod a m v, hm⟩
    · exact ⟨.rdstatus, x, hm⟩

/-- Settles O13: the first five words have their commands' forms, and the decoder computes why the others have none. -/
theorem writtenOutTransactionsDecode : Obligations.WrittenOutTransactionsDecode := by
  unfold Obligations.WrittenOutTransactionsDecode
  have hd : CommandBytes.standard.distinct := Machine.distinct_standard
  exact ⟨decode_of_hasForm (c := .reset) hd rfl, decode_of_hasForm (c := .read 0x61 5) hd ⟨[0, 0, 0, 0, 0], rfl, rfl⟩,
    decode_of_hasForm (c := .write 0x2A [0x44]) hd rfl, decode_of_hasForm (c := .bitmod 0x2C 0x01 0x00) hd rfl,
    decode_of_hasForm (c := .rdstatus) hd ⟨0x00, rfl⟩, by decide, by decide, by decide⟩

end Sys2Proof

namespace Sys2Proof.Machine

/-! ## What a step refuses as no transaction (R113, R121, R160) -/

theorem exec_toInstr_ne_notATransaction (c : Command) (s : State) (e : DecodeError) :
    exec c.toInstr s ≠ .refused (.notATransaction e) := by
  rw [exec_toInstr]
  unfold linkCommand
  split <;> simp

theorem runInput_link_notATransaction_iff {s : State} {mosi : List Byte} {e : DecodeError} :
    runInput s (.link mosi) = .refused (.notATransaction e) ↔ decode s.chip.commands mosi = .error e := by
  cases hm : decode s.chip.commands mosi with
  | error x => simp [runInput, hm]
  | ok i =>
    obtain ⟨c, -, rfl⟩ := decode_ok hm
    simp [runInput_link hm, exec_toInstr_ne_notATransaction]

/-- Settles O11: the step refuses the bytes as no transaction where the decoder rejects them. -/
theorem onlyFiveFormsAreTransactions : Obligations.OnlyFiveFormsAreTransactions := by
  unfold Obligations.OnlyFiveFormsAreTransactions
  intro s mosi rest hs hr hi
  have hcmd : s.chip.commands = CommandBytes.standard := by rw [hs]; rfl
  calc (∃ e, step s = .refused (.notATransaction e))
      ↔ ∃ e, decode CommandBytes.standard mosi = .error e := exists_congr fun e => by
        rw [step_of_inbox_cons hr hi, runInput_link_notATransaction_iff, hcmd]
    _ ↔ ¬∃ c : Command, c.HasForm CommandBytes.standard mosi := decode_eq_error_iff distinct_standard
    _ ↔ _ := not_congr (exists_hasForm_standard_iff mosi)

end Sys2Proof.Machine
end

section
/-! PROOFS. The five commands and the calls HOST makes with them (40_spi_commands.md: R150 to R161; 20_memory.md: R82 to
R89; log 8, 11, 15, 22): what a transaction on the link leaves, what a store leaves in its register, what a transport
call is, and that every host call ends. -/

namespace Sys2Proof.Machine

/-! ## A transaction on the link (R150 to R158) -/

/-- The exchange of c leads from s to t: ENGINE's effect of c on the registers, its response after the bytes of no
meaning, and everything else of HOST and the schedule as it was. -/
structure IsTransaction (s : State) (c : Command) (t : State) : Prop where
  sameHost : sameHost s t
  sched    : t.sched = s.sched
  result   : t.result = s.result
  bus      : ∃ filler : List Byte, filler.length = fillerLength c ∧
    t.bus = [⟨encodeCommand s.chip.commands c, some (filler ++ s.engineResponse c)⟩]
  reg      : ∀ b, t.reg b = (s.engineEffect c).reg b

theorem sameEngine_clearBus (s : State) : sameEngine s.clearBus s := ⟨rfl, rfl, rfl⟩

theorem exec_toInstr_isTransaction {c : Command} (hc : commandAdmitted c = true) (s : State) :
    ∃ t, exec c.toInstr s = .next t ∧ IsTransaction s c t := by
  rw [exec_toInstr]
  refine ⟨_, linkCommand_next.2 ⟨hc, rfl⟩, ?_⟩
  have hresponse : s.clearBus.engineResponse c = s.engineResponse c := State.engineResponse_of_regs rfl rfl
  exact {
    sameHost := by simp [Machine.sameHost, State.engine_snd]
    sched := by simp [State.engine_snd]
    result := by simp [State.engine_snd]
    bus := ⟨freeBytes (s.clearBus.engineEffect c).draws (fillerLength c), length_freeBytes _ _, by
      simp [State.engine_snd, State.engine_fst, hresponse]⟩
    reg := fun b => by
      rw [State.reg_logged, State.engine_snd, State.reg_drew]
      exact ((sameEngine_clearBus s).engineEffect c).reg b }

/-- Settles O3: READ's effect is none, and its response is the registers it names as a READ sees them (R87). -/
theorem readReturnsImplementedBitsAndChangesNothing : Obligations.ReadReturnsImplementedBitsAndChangesNothing := by
  unfold Obligations.ReadReturnsImplementedBitsAndChangesNothing
  intro s a n
  refine ⟨fun h => ?_, fun h => ?_⟩
  · exact linkCommand_next.2 ⟨registersExist_iff.2 h, rfl⟩
  · exact exec_toInstr_refused (c := .read a n) (registersExist_eq_false (by omega)) s

/-- Settles O7: RDSTATUS's effect is none, and its response is the status byte. -/
theorem rdstatusReturnsStatusByteAndChangesNothing : Obligations.RdstatusReturnsStatusByteAndChangesNothing := by
  unfold Obligations.RdstatusReturnsStatusByteAndChangesNothing
  exact fun s => linkCommand_next (c := .rdstatus).2 ⟨rfl, rfl⟩

/-! ## What a store leaves in its own register (R86, R88, R89) -/

section
variable {s : State} {a : Nat} (v : Byte)

/-- A store follows the write rule unless protection stops it. -/
theorem storedValue_written (h : s.protectedNow a = false ∨ s.params.protectedWriteEffect = .applied) :
    storedValue s a v = maskedWrite (s.chip.wmask a) (s.reg a) v := by
  unfold storedValue
  rcases h with h | h <;> simp [h]

theorem storedValue_ignored (h : s.protectedNow a = true) (he : s.params.protectedWriteEffect = .ignored) :
    storedValue s a v = s.reg a := by
  simp [storedValue, h, he]

theorem storedValue_draw (h : s.protectedNow a = true) (he : s.params.protectedWriteEffect = .draw) :
    storedValue s a v = Config.freeByte s.draws &&& s.chip.impl a := by
  simp [storedValue, h, he]

theorem State.protectedNow_eq_true_iff :
    s.protectedNow a = true ↔ s.chip.configProtected a = true ∧ s.opmod ≠ s.chip.modes.configure := by
  rw [State.protectedNow, Bool.and_eq_true, decide_eq_true_iff]
  rfl

theorem State.protectedNow_eq_false_iff :
    s.protectedNow a = false ↔ s.chip.configProtected a = false ∨ s.opmod = s.chip.modes.configure := by
  rw [← Bool.not_eq_true, State.protectedNow_eq_true_iff, not_and_or, Bool.not_eq_true, not_not]

end

/-- The write rule after the mask rule, where the register honours the mask. -/
theorem maskedWrite_bitmodValue_capable (w old m v : Byte) :
    maskedWrite w old (bitmodValue true old m v) = (old &&& ~~~(m &&& w)) ||| (v &&& m &&& w) := by
  unfold maskedWrite bitmodValue
  ext i hi
  simp only [if_true, BitVec.getElem_or, BitVec.getElem_and, BitVec.getElem_not]
  cases w[i] <;> cases m[i] <;> simp

/-- Where it does not, BITMOD stores all of v (R88). -/
theorem bitmodValue_notCapable (old m v : Byte) : bitmodValue false old m v = v := by
  simpa [bitmodValue] using BitVec.and_allOnes (x := v)

/-- Settles O5: BITMOD is one store of the value that the mask rule makes. -/
theorem bitmodChangesOnlyMaskedBits : Obligations.BitmodChangesOnlyMaskedBits := by
  unfold Obligations.BitmodChangesOnlyMaskedBits
  intro s a m v cap prot w
  refine ⟨fun h => ?_, fun h => ?_⟩
  · exact exec_toInstr_refused (c := .bitmod a m v) (registersExist_eq_false (by omega)) s
  obtain ⟨t, ht, hx⟩ := exec_toInstr_isTransaction (c := .bitmod a m v) (registersExist_iff.2 (by omega)) s
  have hreg : t.reg a.toNat = storedValue s a.toNat (bitmodValue cap (s.reg a.toNat) m v) := by
    rw [hx.reg, State.engineEffect, State.bitmodReg, s.reg_storeReg _ _ h, if_pos rfl]
  refine ⟨t, ht, hx.sameHost, hx.sched, hx.result, ?_, fun b _ hne => ?_, fun hw => ?_,
    fun hp => ⟨fun he => ?_, fun he => ⟨s.draws, ?_⟩⟩⟩
  · simpa [fillerLength, State.engineResponse, encodeCommand] using hx.bus
  · exact (hx.reg b).trans (s.reg_storeReg_ne _ (hne _ (List.mem_singleton_self _)))
  · have hwritten := hreg.trans (storedValue_written _ (by rwa [State.protectedNow_eq_false_iff, or_assoc]))
    refine ⟨fun hcap => ?_, fun hcap => ?_⟩ <;> rw [hcap] at hwritten
    · rw [hwritten, maskedWrite_bitmodValue_capable]
    · rw [hwritten, bitmodValue_notCapable, maskedWrite]
  · exact hreg.trans (storedValue_ignored _ (State.protectedNow_eq_true_iff.2 hp) he)
  · exact hreg.trans (storedValue_draw _ (State.protectedNow_eq_true_iff.2 hp) he)

/-! ## What a WRITE leaves in the register of one of its bytes (R83, R154) -/

section
variable {s : State} (hs : s.standard)
include hs

theorem State.protectedNow_storeReg (a : Nat) (v : Byte) (b : Nat) :
    (s.storeReg a v).protectedNow b = s.protectedNow b := by
  simp [State.protectedNow, State.opmod_storeReg hs]

/-- No byte of a WRITE lifts or sets the protection of a later one. -/
theorem State.protectedNow_storeRegs (a : Nat) (ds : List Byte) (b : Nat) :
    (s.storeRegs a ds).protectedNow b = s.protectedNow b := by
  induction ds generalizing s a with
  | nil => rfl
  | cons d ds ih => rw [State.storeRegs, ih (hs.of_chip (by simp)), State.protectedNow_storeReg hs]

/-- Where no protection stops it, what a store leaves does not depend on the store before it, not even where
protection draws elsewhere. -/
theorem storedValue_storeReg_unprotected {a b : Nat} (ha : a < 0x80) (hb : b < 0x80) (h : s.protectedNow b = false)
    (v w : Byte) : storedValue (s.storeReg a v) b w = storedValue s b w := by
  have h' : (s.storeReg a v).protectedNow b = false := by rwa [State.protectedNow_storeReg hs]
  rw [storedValue_unprotected w h', storedValue_unprotected w h, s.reg_storeReg b v ha, State.storeReg_chip]
  split
  · next hab =>
    rw [hs] at hab
    rw [storedValue_congr hs ha hb hab, storedValue_unprotected v h, maskedWrite_maskedWrite]
  · rfl

theorem storedValue_storeRegs_unprotected {a b : Nat} (ds : List Byte) (ha : a + ds.length ≤ 0x80) (hb : b < 0x80)
    (h : s.protectedNow b = false) (w : Byte) : storedValue (s.storeRegs a ds) b w = storedValue s b w := by
  induction ds generalizing s a with
  | nil => rfl
  | cons d ds ih =>
    rw [List.length_cons] at ha
    have h' : (s.storeReg a d).protectedNow b = false := by rwa [State.protectedNow_storeReg hs]
    rw [State.storeRegs, ih (hs.of_chip (by simp)) (by omega) h', storedValue_storeReg_unprotected hs (by omega) hb h]

end

/-- Settles O4: each byte is one store, and what the bytes before it left of its register does not show. -/
theorem writeStoresThroughWriteMaskAndProtection : Obligations.WriteStoresThroughWriteMaskAndProtection := by
  unfold Obligations.WriteStoresThroughWriteMaskAndProtection
  intro s a ds hs
  refine ⟨fun h => ?_, fun h => ?_⟩
  · exact exec_toInstr_refused (c := .write a ds) (registersExist_eq_false (by omega)) s
  obtain ⟨t, ht, hx⟩ := exec_toInstr_isTransaction (c := .write a ds) (registersExist_iff.2 h) s
  have hcmd : s.chip.commands.write = 0x02 := by rw [hs]; rfl
  have hconf : s.chip.modes.configure = 4 := by rw [hs]; rfl
  refine ⟨t, ht, hx.sameHost, hx.sched, hx.result, ?_, fun b _ hne => ?_, fun i hi hlast => ?_⟩
  · simpa [fillerLength, State.engineResponse, encodeCommand, hcmd] using hx.bus
  · refine (hx.reg b).trans (s.reg_storeRegs_ne ds fun i hi => hne _ ?_)
    exact List.mem_map_of_mem (List.mem_range.2 hi)
  have hlt : a.toNat + i < 0x80 := by omega
  have htake : a.toNat + (ds.take i).length ≤ 0x80 := by rw [List.length_take]; omega
  have hreg : t.reg (a.toNat + i) = storedValue (s.storeRegs a.toNat (ds.take i)) (a.toNat + i) ds[i] :=
    (hx.reg _).trans (s.reg_storeRegs_at ds hi hlt hlast)
  rw [← hconf]
  refine ⟨fun hw => ?_, fun hp => ?_⟩
  · have hfree := State.protectedNow_eq_false_iff.2 hw
    rw [hreg, storedValue_storeRegs_unprotected hs _ htake hlt hfree, storedValue_unprotected _ hfree, maskedWrite]
  · have hprot := State.protectedNow_eq_true_iff.2 hp
    have hquiet (he : s.params.protectedWriteEffect ≠ .draw) :
        t.reg (a.toNat + i) = storedValue s (a.toNat + i) ds[i] :=
      hreg.trans (storedValue_storeRegs hs he _ htake hlt _)
    refine ⟨fun he => ?_, fun he => ?_, fun he => ⟨(s.storeRegs a.toNat (ds.take i)).draws, ?_⟩⟩
    · rw [hquiet (by simp [he]), storedValue_ignored _ hprot he]
    · rw [hquiet (by simp [he]), storedValue_written _ (.inr he), maskedWrite]
    · have hprot' : (s.storeRegs a.toNat (ds.take i)).protectedNow (a.toNat + i) = true := by
        rwa [State.protectedNow_storeRegs hs]
      rw [hreg, storedValue_draw _ hprot' (by simpa using he), State.storeRegs_chip]

/-! ## HOST's own state -/

theorem chip_of_sameHost {s t : State} (h : sameHost s t) : t.chip = s.chip := by
  obtain ⟨-, -, -, hparams, -⟩ := h
  exact congrArg ChipParams.chip hparams

theorem sameHost.trans {s t u : State} (h : sameHost s t) (h' : sameHost t u) : sameHost s u := by
  obtain ⟨hstatus, hconfig, hrunning, hparams, hinbox⟩ := h
  obtain ⟨hstatus', hconfig', hrunning', hparams', hinbox'⟩ := h'
  exact ⟨hstatus'.trans hstatus, hconfig'.trans hconfig, hrunning'.trans hrunning, hparams'.trans hparams,
    hinbox'.trans hinbox⟩

/-! ## A transport call is its one transaction (R124, R151 to R161) -/

/-- What the transport call of a command returns for the MISO bytes it captured. -/
def callValue : Command → List Byte → Value
  | .reset, _ => .unit
  | .read _ n, miso => .bytes ((miso.drop 2).take n)
  | .write _ _, _ => .unit
  | .bitmod _ _ _, _ => .unit
  | .rdstatus, miso => .statusByte (miso.getD 1 0)

/-- What it returns when the command is executed in state s. -/
def State.callAnswer (s : State) : Command → Value
  | .reset => .unit
  | .read a n => .bytes (s.readRegs a.toNat n)
  | .write _ _ => .unit
  | .bitmod _ _ _ => .unit
  | .rdstatus => .statusByte s.statusByte

theorem callValue_engine (s : State) (c : Command) : callValue c (s.engine c).1 = s.callAnswer c := by
  cases c with
  | read a n =>
    have h : (s.engine (.read a n)).1.drop 2 = s.readRegs a.toNat n := s.engine_response (.read a n)
    simp [callValue, State.callAnswer, h]
  | reset | write | bitmod | rdstatus => rfl

section
variable {i : Instr} {c : Command} (hi : i.command? = some c) (hne : i ≠ c.toInstr)
include hi hne

/-- A transport call, in every status of HOST, is the operation of its one transaction (log 22). -/
theorem exec_transportCall (s : State) :
    exec i s = (Prog.xfer (encodeCommand s.chip.commands c) fun miso => .ret (callValue c miso)).run State.ended
      s.clearBus := by
  cases i with
  | reset | read | write | bitmod | rdstatus =>
    obtain rfl := Option.some.inj hi
    exact absurd rfl hne
  | resetCall | readRegister | writeRegister | modifyRegister | readStatus =>
    obtain rfl := Option.some.inj hi
    rfl
  | _ => cases hi

variable {s : State} (hd : s.chip.commands.distinct) (hc : commandAdmitted c = true)
include hd hc

theorem exec_transportCall_completes (hx : s.nextSlot.ending = .completes) :
    exec i s = .next ((s.clearBus.afterXfer c).ended (.returned (s.clearBus.beforeXfer.callAnswer c))) := by
  rw [exec_transportCall hi hne, ← callValue_engine]
  exact Prog.run_completes (s := s.clearBus) hd hx hc

theorem exec_transportCall_fails (hx : s.nextSlot.ending ≠ .completes) :
    exec i s = .next ((s.clearBus.afterFailure c).ended (.raised (.transport c.kind c.address?))) := by
  rw [exec_transportCall hi hne]
  exact Prog.run_fails (s := s.clearBus) hd hx hc

end

theorem State.callAnswer_congr {s t : State} (hc : s.chip = t.chip) (hr : s.regs = t.regs) (c : Command) :
    s.callAnswer c = t.callAnswer c := by
  have h : s.engineResponse c = t.engineResponse c := State.engineResponse_of_regs hc hr
  cases c with
  | read a n => exact congrArg Value.bytes h
  | rdstatus => exact congrArg Value.statusByte (List.head_eq_of_cons_eq h)
  | reset | write | bitmod => rfl

/-- A transport call whose exchange completes has ENGINE's effect on the registers CANSIDE left, and returns the answer
given there. -/
theorem completedCall_spec {i : Instr} {c : Command} {s : State} (hd : s.chip.commands.distinct)
    (hx : s.nextSlot.ending = .completes) (hi : i.command? = some c) (hne : i ≠ c.toInstr)
    (hc : commandAdmitted c = true) :
    ∃ t, exec i s = .next t ∧ sameHost s t ∧ t.sched = s.sched.tail ∧
      t.result = some (.returned (s.beforeXfer.callAnswer c)) ∧
      t.bus.map (·.mosi) = [encodeCommand s.chip.commands c] ∧ t.regs = (s.beforeXfer.engineEffect c).regs := by
  refine ⟨_, exec_transportCall_completes hi hne hd hc hx, by simp [sameHost], by simp, ?_, by simp, ?_⟩
  · rw [State.ended_result, State.callAnswer_congr (by simp) s.beforeXfer_regs_clearBus]
  · exact ((sameEngine_beforeXfer_clearBus s).engineEffect c).regs

/-- Settles O15: the five calls, each with its command and the operands whose registers exist. -/
theorem transportCallsIssueOneTransaction : Obligations.TransportCallsIssueOneTransaction := by
  unfold Obligations.TransportCallsIssueOneTransaction
  intro s hd hx cmd
  refine ⟨?_, fun a n h1 h2 => ?_, fun a data h1 h2 => ?_, fun a m v h => ?_, ?_⟩
  · obtain ⟨t, ht, hhost, hsched, hres, hbus, hregs⟩ :=
      completedCall_spec (i := .resetCall) hd hx rfl (by simp [Command.toInstr]) rfl
    refine ⟨t, ht, hhost, hsched, hres, hbus, hregs, fun hs b hb => ?_⟩
    have hreg : t.reg b = s.beforeXfer.resetRegisters.reg b :=
      State.reg_of_regs (by simpa using chip_of_sameHost hhost) hregs b
    rw [hreg, State.reg_resetRegisters (hs.of_chip (by simp)) hb, hs, State.beforeXfer_draws]
  · obtain ⟨t, ht, hhost, hsched, hres, hbus, hregs⟩ := completedCall_spec (i := .readRegister a n) hd hx rfl
      (by simp [Command.toInstr]) (registersExist_iff.2 ⟨h1, h2⟩)
    refine ⟨t, ht, hhost, hsched, hres.trans ?_, hbus, hregs⟩
    simp [State.callAnswer, State.readRegs, State.readReg]
  · exact completedCall_spec (i := .writeRegister a data) hd hx rfl (by simp [Command.toInstr])
      (registersExist_iff.2 ⟨h1, h2⟩)
  · exact completedCall_spec (i := .modifyRegister a m v) hd hx rfl (by simp [Command.toInstr])
      (registersExist_iff.2 (by omega))
  · exact completedCall_spec (i := .readStatus) hd hx rfl (by simp [Command.toInstr]) rfl

/-! ## A failed exchange (R161, R271) -/

/-- A WRITE that fails after its last byte has its full effect; one that fails before misses a byte at least. -/
theorem State.failedEffect_cases_take (s : State) (c : Command) (e : XferEnd) :
    s.failedEffect c e = s ∨ s.failedEffect c e = s.engineEffect c ∨
      ∃ a ds k, c = .write a ds ∧ k < ds.length ∧ s.failedEffect c e = s.storeRegs a.toNat (ds.take k) := by
  rcases s.failedEffect_cases c e with h | h | ⟨a, ds, k, rfl, h⟩
  · exact .inl h
  · exact .inr (.inl h)
  · by_cases hk : k < ds.length
    · exact .inr (.inr ⟨a, ds, k, rfl, hk, h⟩)
    · rw [List.take_of_length_le (by omega)] at h
      exact .inr (.inl h)

/-- READ and RDSTATUS change no state, however they fail. -/
theorem State.failedEffect_of_query {c : Command} (hc : c.kind = .read ∨ c.kind = .rdstatus) (s : State)
    (e : XferEnd) : s.failedEffect c e = s := by
  cases c with
  | read | rdstatus => cases e <;> rfl
  | reset | write | bitmod => simp [Command.kind] at hc

/-- Settles O17: the call ends with its one exchange, and its registers are what that exchange left. -/
theorem failedExchangeRaisesTransportError : Obligations.FailedExchangeRaisesTransportError := by
  unfold Obligations.FailedExchangeRaisesTransportError
  intro s i c hd hi hne hc hx
  refine ⟨_, exec_transportCall_fails hi hne hd hc hx, by simp [sameHost], by simp, by simp, by simp, ?_⟩
  have hregs : ((s.clearBus.afterFailure c).ended (.raised (.transport c.kind c.address?))).regs =
      (s.beforeXfer.failedEffect c s.nextSlot.ending).regs :=
    ((sameEngine_beforeXfer_clearBus s).failedEffect c s.nextSlot.ending).regs
  simp only [hregs]
  refine ⟨?_, fun hq => ?_, fun he => ?_, fun he => ?_, fun a ds k hw he => ?_⟩
  · rcases s.beforeXfer.failedEffect_cases_take c s.nextSlot.ending with h | h | ⟨a, ds, k, hw, hk, h⟩
    · exact .inl (congrArg State.regs h)
    · exact .inr (.inl (congrArg State.regs h))
    · exact .inr (.inr ⟨a, ds, k, hw, hk, congrArg State.regs h⟩)
  · rw [State.failedEffect_of_query hq]
  · rw [he]; rfl
  · rw [he]; rfl
  · rw [he, hw]; rfl

/-! ## Every host call ends (R160, R195, R270, R280) -/

/-- From s to t some exchanges are recorded, each on its own slot of the schedule, and nothing of HOST's own changes. -/
structure OnlyExchanges (s t : State) : Prop where
  sameHost  : sameHost s t
  exchanges : ∃ xs, t.bus = s.bus ++ xs ∧ t.sched = s.sched.drop xs.length

theorem onlyExchanges_one {s t : State} (hh : sameHost s t) {x : Exchange} (hb : t.bus = s.bus ++ [x])
    (hk : t.sched = s.sched.tail) : OnlyExchanges s t :=
  ⟨hh, [x], hb, by rw [hk, List.length_singleton, List.drop_one]⟩

theorem OnlyExchanges.trans {s t u : State} (h : OnlyExchanges s t) (h' : OnlyExchanges t u) : OnlyExchanges s u := by
  obtain ⟨hh, xs, hb, hk⟩ := h
  obtain ⟨hh', ys, hb', hk'⟩ := h'
  exact ⟨hh.trans hh', xs ++ ys, by rw [hb', hb, List.append_assoc],
    by rw [hk', hk, List.drop_drop, List.length_append]⟩

theorem keptBy_onlyExchanges (C : Command → Bool) : KeptBy C OnlyExchanges where
  refl s := ⟨by simp [sameHost], [], by simp, by simp⟩
  trans := OnlyExchanges.trans
  done c _ _ s _ := onlyExchanges_one (by simp [sameHost]) (s.afterXfer_bus c) (s.afterXfer_sched c)
  failed c _ _ s _ _ := onlyExchanges_one (by simp [sameHost]) (s.afterFailure_bus c) (s.afterFailure_sched c)

/-- A call begins with no exchange recorded, so each of those at its end used one slot. -/
theorem OnlyExchanges.sched_of_callBegun {s t : State} {i : Instr} (h : OnlyExchanges (s.callBegun i) t) :
    t.sched = s.sched.drop t.bus.length := by
  obtain ⟨-, xs, hb, hk⟩ := h
  simpa [hb] using hk

/-- A host call in its status answers, however its exchanges end. -/
theorem exec_hostCall_answers {i : Instr} (hi : i.command? = none) {s : State} (hs : s.standard)
    (hr : s.callRefused i = none) :
    ∃ t r, exec i s = .next (callEnds i t r) ∧ OnlyExchanges (s.callBegun i) t := by
  have hcall : callAdmitted i = true := by simp [callAdmitted, hi]
  obtain ⟨c, rfl⟩ | ⟨p, hp⟩ := toInstr_or_call s.chip i
  · rw [command?_toInstr] at hi
    cases hi
  · exact exec_call_kept (keptBy_onlyExchanges _) hcall hs hp hr

theorem hostCall_of_needsReady {i : Instr} (h : needsReady i = true) : i.command? = none ∧ ctorConfig i = none := by
  cases i with
  | readFrame | pollFrame | writeFrame | isFrameAvailable | getMode | setMode => exact ⟨rfl, rfl⟩
  | _ => cases h

/-- Where the operation returns, it returns v. -/
def Prog.Returns (v : Value) : Prog → Prop
  | .ret w => w = v
  | .raise _ => True
  | .xfer _ next => ∀ miso, (next miso).Returns v

theorem Prog.Returns.run {v : Value} {p : Prog} {ends : State → Result → State} {s t : State} (h : p.Returns v)
    (ht : p.run ends s = .next t) : ∃ u r, t = ends u r ∧ (r = .returned v ∨ ∃ e, r = .raised e) := by
  induction p generalizing s with
  | ret w =>
    obtain rfl : w = v := h
    exact ⟨s, _, by simpa [eq_comm] using ht, .inl rfl⟩
  | raise e => exact ⟨s, _, by simpa [eq_comm] using ht, .inr ⟨e, rfl⟩⟩
  | xfer mosi next ih =>
    unfold Prog.run at ht
    split at ht
    next miso u _ => exact ih miso (h miso) ht
    next e u _ => exact ⟨u, .raised e, by simpa [eq_comm] using ht, .inr ⟨e, rfl⟩⟩
    next => cases ht

/-- The sequencer ends with `return ()` (R190). -/
theorem ctorProg_returns_unit (c : Chip) (config : ControllerConfig) : (ctorProg c config).Returns .unit := by
  have henable : (enableOperation c config (.ret .unit)).Returns .unit := fun _ _ _ _ _ _ => rfl
  have hclear : (clearBuffers c (enableOperation c config (.ret .unit))).Returns .unit := fun _ _ _ _ _ => henable
  have htiming : (configureTiming c config (clearBuffers c (enableOperation c config (.ret .unit)))).Returns .unit :=
    fun _ _ _ _ _ _ => hclear
  unfold ctorProg
  split
  · trivial
  · intro _ mode
    dsimp only
    split
    · exact htiming
    · exact fun _ => htiming

/-- Settles O45: an operation issues only admitted transactions, and ends after its last one or its first that fails. -/
theorem hostCallsAlwaysEnd : Obligations.HostCallsAlwaysEnd := by
  unfold Obligations.HostCallsAlwaysEnd
  refine ⟨fun s i hs hi hready => ?_, fun s config hs hfresh => ?_⟩
  · obtain ⟨hcommand, hctor⟩ := hostCall_of_needsReady hi
    obtain ⟨t, r, ht, hx⟩ := exec_hostCall_answers hcommand hs (callRefused_ready hi hready)
    have hbegun : sameHost s (s.callBegun i) := by simp [sameHost, State.callBegun_config_of hctor]
    have hended : sameHost t (callEnds i t r) := by simp [sameHost, callEnds_status_of hctor]
    exact ⟨_, r, ht, by simp, hbegun.trans (hx.sameHost.trans hended), by simpa using hx.sched_of_callBegun⟩
  · obtain ⟨t, r, ht, hx⟩ := exec_hostCall_answers (i := .ctor config) rfl hs (callRefused_ctor config hfresh)
    obtain ⟨-, hconfig, hrunning, hparams, hinbox⟩ := hx.sameHost
    refine ⟨_, r, ht, by simp, by simpa using hconfig, by simpa using hrunning, by simpa using hparams,
      by simpa using hinbox, by simpa using hx.sched_of_callBegun, ?_⟩
    rw [exec_call_of (i := .ctor config) rfl (callRefused_ctor config hfresh)] at ht
    obtain ⟨u, x, hu, hend⟩ := (ctorProg_returns_unit s.chip config).run ht
    obtain rfl : r = x := by simpa using congrArg State.result hu
    rcases hend with rfl | ⟨e, rfl⟩
    · exact .inl ⟨rfl, rfl⟩
    · exact .inr ⟨rfl, e, rfl⟩

end Sys2Proof.Machine
end

section
/-! PROOFS. Bit timing and validation (41_configuration.md: R180 to R183, R195): the packed bytes field by field, the
first field out of its range, and a constructor with a record that fails validation. -/

namespace Sys2Proof.Machine

/-! ## Packing (R180 to R182), each parameter less one standing in its own field -/

theorem packCNF1_fields : ∀ (x : Fin 4) (y : Fin 64),
    (packCNF1 (x + 1) (y + 1)).toNat = ((x.val <<< 6) ||| y.val) ∧
    (packCNF1 (x + 1) (y + 1) >>> 6).toNat = x ∧ (packCNF1 (x + 1) (y + 1) &&& 0x3F).toNat = y := by
  decide +kernel

theorem packCNF2_fields : ∀ (x : Fin 2) (triple : Bool) (y z : Fin 8),
    let sam := if triple then 0x40 else 0x00
    let b := packCNF2 x sam (y + 1) (z + 1)
    b.toNat = ((x.val <<< 7) ||| sam ||| (y.val <<< 3) ||| z.val) ∧ (b >>> 7).toNat = x ∧
    (b &&& 0x40).toNat = sam ∧ ((b >>> 3) &&& 0x07).toNat = y ∧ (b &&& 0x07).toNat = z := by
  decide +kernel

theorem packCNF3_fields : ∀ (sof wake : Bool) (x : Fin 8),
    (packCNF3 sof wake (x + 1)).toNat = ((if sof then 0x80 else 0) ||| (if wake then 0x40 else 0) ||| x.val) ∧
    (packCNF3 sof wake (x + 1))[7] = sof ∧ (packCNF3 sof wake (x + 1))[6] = wake ∧
    (packCNF3 sof wake (x + 1) &&& 0x3F).toNat = x := by
  decide +kernel

/-- A parameter from 1 to n is one more than the number its field holds. -/
theorem exists_fin_add_one {n p : Nat} (h1 : 1 ≤ p) (h2 : p ≤ n) : ∃ x : Fin n, p = x + 1 :=
  ⟨⟨p - 1, by omega⟩, by simp only; omega⟩

/-- Settles O23: each parameter, less one, is a number its field has room for. -/
theorem packedTimingFieldsAreExact : Obligations.PackedTimingFieldsAreExact := by
  unfold Obligations.PackedTimingFieldsAreExact
  refine ⟨fun sjw brp h1 h2 h3 h4 => ?_, fun sel sam ps1 prop hsel hsam h1 h2 h3 h4 => ?_,
    fun sof wake ps2 h1 h2 => ?_⟩
  · obtain ⟨x, rfl⟩ := exists_fin_add_one h1 h2
    obtain ⟨y, rfl⟩ := exists_fin_add_one h3 h4
    exact packCNF1_fields x y
  · obtain ⟨triple, rfl⟩ : ∃ triple : Bool, sam = if triple then 0x40 else 0x00 := by
      rcases hsam with rfl | rfl
      · exact ⟨false, rfl⟩
      · exact ⟨true, rfl⟩
    obtain ⟨y, rfl⟩ := exists_fin_add_one h1 h2
    obtain ⟨z, rfl⟩ := exists_fin_add_one h3 h4
    exact packCNF2_fields ⟨sel, by omega⟩ triple y z
  · obtain ⟨x, rfl⟩ := exists_fin_add_one h1 h2
    exact packCNF3_fields sof wake x

/-! ## Validation (R183) -/

/-- Settles O42: validation raises before any bus access, and ctor's end sets HOST Failed. -/
theorem constructionRejectsBadConfiguration : Obligations.ConstructionRejectsBadConfiguration := by
  unfold Obligations.ConstructionRejectsBadConfiguration
  intro s c name hs hf
  have hprog : ctorProg s.chip c = .raise (.argument name) := by simp [ctorProg, hf]
  rw [exec_call_of (i := .ctor c) rfl (callRefused_ctor c hs), hprog, Prog.run_raise]
  rfl

section
variable {p : Prop} [Decidable p] {x y : ArgName} {r : Option ArgName}

/-- A check passes over to the rest, r, exactly where it holds. -/
theorem check_eq_none : (if ¬p then some x else r) = none ↔ p ∧ r = none := by
  by_cases h : p <;> simp [h]

theorem check_eq_other (hxy : x ≠ y) : (if ¬p then some x else r) = some y ↔ p ∧ r = some y := by
  by_cases h : p <;> simp [h, hxy]

theorem check_eq_own (hr : r ≠ some x) : (if ¬p then some x else r) = some x ↔ ¬p := by
  by_cases h : p <;> simp [h, hr]

end

/-- A record passes validation where every field is in its range. -/
theorem configFault_eq_none_iff (c : ControllerConfig) : configFault c = none ↔
    (1 ≤ c.sjw ∧ c.sjw ≤ 4) ∧ (1 ≤ c.brp ∧ c.brp ≤ 64) ∧ (1 ≤ c.propSeg ∧ c.propSeg ≤ 8) ∧
    (1 ≤ c.phaseSeg1 ∧ c.phaseSeg1 ≤ 8) ∧ (1 ≤ c.phaseSeg2 ∧ c.phaseSeg2 ≤ 8) ∧
    (c.samplingMode = 0x00 ∨ c.samplingMode = 0x40) ∧ (c.baudRateSelect = 0 ∨ c.baudRateSelect = 1) := by
  simp only [configFault, check_eq_none, and_true]

/-- Settles O24: each clause by the checks before its own, which hold, and its own, which fails. -/
theorem configValidationReportsFirstFault : Obligations.ConfigValidationReportsFirstFault := by
  unfold Obligations.ConfigValidationReportsFirstFault
  intro c ok1 ok2 ok3 ok4 ok5 ok6 ok7
  refine ⟨configFault_eq_none_iff c, ?_, ?_, ?_, ?_, ?_, ?_, ?_, fun s name hs hf =>
    ⟨_, constructionRejectsBadConfiguration s c name hs hf, rfl, rfl, rfl⟩⟩
  all_goals
    simp only [configFault, check_eq_other, check_eq_own, ne_eq, reduceCtorEq, not_false_eq_true, and_false]
    exact Iff.rfl

end Sys2Proof.Machine
end

section
/-! PROOFS. The configuration sequencer (41_configuration.md: R190 to R197, R304; R161, R271; log 15): an operation that
sends a fixed list of transactions, what those leave in a register, and the construction as such an operation, run to
its end or to its first transaction that fails. -/

namespace Sys2Proof.Machine

/-! ## An operation that sends a fixed list of transactions -/

/-- The state after exchanges of the commands, in order, all completed. -/
def State.afterXfers : State → List Command → State
  | s, [] => s
  | s, c :: cs => (s.afterXfer c).afterXfers cs

section
variable (s : State) (cs : List Command)

@[simp] theorem State.afterXfers_config : (s.afterXfers cs).config = s.config := by
  induction cs generalizing s with
  | nil => rfl
  | cons c cs ih => simp [State.afterXfers, ih]

@[simp] theorem State.afterXfers_running : (s.afterXfers cs).running = s.running := by
  induction cs generalizing s with
  | nil => rfl
  | cons c cs ih => simp [State.afterXfers, ih]

@[simp] theorem State.afterXfers_params : (s.afterXfers cs).params = s.params := by
  induction cs generalizing s with
  | nil => rfl
  | cons c cs ih => simp [State.afterXfers, ih]

@[simp] theorem State.afterXfers_chip : (s.afterXfers cs).chip = s.chip :=
  congrArg ChipParams.chip (s.afterXfers_params cs)

@[simp] theorem State.afterXfers_inbox : (s.afterXfers cs).inbox = s.inbox := by
  induction cs generalizing s with
  | nil => rfl
  | cons c cs ih => simp [State.afterXfers, ih]

@[simp] theorem State.afterXfers_sched : (s.afterXfers cs).sched = s.sched.drop cs.length := by
  induction cs generalizing s with
  | nil => rfl
  | cons c cs ih => simp [State.afterXfers, ih]

@[simp] theorem State.afterXfers_mosi : (s.afterXfers cs).bus.map (·.mosi) =
    s.bus.map (·.mosi) ++ cs.map (encodeCommand s.chip.commands) := by
  induction cs generalizing s with
  | nil => simp [State.afterXfers]
  | cons c cs ih => simp [State.afterXfers, ih]

theorem State.afterXfers_append (ds : List Command) :
    s.afterXfers (cs ++ ds) = (s.afterXfers cs).afterXfers ds := by
  induction cs generalizing s with
  | nil => rfl
  | cons c cs ih => simp [State.afterXfers, ih]

end

/-- While its exchanges complete, the operation, begun in s, sends exactly the commands, whatever it asks of the
responses, and then returns v. -/
def Prog.Sends (v : Value) : List Command → Prog → State → Prop
  | [], p, _ => p = .ret v
  | c :: cs, p, s => ∃ next, p = .xfer (encodeCommand s.chip.commands c) next ∧
      Prog.Sends v cs (next (s.beforeXfer.engine c).1) (s.afterXfer c)

/-- The first k exchanges on the schedule complete. -/
def State.completesFirst (s : State) (k : Nat) : Prop :=
  ∀ j, j < k → ∀ x, s.sched[j]? = some x → x.ending = .completes

section
variable {s : State} {k : Nat}

theorem State.busCompletes.completesFirst (h : s.busCompletes) (k : Nat) : s.completesFirst k :=
  fun _ _ x hx => h x (List.mem_of_getElem? hx)

theorem State.completesFirst.nextSlot (h : s.completesFirst (k + 1)) : s.nextSlot.ending = .completes := by
  unfold State.nextSlot
  cases hs : s.sched with
  | nil => rfl
  | cons x xs => exact h 0 (by omega) x (by simp [hs])

theorem State.completesFirst.afterXfer (h : s.completesFirst (k + 1)) (c : Command) :
    (s.afterXfer c).completesFirst k := by
  intro j hj x hx
  exact h (j + 1) (by omega) x (by simpa using hx)

theorem State.completesFirst.callBegun (h : s.completesFirst k) (i : Instr) : (s.callBegun i).completesFirst k := by
  unfold State.completesFirst
  rwa [State.callBegun_sched]

theorem State.nextSlot_of_getElem? {x : XferSlot} (h : s.sched[0]? = some x) : s.nextSlot = x := by
  unfold State.nextSlot
  rw [List.headD_eq_head?_getD, List.head?_eq_getElem?, h]
  rfl

end

section
variable {v : Value} {ends : State → Result → State} {s : State} {p : Prog} {cs : List Command}

/-- After k exchanges that complete, what is left of the operation sends the commands that are left. -/
theorem Prog.Sends.run_take (h : p.Sends v cs s) (hd : s.chip.commands.distinct)
    (ha : cs.all commandAdmitted = true) {k : Nat} (hk : k ≤ cs.length) (hx : s.completesFirst k) :
    ∃ q : Prog, p.run ends s = q.run ends (s.afterXfers (cs.take k)) ∧
      q.Sends v (cs.drop k) (s.afterXfers (cs.take k)) := by
  induction k generalizing s p cs with
  | zero => exact ⟨p, rfl, h⟩
  | succ k ih =>
    cases cs with
    | nil => simp at hk
    | cons c cs =>
      obtain ⟨next, rfl, hnext⟩ := h
      obtain ⟨hc, hcs⟩ : commandAdmitted c = true ∧ cs.all commandAdmitted = true := by simpa using ha
      obtain ⟨q, hq, hrest⟩ := ih hnext (by simpa using hd) hcs (by simpa using hk) (hx.afterXfer c)
      exact ⟨q, (Prog.run_completes hd hx.nextSlot hc).trans hq, hrest⟩

theorem Prog.Sends.run_completes (h : p.Sends v cs s) (hd : s.chip.commands.distinct)
    (ha : cs.all commandAdmitted = true) (hx : s.completesFirst cs.length) :
    p.run ends s = .next (ends (s.afterXfers cs) (.returned v)) := by
  obtain ⟨q, hq, hrest⟩ := h.run_take (ends := ends) hd ha le_rfl hx
  rw [List.take_length] at hq
  rw [List.drop_length] at hrest
  rw [hq, show q = .ret v from hrest, Prog.run_ret]

/-- The first exchange that fails is the operation's last (R161, R271). -/
theorem Prog.Sends.run_fails (h : p.Sends v cs s) (hd : s.chip.commands.distinct)
    (ha : cs.all commandAdmitted = true) {k : Nat} {c : Command} (hc : cs[k]? = some c) (hx : s.completesFirst k)
    {x : XferSlot} (hk : s.sched[k]? = some x) (hfail : x.ending ≠ .completes) :
    p.run ends s =
      .next (ends ((s.afterXfers (cs.take k)).afterFailure c) (.raised (.transport c.kind c.address?))) := by
  obtain ⟨hlt, rfl⟩ := List.getElem?_eq_some_iff.1 hc
  obtain ⟨q, hq, hrest⟩ := h.run_take (ends := ends) hd ha (Nat.le_of_lt hlt) hx
  rw [List.drop_eq_getElem_cons hlt] at hrest
  obtain ⟨next, rfl, -⟩ := hrest
  have hslot : (s.afterXfers (cs.take k)).sched[0]? = some x := by simpa [Nat.le_of_lt hlt] using hk
  rw [hq, Prog.run_fails (by simpa using hd) (by rwa [State.nextSlot_of_getElem? hslot])]
  exact List.all_eq_true.1 ha _ (List.getElem_mem hlt)

end

/-! ## What a transaction leaves of a register -/

/-- The addresses that the transaction stores to. -/
def commandTargets : Command → List Nat
  | .reset => List.range 0x80
  | .read _ _ => []
  | .write a ds => (List.range ds.length).map (a.toNat + ·)
  | .bitmod a _ _ => [a.toNat]
  | .rdstatus => []

/-- None of the addresses shares storage with register b, on the chip with the spec's constants. -/
abbrev Spares (b : Nat) (targets : List Nat) : Prop := ∀ a ∈ targets, slotOf a ≠ slotOf b

/-- RESET stores to every register. -/
theorem ne_reset_of_spares {b : Nat} (hb : b < 0x80) {c : Command} (h : Spares b (commandTargets c)) :
    c ≠ .reset := by
  rintro rfl
  exact h b (List.mem_range.2 hb) rfl

/-- A CANSIDE step leaves the bits m of register b alone, wherever it occurs. -/
def CanKeeps (b : Nat) (m : Byte) : Prop :=
  ∀ s : State, s.standard → ∀ e, (s.canStep e).reg b &&& m = s.reg b &&& m

theorem canKeeps_hostOnly {b : Nat} (hb : b < 0x80) (h : hostOnly b = true) (m : Byte) : CanKeeps b m :=
  fun _ hs e => by rw [State.reg_canStep_hostOnly hs e hb h]

theorem canKeeps_pinModes : CanKeeps TXRTSCTRL 0x07 := fun _ hs e => State.pinModes_canStep hs e

theorem rxb_lt {n : Nat} (hn : n < 2) : rxb n < 0x80 := rxb_add_lt hn (k := 0) (by omega)

/-- Every implemented bit of RXBnCTRL is read-only or writable, none is both. -/
theorem readOnlyBits_rxbCtrl : ∀ n : Fin 2,
    ~~~readOnlyBits Chip.standard (rxb n) &&& Chip.standard.wmask (rxb n) = Chip.standard.wmask (rxb n) ∧
      readOnlyBits Chip.standard (rxb n) &&& Chip.standard.wmask (rxb n) = 0 := by
  decide

/-- CANSIDE writes RXBnCTRL's read-only bits alone (E1). -/
theorem canKeeps_rxbCtrl {n : Nat} (hn : n < 2) : CanKeeps (rxb n) (Chip.standard.wmask (rxb n)) := by
  intro s hs e
  by_cases hr : ∃ v c, e = .receive ⟨n, hn⟩ v c
  · obtain ⟨v, c, rfl⟩ := hr
    by_cases hf : s.rxFlag n = true
    · rw [State.canStep_of_not_admitted (by simp [State.admitsCanStep, hf])]
    · rw [State.reg_receive_ctrl hs (by simpa using hf), hs]
      obtain ⟨hkeep, hfree⟩ := readOnlyBits_rxbCtrl ⟨n, hn⟩
      exact and_putBits_of_disjoint hkeep hfree _ _
  · rw [s.reg_canStep_ne e fun a ha => ?_]
    rw [hs] at ha ⊢
    have far : ∀ n : Fin 2, ∀ a ∈ canTouchedOutside n, slotOf a ≠ slotOf (rxb n) := by decide +kernel
    exact far ⟨n, hn⟩ a (canTouched_outside hn (fun v c he => hr ⟨v, c, he⟩) ha)

section
variable {s : State} (hs : s.standard) {b : Nat} (hb : b < 0x80) {c : Command} (h : Spares b (commandTargets c))
include hs hb h

theorem State.reg_engineEffect_of_spares : (s.engineEffect c).reg b = s.reg b := by
  cases c with
  | reset => exact absurd rfl (ne_reset_of_spares hb h)
  | read a n => rfl
  | write a ds =>
    refine s.reg_storeRegs_ne ds fun i hi => ?_
    rw [hs]
    exact h _ (List.mem_map_of_mem (List.mem_range.2 hi))
  | bitmod a m v =>
    refine s.reg_storeReg_ne _ ?_
    rw [hs]
    exact h _ (List.mem_singleton_self _)
  | rdstatus => rfl

theorem State.reg_failedEffect_of_spares (e : XferEnd) : (s.failedEffect c e).reg b = s.reg b := by
  rcases s.failedEffect_cases c e with he | he | ⟨a, ds, k, rfl, he⟩ <;> rw [he]
  · exact State.reg_engineEffect_of_spares hs hb h
  · refine State.reg_engineEffect_of_spares hs hb fun x hx => h x ?_
    simp only [commandTargets, List.mem_map, List.mem_range, List.length_take] at hx ⊢
    obtain ⟨i, hi, rfl⟩ := hx
    exact ⟨i, by omega, rfl⟩

end

/-- No CANSIDE step on the schedule changes the bits m of register b. -/
def State.Keeps (s : State) (b : Nat) (m : Byte) : Prop := s.canQuiet ∨ CanKeeps b m

theorem State.keeps_hostOnly (s : State) {b : Nat} (hb : b < 0x80) (h : hostOnly b = true) (m : Byte) : s.Keeps b m :=
  .inr (canKeeps_hostOnly hb h m)

theorem eq_of_and_allOnes {x y : Byte} (h : x &&& 0xFF = y &&& 0xFF) : x = y :=
  BitVec.and_allOnes.symm.trans (h.trans BitVec.and_allOnes)

section
variable {s : State} {b : Nat} {m : Byte}

theorem State.canQuiet_of_sched {t : State} (h : s.canQuiet) {k : Nat} (hk : t.sched = s.sched.drop k) :
    t.canQuiet := by
  intro x hx
  rw [hk] at hx
  exact h x (List.mem_of_mem_drop hx)

theorem State.Keeps.of_sched {t : State} (h : s.Keeps b m) {k : Nat} (hk : t.sched = s.sched.drop k) : t.Keeps b m :=
  h.imp_left fun hq => State.canQuiet_of_sched hq hk

theorem State.Keeps.reg_beforeXfer (h : s.Keeps b m) (hs : s.standard) : s.beforeXfer.reg b &&& m = s.reg b &&& m := by
  rcases h with hq | hc
  · rw [State.reg_beforeXfer_quiet hq]
  · exact State.canSteps_induct (P := fun s t => t.reg b &&& m = s.reg b &&& m) (fun _ => rfl) (fun h k => k.trans h)
      (fun hs e => hc _ hs e) (s := s.slotTaken) hs _

theorem State.Keeps.reg_afterXfer (h : s.Keeps b m) (hs : s.standard) (hb : b < 0x80) {c : Command}
    (hc : Spares b (commandTargets c)) : (s.afterXfer c).reg b &&& m = s.reg b &&& m := by
  rw [State.reg_afterXfer, State.reg_engineEffect_of_spares (hs.of_chip (by simp)) hb hc, h.reg_beforeXfer hs]

theorem State.Keeps.reg_afterFailure (h : s.Keeps b m) (hs : s.standard) (hb : b < 0x80) {c : Command}
    (hc : Spares b (commandTargets c)) : (s.afterFailure c).reg b &&& m = s.reg b &&& m := by
  rw [State.reg_afterFailure, State.reg_failedEffect_of_spares (hs.of_chip (by simp)) hb hc, h.reg_beforeXfer hs]

end

/-! ## While Configure is in effect and requested, no store is stopped by protection (R55, R89) -/

/-- ENGINE's invariant, with Configure both in effect and requested. -/
structure State.Configuring (s : State) : Prop where
  engineInv : s.EngineInv
  opmod     : s.opmod = 4
  reqop     : s.reqop = 4

section
variable {s : State}

theorem State.EngineInv.canSteps (h : s.EngineInv) (es : List CanStep) : (s.canSteps es).EngineInv := by
  induction es generalizing s with
  | nil => exact h
  | cons e es ih => exact ih (h.canStep e)

theorem State.Configuring.beforeXfer (h : s.Configuring) : s.beforeXfer.Configuring where
  engineInv := (h.engineInv.of_regs (t := s.slotTaken) rfl rfl).canSteps _
  opmod := State.opmod_canSteps_configure (s := s.slotTaken) h.engineInv.standard h.opmod h.reqop _
  reqop := (State.reqop_canSteps (s := s.slotTaken) h.engineInv.standard _).trans h.reqop

/-- A RESET brings it about, from any state (R301). -/
theorem State.configuring_afterXfer_reset (hs : s.standard) : (s.afterXfer .reset).Configuring where
  engineInv := (State.engineInv_resetRegisters (s := s.beforeXfer) (hs.of_chip (by simp))).of_regs (by simp) rfl
  opmod := by
    have hs' : s.beforeXfer.standard := hs.of_chip (by simp)
    rw [State.opmod_eq (hs.of_chip (by simp)), State.reg_afterXfer, State.engineEffect,
      ← State.opmod_eq (hs'.of_chip (by simp)), State.opmod_resetRegisters hs']
  reqop := by
    have hs' : s.beforeXfer.standard := hs.of_chip (by simp)
    rw [State.reqop_eq (hs.of_chip (by simp)), State.reg_afterXfer, State.engineEffect,
      State.reg_resetRegisters hs' (by decide), resetValue_fixed (by decide)]
    decide

/-- A transaction that stores to no mirror of CANCTRL keeps it. -/
theorem State.Configuring.afterXfer (h : s.Configuring) {c : Command} (hc : Spares CANCTRL (commandTargets c)) :
    (s.afterXfer c).Configuring := by
  have hb := h.beforeXfer
  have hs := hb.engineInv.standard
  have ht : (s.afterXfer c).standard := h.engineInv.standard.of_chip (by simp)
  refine ⟨(hb.engineInv.engineEffect c).of_regs rfl rfl, ?_, ?_⟩
  · rw [State.opmod_eq ht, State.reg_afterXfer,
      State.reg_canstat_engineEffect hs (ne_reset_of_spares (by decide) hc), ← State.opmod_eq hs, hb.opmod]
  · rw [State.reqop_eq ht, State.reg_afterXfer, State.reg_engineEffect_of_spares hs (by decide) hc,
      ← State.reqop_eq hs, hb.reqop]

theorem State.Configuring.protectedNow (h : s.Configuring) (b : Nat) : s.protectedNow b = false := by
  rw [State.protectedNow_eq_false_iff, h.opmod, h.engineInv.standard]
  exact .inr rfl

/-- Byte q of a WRITE goes to its register by the write rule (R83, R86). -/
theorem State.Configuring.reg_write (h : s.Configuring) {a q : Nat} {ds : List Byte} (hq : q < ds.length)
    (ha : a + ds.length ≤ 0x80) (hm : (a + q) % 16 < 14) :
    (s.storeRegs a ds).reg (a + q) = maskedWrite (Chip.standard.wmask (a + q)) (s.reg (a + q)) ds[q] := by
  have hs := h.engineInv.standard
  have hfar : ∀ j, q < j → j < ds.length → s.chip.home (a + j) ≠ s.chip.home (a + q) := fun j h1 h2 =>
    (State.home_ne hs (a := a + q) (by omega) (by omega) (by omega) hm).symm
  rw [s.reg_storeRegs_at ds hq (by omega) hfar, storedValue_storeRegs_unprotected hs _
    (by rw [List.length_take]; omega) (by omega) (h.protectedNow _), storedValue_unprotected _ (h.protectedNow _), hs]

/-- A BITMOD of a register that honours the mask changes the masked bits that can be written (R88). -/
theorem State.Configuring.reg_bitmod (h : s.Configuring) {a : Nat} (ha : a < 0x80)
    (hcap : Chip.standard.bitmodCapable a = true) (m v : Byte) :
    (s.bitmodReg a m v).reg a =
      (s.reg a &&& ~~~(m &&& Chip.standard.wmask a)) ||| (v &&& m &&& Chip.standard.wmask a) := by
  rw [State.bitmodReg, s.reg_storeReg _ _ ha, if_pos rfl, storedValue_unprotected _ (h.protectedNow _),
    h.engineInv.standard, hcap, maskedWrite_bitmodValue_capable]

/-- Of bits m none of which is read-only, a store by the write rule leaves the bits it carries (R59, R86). -/
theorem State.Configuring.maskedWrite_and (h : s.Configuring) {b : Nat} (hb : b < 0x80) {m : Byte}
    (hm : readOnlyBits Chip.standard b &&& m = 0) (v : Byte) :
    maskedWrite (Chip.standard.wmask b) (s.reg b) v &&& m = v &&& Chip.standard.wmask b &&& m := by
  have hi := h.engineInv.implementedOnly b hb
  rw [h.engineInv.standard] at hi
  unfold readOnlyBits at hm
  unfold maskedWrite
  ext i hlt
  have h1 := congrArg (·[i]) hi
  have h2 := congrArg (·[i]) hm
  simp at h1 h2 ⊢
  grind

end

/-! ## The construction (R190, R304) -/

/-- The operation that sends the commands and goes on with p. -/
def sendAll (cmd : CommandBytes) : List Command → Prog → Prog
  | [], p => p
  | c :: cs, p => .xfer (encodeCommand cmd c) fun _ => sendAll cmd cs p

theorem sends_sendAll {s : State} {cmd : CommandBytes} (h : s.chip.commands = cmd) (v : Value) (cs : List Command) :
    (sendAll cmd cs (.ret v)).Sends v cs s := by
  induction cs generalizing s with
  | nil => rfl
  | cons c cs ih => exact ⟨_, by rw [h]; rfl, ih (s := s.afterXfer c) (by simpa using h)⟩

/-- The mode that line 2 of R190 reads after the RESET is Configure, under every schedule. -/
theorem modeOfField_of_configuring {s : State} (h : s.Configuring) :
    modeOfField Chip.standard (opmodOf ((s.readRegs CANSTAT 1).getD 0 0)) = .mode .configure := by
  have hs := h.engineInv.standard
  have hmask : ∀ b : Byte, opmodOf (b &&& Chip.standard.impl CANSTAT) = opmodOf b := by decide +kernel
  have hmode : opmodOf (s.reg CANSTAT) = 4 := (State.opmod_eq hs).symm.trans h.opmod
  rw [s.getD_readRegs (i := 0) Nat.one_pos, State.readReg, hs]
  exact (congrArg (modeOfField Chip.standard) ((hmask _).trans hmode)).trans (by decide)

/-- A construction with a valid record sends the 19 transactions of R190 without line 3, and returns. -/
theorem ctorProg_sends {s : State} (hs : s.standard) {c : ControllerConfig} (hc : configFault c = none) :
    (ctorProg Chip.standard c).Sends .unit (constructionCommands c) s := by
  have hreset : (s.afterXfer .reset).Configuring := State.configuring_afterXfer_reset hs
  have hrest : (sendAll Chip.standard.commands ((constructionCommands c).drop 2) (.ret .unit)).Sends .unit
      ((constructionCommands c).drop 2) ((s.afterXfer .reset).afterXfer (.read 0x0E 1)) :=
    sends_sendAll (by simp [show s.chip = Chip.standard from hs]) _ _
  have hresponse : ((s.afterXfer .reset).beforeXfer.engine (.read 0x0E 1)).1.drop 2 =
      (s.afterXfer .reset).beforeXfer.readRegs CANSTAT 1 := State.engine_response _ (.read 0x0E 1)
  unfold ctorProg
  rw [hc]
  refine ⟨_, by rw [hs]; rfl, _, by rw [State.afterXfer_chip, hs]; rfl, ?_⟩
  simp only [hresponse]
  rw [List.take_of_length_le (by simp), modeOfField_of_configuring hreset.beforeXfer, if_pos rfl]
  exact hrest

/-- Where the 19 transactions of a construction store to, whatever the record. -/
def constructionTargets : List (List Nat) :=
  [List.range 0x80, [], [CNF1], [CNF2], [CNF3],
   (List.range 12).map (RXF0SIDH + ·), (List.range 12).map (RXF3SIDH + ·), (List.range 8).map (RXM0SIDH + ·),
   (List.range 13).map (txb 0 + ·), (List.range 13).map (txb 1 + ·), (List.range 13).map (txb 2 + ·),
   [rxb 0], [rxb 1], [CANINTE], [BFPCTRL], [TXRTSCTRL], [rxb 0], [rxb 1], [CANCTRL]]

theorem map_commandTargets (c : ControllerConfig) :
    (constructionCommands c).map commandTargets = constructionTargets := rfl

theorem constructionCommands_admitted (c : ControllerConfig) :
    (constructionCommands c).all commandAdmitted = true := rfl

theorem exists_constructionCommand (c : ControllerConfig) {k : Nat} (h : k < 19) :
    ∃ d, (constructionCommands c)[k]? = some d :=
  ⟨_, List.getElem?_eq_getElem h⟩

theorem lt_of_constructionCommand {c : ControllerConfig} {k : Nat} {d : Command}
    (h : (constructionCommands c)[k]? = some d) : k < 19 :=
  (List.getElem?_eq_some_iff.1 h).1

@[simp] theorem length_constructionCommands (c : ControllerConfig) : (constructionCommands c).length = 19 := rfl

/-- The clear of transmit buffer n (R191). -/
theorem constructionCommand_txb (c : ControllerConfig) {n : Nat} (hn : n < 3) :
    (constructionCommands c)[8 + n]? = some (.write (addressByte (txb n)) (zeros 13)) := by
  interval_cases n <;> rfl

/-- The clear of RXBnCTRL (R191). -/
theorem constructionCommand_rxb (c : ControllerConfig) {n : Nat} (hn : n < 2) :
    (constructionCommands c)[11 + n]? = some (.write (addressByte (rxb n)) (zeros 1)) := by
  interval_cases n <;> rfl

/-- RXM of receive buffer n set from the filter toggle (R192). -/
theorem constructionCommand_rxMode (c : ControllerConfig) {n : Nat} (hn : n < 2) :
    (constructionCommands c)[16 + n]? =
      some (.bitmod (addressByte (rxb n)) 0x60 (if c.filtersEnabled then 0x00 else 0x60)) := by
  interval_cases n <;> rfl

/-- None of the transactions number i to n - 1 stores to register b. -/
abbrev SparedFrom (i n b : Nat) : Prop := ∀ l ∈ (constructionTargets.take n).drop i, Spares b l

/-- TXBnCTRL is stored to by the clear of its buffer alone, its D7 by none. -/
theorem sparedFrom_txb : ∀ n : Fin 3, SparedFrom 1 (8 + n) (txb n) ∧ SparedFrom (8 + n + 1) 19 (txb n) ∧
    SparedFrom 1 19 (txb n + 13) := by
  decide +kernel

/-- RXBnCTRL is stored to by its clear and by the setting of RXM alone. -/
theorem sparedFrom_rxb : ∀ n : Fin 2, SparedFrom 1 (11 + n) (rxb n) ∧ SparedFrom (11 + n + 1) (16 + n) (rxb n) ∧
    SparedFrom (16 + n + 1) 19 (rxb n) := by
  decide +kernel

theorem spares_of_sparedFrom {i n b j : Nat} (h : SparedFrom i n b) (hi : i ≤ j) (hn : j < n) {c : ControllerConfig}
    {d : Command} (hd : (constructionCommands c)[j]? = some d) : Spares b (commandTargets d) := by
  refine h _ (List.mem_of_getElem? (i := j - i) ?_)
  rw [List.getElem?_drop, List.getElem?_take_of_lt (by omega), Nat.add_sub_cancel' hi, ← map_commandTargets c,
    List.getElem?_map, hd]
  rfl

/-- The state of a construction from s after its first k transactions, all completed. -/
def State.built (s : State) (c : ControllerConfig) (k : Nat) : State :=
  (s.callBegun (.ctor c)).afterXfers ((constructionCommands c).take k)

section
variable {s : State} {c : ControllerConfig}

theorem State.built_succ {k : Nat} {d : Command} (hd : (constructionCommands c)[k]? = some d) :
    s.built c (k + 1) = (s.built c k).afterXfer d := by
  unfold State.built
  rw [List.take_add_one, hd, State.afterXfers_append]
  rfl

@[simp] theorem State.built_config (k : Nat) : (s.built c k).config = some c := by simp [State.built]
@[simp] theorem State.built_running (k : Nat) : (s.built c k).running = s.running := by simp [State.built]
@[simp] theorem State.built_params (k : Nat) : (s.built c k).params = s.params := by simp [State.built]
@[simp] theorem State.built_chip (k : Nat) : (s.built c k).chip = s.chip := by simp [State.built]
@[simp] theorem State.built_inbox (k : Nat) : (s.built c k).inbox = s.inbox := by simp [State.built]

theorem State.built_sched {k : Nat} (hk : k ≤ 19) : (s.built c k).sched = s.sched.drop k := by
  simp [State.built, hk]

theorem State.built_mosi (k : Nat) : (s.built c k).bus.map (·.mosi) =
    ((constructionCommands c).take k).map (encodeCommand s.chip.commands) := by
  simp [State.built]

theorem State.length_built_bus {k : Nat} (hk : k ≤ 19) : (s.built c k).bus.length = k := by
  simpa [hk] using congrArg List.length (s.built_mosi (c := c) k)

theorem State.Keeps.built {b : Nat} {m : Byte} (h : s.Keeps b m) (k : Nat) : (s.built c k).Keeps b m :=
  h.of_sched (k := ((constructionCommands c).take k).length) (by simp [State.built])

section
variable (hs : s.standard)
include hs

theorem State.built_standard (k : Nat) : (s.built c k).standard := hs.of_chip (State.built_chip k)

/-- After the RESET and up to the last transaction, which requests Normal, Configure is in effect and requested. -/
theorem State.built_configuring {k : Nat} (h1 : 1 ≤ k) (h2 : k ≤ 18) : (s.built c k).Configuring := by
  induction k, h1 using Nat.le_induction with
  | base => exact State.configuring_afterXfer_reset (s := s.callBegun (.ctor c)) (hs.of_chip (by simp))
  | succ k h1 ih =>
    obtain ⟨d, hd⟩ := exists_constructionCommand c (show k < 19 by omega)
    rw [State.built_succ hd]
    exact (ih (by omega)).afterXfer
      (spares_of_sparedFrom (show SparedFrom 1 18 CANCTRL by decide +kernel) h1 (by omega) hd)

/-- The RESET leaves every register its reset value (R150). -/
theorem State.reg_built_one {b : Nat} (hb : b < 0x80) :
    ∃ d, (s.built c 1).reg b = Chip.standard.resetValue b (Config.freeByte d) := by
  have h0 : (constructionCommands c)[0]? = some .reset := rfl
  have hs0 : (s.built c 0).beforeXfer.standard := hs.of_chip (by simp)
  rw [State.built_succ h0, State.reg_afterXfer, State.engineEffect, State.reg_resetRegisters hs0 hb]
  exact ⟨_, rfl⟩

theorem State.reg_built_one_fixed {b : Nat} (hb : b < 0x80) (h : (Chip.standard.info b).drawn = 0) :
    (s.built c 1).reg b = (Chip.standard.info b).fixed := by
  obtain ⟨d, hd⟩ := State.reg_built_one (c := c) hs hb
  rw [hd, resetValue_fixed h]

/-- What transactions that spare register b leave of its bits m. -/
theorem State.reg_built_of_sparedFrom {b : Nat} (hb : b < 0x80) {m : Byte} (hk : s.Keeps b m) {i k n : Nat}
    (h : SparedFrom i n b) (hi : i ≤ k) (hn : k ≤ n) (hn' : n ≤ 19) :
    (s.built c k).reg b &&& m = (s.built c i).reg b &&& m := by
  induction k, hi using Nat.le_induction with
  | base => rfl
  | succ k hi ih =>
    obtain ⟨d, hd⟩ := exists_constructionCommand c (show k < 19 by omega)
    rw [State.built_succ hd, (hk.built k).reg_afterXfer (State.built_standard hs k) hb
      (spares_of_sparedFrom h hi (by omega) hd), ih (by omega)]

/-- Transaction number k meets in register b what the first i left, where those between spare it. -/
theorem State.reg_built_beforeXfer {b : Nat} (hb : b < 0x80) {m : Byte} (hk : s.Keeps b m) {i k : Nat}
    (h : SparedFrom i k b) (hi : i ≤ k) (h19 : k ≤ 19) :
    (s.built c k).beforeXfer.reg b &&& m = (s.built c i).reg b &&& m := by
  rw [(hk.built k).reg_beforeXfer (State.built_standard hs k), State.reg_built_of_sparedFrom hs hb hk h hi le_rfl h19]

theorem State.reg_built_beforeXfer_whole {b : Nat} (hb : b < 0x80) (hk : s.Keeps b 0xFF) {i k : Nat}
    (h : SparedFrom i k b) (hi : i ≤ k) (h19 : k ≤ 19) : (s.built c k).beforeXfer.reg b = (s.built c i).reg b :=
  eq_of_and_allOnes (State.reg_built_beforeXfer hs hb hk h hi h19)

/-- What a WRITE of the construction leaves in the register of its byte q. -/
theorem State.reg_built_write {i a q : Nat} {ds : List Byte}
    (hd : (constructionCommands c)[i]? = some (.write (addressByte a) ds)) (h1 : 1 ≤ i) (h18 : i ≤ 18)
    (hq : q < ds.length) (ha : a + ds.length ≤ 0x80) (hm : (a + q) % 16 < 14) :
    (s.built c (i + 1)).reg (a + q) =
      maskedWrite (Chip.standard.wmask (a + q)) ((s.built c i).beforeXfer.reg (a + q)) ds[q] := by
  rw [State.built_succ hd, State.reg_afterXfer, State.engineEffect, toNat_addressByte (by omega)]
  exact (State.built_configuring hs h1 h18).beforeXfer.reg_write hq ha hm

/-- Of bits none of which is read-only, it leaves what the byte carries. -/
theorem State.reg_built_write_and {i a q : Nat} {ds : List Byte}
    (hd : (constructionCommands c)[i]? = some (.write (addressByte a) ds)) (h1 : 1 ≤ i) (h18 : i ≤ 18)
    (hq : q < ds.length) (ha : a + ds.length ≤ 0x80) (hm : (a + q) % 16 < 14) {m : Byte}
    (hr : readOnlyBits Chip.standard (a + q) &&& m = 0) :
    (s.built c (i + 1)).reg (a + q) &&& m = ds[q] &&& Chip.standard.wmask (a + q) &&& m := by
  rw [State.reg_built_write hs hd h1 h18 hq ha hm,
    (State.built_configuring hs h1 h18).beforeXfer.maskedWrite_and (by omega) hr]

/-- What a BITMOD of the construction leaves in its register. -/
theorem State.reg_built_bitmod {i a : Nat} {m v : Byte}
    (hd : (constructionCommands c)[i]? = some (.bitmod (addressByte a) m v)) (h1 : 1 ≤ i) (h18 : i ≤ 18)
    (ha : a < 0x80) (hcap : Chip.standard.bitmodCapable a = true) :
    (s.built c (i + 1)).reg a = ((s.built c i).beforeXfer.reg a &&& ~~~(m &&& Chip.standard.wmask a)) |||
      (v &&& m &&& Chip.standard.wmask a) := by
  rw [State.built_succ hd, State.reg_afterXfer, State.engineEffect, toNat_addressByte (by omega)]
  exact (State.built_configuring hs h1 h18).beforeXfer.reg_bitmod ha hcap m v

end

end

/-! ## Registers where the construction ends -/

/-- Bits w, of which none was set, take those of v that a BITMOD's mask m and WMASK w let through. -/
theorem or_and_of_clear {old m v w : Byte} (h : old &&& w = 0) :
    ((old &&& ~~~(m &&& w)) ||| (v &&& m &&& w)) &&& w = v &&& m &&& w := by
  ext i hi
  have h1 := congrArg (·[i]) h
  simp at h1 ⊢
  grind

/-- In t, k transactions of the construction from s have completed and the next one, if there is one, has failed: it
changed no register but those it stores to. -/
structure EndsAfter (s : State) (c : ControllerConfig) (k : Nat) (t : State) : Prop where
  le  : k ≤ 19
  reg : ∀ b m, b < 0x80 → s.Keeps b m →
    (∀ d, (constructionCommands c)[k]? = some d → Spares b (commandTargets d)) →
    t.reg b &&& m = (s.built c k).reg b &&& m

/-- Transaction number i is the last of the construction to store to register b, which the link and no other agent
writes. -/
abbrev LastStored (i b : Nat) : Prop :=
  b % 16 < 14 ∧ hostOnly b = true ∧ readOnlyBits Chip.standard b = 0 ∧ SparedFrom (i + 1) 19 b

/-- A valid phaseSeg2 leaves CNF3's unimplemented bits 0 (R44, R182). -/
theorem packCNF3_and_wmask {c : ControllerConfig} (hc : configFault c = none) :
    packCNF3 c.sof c.wakeFilter c.phaseSeg2 &&& Chip.standard.wmask CNF3 =
      packCNF3 c.sof c.wakeFilter c.phaseSeg2 := by
  obtain ⟨-, -, -, -, ⟨h1, h2⟩, -, -⟩ := (configFault_eq_none_iff c).1 hc
  obtain ⟨x, hx⟩ := exists_fin_add_one h1 h2
  have hall : ∀ (sof wake : Bool) (x : Fin 8),
      packCNF3 sof wake (x + 1) &&& Chip.standard.wmask CNF3 = packCNF3 sof wake (x + 1) := by decide +kernel
  rw [hx]
  exact hall _ _ x

/-- What the first k transactions of a construction wrote (R191 to R194). -/
structure ConstructionWrote (c : ControllerConfig) (k : Nat) (t : State) : Prop where
  cnf1      : 2 < k → t.reg CNF1 = packCNF1 c.sjw c.brp
  cnf2      : 3 < k → t.reg CNF2 = packCNF2 c.baudRateSelect c.samplingMode c.phaseSeg1 c.propSeg
  cnf3      : 4 < k → t.reg CNF3 = packCNF3 c.sof c.wakeFilter c.phaseSeg2
  filters0  : 5 < k → ∀ i, i < 12 → t.reg (RXF0SIDH + i) = 0x00
  filters3  : 6 < k → ∀ i, i < 12 → t.reg (RXF3SIDH + i) = 0x00
  masks     : 7 < k → ∀ i, i < 8 → t.reg (RXM0SIDH + i) = 0x00
  txBuffers : ∀ n, n < 3 → 8 + n < k → ∀ i, 1 ≤ i → i < 13 → t.reg (txb n + i) = 0x00
  canInte   : 13 < k → t.reg CANINTE = 0xA7
  bfpctrl   : 14 < k → t.reg BFPCTRL = c.rxPinMode &&& 0x3F
  txrtsctrl : 15 < k → t.reg TXRTSCTRL &&& 0x07 = c.txRtsPinMode &&& 0x07
  rxMode    : ∀ n, n < 2 → 16 + n < k →
    t.reg (rxb n) &&& Chip.standard.wmask (rxb n) = if c.filtersEnabled then 0x00 else 0x60

section
variable {s t : State} {c : ControllerConfig} {k : Nat} (h : EndsAfter s c k t)
include h

/-- What transactions that spare register b leave of its bits m. -/
theorem EndsAfter.reg_of_sparedFrom (hs : s.standard) {b : Nat} (hb : b < 0x80) {m : Byte} (hk : s.Keeps b m)
    {i n : Nat} (hspared : SparedFrom i n b) (hi : i ≤ k) (hn : k < n ∨ n = 19) (hn' : n ≤ 19) :
    t.reg b &&& m = (s.built c i).reg b &&& m := by
  have hle := h.le
  rw [h.reg b m hb hk fun d hd => ?_, State.reg_built_of_sparedFrom hs hb hk hspared hi (by omega) hn']
  have hlt := lt_of_constructionCommand hd
  exact spares_of_sparedFrom hspared hi (by omega) hd

/-- What the first i transactions left in a register that the later ones spare. -/
theorem EndsAfter.reg_eq_built (hs : s.standard) {b : Nat} (hb : b < 0x80) (hk : s.Keeps b 0xFF) {i n : Nat}
    (hspared : SparedFrom i n b) (hi : i ≤ k) (hn : k < n ∨ n = 19) (hn' : n ≤ 19) :
    t.reg b = (s.built c i).reg b :=
  eq_of_and_allOnes (h.reg_of_sparedFrom hs hb hk hspared hi hn hn')

/-- A register that no transaction after the RESET stored to holds its reset value, where none of it is drawn. -/
theorem EndsAfter.reg_reset (hs : s.standard) {b : Nat} (hb : b < 0x80) (hk : s.Keeps b 0xFF) {n : Nat}
    (hspared : SparedFrom 1 n b) (h1 : 1 ≤ k) (hn : k < n ∨ n = 19) (hn' : n ≤ 19)
    (hdrawn : (Chip.standard.info b).drawn = 0) : t.reg b = (Chip.standard.info b).fixed := by
  rw [h.reg_eq_built hs hb hk hspared h1 hn hn', State.reg_built_one_fixed hs hb hdrawn]

/-- A register that a WRITE was the last to store to holds the byte it carried. -/
theorem EndsAfter.reg_stored (hs : s.standard) {i a q : Nat} {ds : List Byte} (hi : i < k) (h1 : 1 ≤ i)
    (hd : (constructionCommands c)[i]? = some (.write (addressByte a) ds)) (hq : q < ds.length)
    (ha : a + ds.length ≤ 0x80) (hlast : LastStored i (a + q)) :
    t.reg (a + q) = ds[q] &&& Chip.standard.wmask (a + q) := by
  obtain ⟨hm, hhost, hr, hspared⟩ := hlast
  have hle := h.le
  have hb : a + q < 0x80 := by omega
  have hall := h.reg_of_sparedFrom hs hb (m := 0xFF) (s.keeps_hostOnly hb hhost _) hspared (by omega)
    (.inr rfl) le_rfl
  rw [State.reg_built_write_and hs hd h1 (by omega) hq ha hm (by simp [hr])] at hall
  exact eq_of_and_allOnes hall

theorem EndsAfter.reg_stored_one (hs : s.standard) {i a : Nat} {v : Byte} (hi : i < k) (h1 : 1 ≤ i)
    (hd : (constructionCommands c)[i]? = some (.write (addressByte a) [v])) (ha : a < 0x80) (hlast : LastStored i a) :
    t.reg a = v &&& Chip.standard.wmask a :=
  h.reg_stored hs (q := 0) hi h1 hd Nat.one_pos ha hlast

/-- A register that a WRITE of zeros was the last to store to is zero. -/
theorem EndsAfter.reg_cleared (hs : s.standard) {i a q n : Nat} (hi : i < k) (h1 : 1 ≤ i)
    (hd : (constructionCommands c)[i]? = some (.write (addressByte a) (zeros n))) (hq : q < n)
    (ha : a + n ≤ 0x80) (hlast : LastStored i (a + q)) : t.reg (a + q) = 0x00 := by
  rw [h.reg_stored hs hi h1 hd (by simpa [zeros] using hq) (by simpa [zeros] using ha) hlast]
  simp [zeros]

/-- RXBnCTRL's writable bits: cleared as a whole, then RXM set from the filter toggle (R191, R192). -/
theorem EndsAfter.rxMode (hs : s.standard) {n : Nat} (hn : n < 2) (hk : 16 + n < k) :
    t.reg (rxb n) &&& Chip.standard.wmask (rxb n) = if c.filtersEnabled then 0x00 else 0x60 := by
  have hkeeps : s.Keeps (rxb n) (Chip.standard.wmask (rxb n)) := .inr (canKeeps_rxbCtrl hn)
  have hlt := rxb_lt hn
  have hcap : Chip.standard.bitmodCapable (rxb n) = true := by
    interval_cases n <;> rfl
  obtain ⟨-, hbefore, hafter⟩ := sparedFrom_rxb ⟨n, hn⟩
  obtain ⟨-, hfree⟩ := readOnlyBits_rxbCtrl ⟨n, hn⟩
  have hzero : (s.built c (16 + n)).beforeXfer.reg (rxb n) &&& Chip.standard.wmask (rxb n) = 0 := by
    rw [State.reg_built_beforeXfer hs hlt hkeeps hbefore (by omega) (by omega)]
    refine (State.reg_built_write_and hs (q := 0) (constructionCommand_rxb c hn) (by omega) (by omega)
      Nat.one_pos hlt ?_ hfree).trans (by simp [zeros])
    unfold rxb
    omega
  rw [h.reg_of_sparedFrom hs hlt hkeeps hafter hk (.inr rfl) le_rfl,
    State.reg_built_bitmod hs (constructionCommand_rxMode c hn) (by omega) (by omega) hlt hcap, or_and_of_clear hzero]
  interval_cases n <;> cases c.filtersEnabled <;> decide

/-- What the transactions before the first one that failed wrote stays. -/
theorem EndsAfter.wrote (hs : s.standard) (hc : configFault c = none) : ConstructionWrote c k t where
  cnf1 hk := (h.reg_stored_one hs hk (by omega) (a := CNF1) rfl (by decide) (by decide +kernel)).trans
    BitVec.and_allOnes
  cnf2 hk := (h.reg_stored_one hs hk (by omega) (a := CNF2) rfl (by decide) (by decide +kernel)).trans
    BitVec.and_allOnes
  cnf3 hk := (h.reg_stored_one hs hk (by omega) (a := CNF3) rfl (by decide) (by decide +kernel)).trans
    (packCNF3_and_wmask hc)
  filters0 hk i hi := by
    have hlast : ∀ i : Fin 12, LastStored 5 (RXF0SIDH + i) := by decide +kernel
    exact h.reg_cleared hs hk (by omega) rfl hi (by decide) (hlast ⟨i, hi⟩)
  filters3 hk i hi := by
    have hlast : ∀ i : Fin 12, LastStored 6 (RXF3SIDH + i) := by decide +kernel
    exact h.reg_cleared hs hk (by omega) rfl hi (by decide) (hlast ⟨i, hi⟩)
  masks hk i hi := by
    have hlast : ∀ i : Fin 8, LastStored 7 (RXM0SIDH + i) := by decide +kernel
    exact h.reg_cleared hs hk (by omega) rfl hi (by decide) (hlast ⟨i, hi⟩)
  txBuffers n hn hk i h1 hi := by
    have hlast : ∀ (n : Fin 3) (i : Fin 13), 1 ≤ i.val → LastStored (8 + n) (txb n + i) := by decide +kernel
    exact h.reg_cleared hs hk (by omega) (constructionCommand_txb c hn) hi (by unfold txb; omega)
      (hlast ⟨n, hn⟩ ⟨i, hi⟩ h1)
  canInte hk := h.reg_stored_one hs hk (by omega) (a := CANINTE) rfl (by decide) (by decide +kernel)
  bfpctrl hk := h.reg_stored_one hs hk (by omega) (a := BFPCTRL) rfl (by decide) (by decide +kernel)
  txrtsctrl hk := by
    have hspared : SparedFrom 16 19 TXRTSCTRL := by decide +kernel
    have hlt : TXRTSCTRL + 1 ≤ 0x80 := by decide
    rw [h.reg_of_sparedFrom hs (by decide) (.inr canKeeps_pinModes) hspared hk (.inr rfl) le_rfl,
      State.reg_built_write_and hs (i := 15) (a := TXRTSCTRL) (q := 0) rfl (by omega) (by omega) Nat.one_pos hlt
        (by decide) (by decide)]
    exact BitVec.and_assoc _ _ _
  rxMode n hn hk := h.rxMode hs hn hk

end

section
variable {s : State} {c : ControllerConfig}

/-- A construction whose 19 exchanges complete (R190, R197). -/
theorem exec_ctor_completes (hs : s.standard) (hu : s.status = .unconstructed) (hc : configFault c = none)
    (hx : s.completesFirst 19) :
    exec (.ctor c) s = .next ((s.built c 19).ctorEnded (.returned .unit)) := by
  have hs' : (s.callBegun (.ctor c)).standard := hs.of_chip (by simp)
  rw [exec_call_of (i := .ctor c) rfl (callRefused_ctor c hu), hs, (ctorProg_sends hs' hc).run_completes hs'.distinct
    (constructionCommands_admitted c) (hx.callBegun (.ctor c))]
  rfl

/-- A construction that fails at its exchange number k, with the command d (R195, R271). -/
theorem exec_ctor_fails (hs : s.standard) (hu : s.status = .unconstructed) (hc : configFault c = none) {k : Nat}
    (hx : s.completesFirst k) {x : XferSlot} (hk : s.sched[k]? = some x) (hfail : x.ending ≠ .completes) {d : Command}
    (hd : (constructionCommands c)[k]? = some d) :
    exec (.ctor c) s =
      .next (((s.built c k).afterFailure d).ctorEnded (.raised (.transport d.kind d.address?))) := by
  have hs' : (s.callBegun (.ctor c)).standard := hs.of_chip (by simp)
  rw [exec_call_of (i := .ctor c) rfl (callRefused_ctor c hu), hs, (ctorProg_sends hs' hc).run_fails hs'.distinct
    (constructionCommands_admitted c) hd (hx.callBegun (.ctor c)) (by rwa [State.callBegun_sched]) hfail]
  rfl

theorem endsAfter_ctorEnded_built (s : State) (c : ControllerConfig) (r : Result) :
    EndsAfter s c 19 ((s.built c 19).ctorEnded r) where
  le := le_rfl
  reg _ _ _ _ _ := by rw [State.reg_ctorEnded]

theorem endsAfter_ctorEnded_afterFailure (hs : s.standard) {k : Nat} {d : Command}
    (hd : (constructionCommands c)[k]? = some d) (r : Result) :
    EndsAfter s c k (((s.built c k).afterFailure d).ctorEnded r) where
  le := Nat.le_of_lt (lt_of_constructionCommand hd)
  reg _ _ hb hk hspared := (hk.built k).reg_afterFailure (State.built_standard hs k) hb (hspared d hd)

end

/-- RXM is among RXBnCTRL's writable bits (R50). -/
theorem rxm_of_rxMode {t : State} {n : Nat} (hn : n < 2) {filters : Bool}
    (h : t.reg (rxb n) &&& Chip.standard.wmask (rxb n) = if filters then 0x00 else 0x60) :
    t.reg (rxb n) &&& 0x60 = if filters then 0x00 else 0x60 := by
  have hmask : Chip.standard.wmask (rxb n) &&& 0x60 = 0x60 := by
    interval_cases n <;> decide
  have hand : t.reg (rxb n) &&& 0x60 = (if filters then 0x00 else 0x60) &&& 0x60 := by
    rw [← h, BitVec.and_assoc, hmask]
  rw [hand]
  cases filters <;> rfl

/-! ## The registers of R197 after the last transaction -/

/-- D7 of a transmit buffer is drawn by the RESET and no transaction of the construction stores to it (R191). -/
theorem resetValue_txbD7 {n : Nat} (hn : n < 3) (d : Byte) : Chip.standard.resetValue (txb n + 13) d = d := by
  have hinfo : (Chip.standard.info (txb n + 13)).drawn = 0xFF ∧ (Chip.standard.info (txb n + 13)).fixed = 0 := by
    interval_cases n <;> exact ⟨rfl, rfl⟩
  have hand : d &&& 0xFF#8 = d := BitVec.and_allOnes
  simp [Chip.resetValue, hinfo, hand]

section
variable {s : State} (hs : s.standard) (c : ControllerConfig)
include hs

/-- The last transaction requests Normal in the CANCTRL that the RESET left. -/
theorem State.reg_canctrl_built : (s.built c 19).reg CANCTRL = 0x07 := by
  have hspared : SparedFrom 1 18 CANCTRL := by decide +kernel
  have hbefore : (s.built c 18).beforeXfer.reg CANCTRL = (s.built c 1).reg CANCTRL :=
    State.reg_built_beforeXfer_whole hs (by decide) (s.keeps_hostOnly (by decide) rfl _) hspared (by decide) (by decide)
  rw [State.reg_built_bitmod hs (i := 18) (a := CANCTRL) (m := 0xE0) (v := 0x00) rfl (by decide) (by decide)
    (by decide) rfl, hbefore, State.reg_built_one_fixed hs (by decide) rfl]
  decide

variable (hq : s.canQuiet)
include hq

/-- Where the schedule is quiet, a WRITE of zeros, the first after the RESET to store to a register that RESET
clears, leaves it clear. -/
theorem State.reg_built_cleared {i b n : Nat} (hn : 0 < n)
    (hd : (constructionCommands c)[i]? = some (.write (addressByte b) (zeros n))) (h1 : 1 ≤ i) (h18 : i ≤ 18)
    (hb : b + n ≤ 0x80) (hm : b % 16 < 14) (hspared : SparedFrom 1 i b) (hdrawn : (Chip.standard.info b).drawn = 0)
    (hfixed : (Chip.standard.info b).fixed = 0) : (s.built c (i + 1)).reg b = 0x00 := by
  have hwrite := State.reg_built_write hs (q := 0) hd h1 h18 (by simpa [zeros] using hn) (by simpa [zeros] using hb) hm
  simp only [Nat.add_zero] at hwrite
  rw [hwrite, State.reg_built_beforeXfer_whole hs (by omega) (.inl hq) hspared h1 (by omega),
    State.reg_built_one_fixed hs (by omega) hdrawn, hfixed]
  simp [zeros, maskedWrite]

theorem State.reg_txbCtrl_built {n : Nat} (hn : n < 3) : (s.built c (8 + n + 1)).reg (txb n) = 0x00 := by
  obtain ⟨hbefore, -, -⟩ := sparedFrom_txb ⟨n, hn⟩
  have hinfo : (Chip.standard.info (txb n)).drawn = 0 ∧ (Chip.standard.info (txb n)).fixed = 0 := by
    interval_cases n <;> exact ⟨rfl, rfl⟩
  exact State.reg_built_cleared hs c hq (by decide) (constructionCommand_txb c hn) (by omega) (by omega)
    (by unfold txb; omega) (by unfold txb; omega) hbefore hinfo.1 hinfo.2

theorem State.reg_rxbCtrl_built {n : Nat} (hn : n < 2) :
    (s.built c (16 + n + 1)).reg (rxb n) = if c.filtersEnabled then 0x00 else 0x60 := by
  obtain ⟨hfirst, hbefore, -⟩ := sparedFrom_rxb ⟨n, hn⟩
  have hlt := rxb_lt hn
  obtain ⟨hdrawn, hfixed, hcap⟩ : (Chip.standard.info (rxb n)).drawn = 0 ∧
      (Chip.standard.info (rxb n)).fixed = 0 ∧ Chip.standard.bitmodCapable (rxb n) = true := by
    interval_cases n <;> exact ⟨rfl, rfl, rfl⟩
  have hclear : (s.built c (11 + n + 1)).reg (rxb n) = 0x00 :=
    State.reg_built_cleared hs c hq (by decide) (constructionCommand_rxb c hn) (by omega) (by omega) hlt
      (by unfold rxb; omega) hfirst hdrawn hfixed
  rw [State.reg_built_bitmod hs (constructionCommand_rxMode c hn) (by omega) (by omega) hlt hcap,
    State.reg_built_beforeXfer_whole hs hlt (.inl hq) hbefore (by omega) (by omega), hclear]
  interval_cases n <;> cases c.filtersEnabled <;> decide

end

/-- Settles O41: the operation sends its 19 commands, which encode to these bytes. -/
theorem constructionIssuesItsTransactionsInOrder : Obligations.ConstructionIssuesItsTransactionsInOrder := by
  unfold Obligations.ConstructionIssuesItsTransactionsInOrder
  intro s t c hs hu hx hc ht
  rw [exec_ctor_completes hs hu hc (hx.completesFirst 19)] at ht
  obtain rfl := Host.Outcome.next.inj ht
  rw [State.ctorEnded_bus, State.built_mosi, hs]
  rfl

/-- Settles O43: the operation ends with the exchange that fails; what the completed ones wrote and what RESET left is
spared by the failed one. -/
theorem constructionFailsWithTheFirstExchange : Obligations.ConstructionFailsWithTheFirstExchange := by
  unfold Obligations.ConstructionFailsWithTheFirstExchange
  rintro s c k hs hu hc hk hx ⟨x, hslot, hfail⟩
  obtain ⟨d, hd⟩ := exists_constructionCommand c hk
  have hends := endsAfter_ctorEnded_afterFailure hs hd (.raised (.transport d.kind d.address?))
  have hw := hends.wrote hs hc
  refine ⟨_, d, hd, exec_ctor_fails hs hu hc hx hslot hfail hd, rfl, rfl, ?_, by simp, by simp, by simp,
    by simp, ?_, hw.cnf1, hw.cnf2, hw.cnf3, hw.filters0, hw.filters3, hw.masks, hw.txBuffers, hw.canInte,
    hw.bfpctrl, hw.txrtsctrl, fun n hn hkn => ?_, fun h1 h2 => ?_, fun h1 h2 => ?_⟩
  · rw [State.ctorEnded_bus, State.afterFailure_bus, List.map_append, State.built_mosi, State.built_chip, hs,
      List.take_add_one, hd, List.map_append]
    rfl
  · simp [State.built_sched (Nat.le_of_lt hk)]
  · exact rxm_of_rxMode hn (hw.rxMode n hn hkn)
  · have hspared : SparedFrom 1 13 CANINTE := by decide +kernel
    exact hends.reg_reset hs (by decide) (s.keeps_hostOnly (by decide) rfl _) hspared h1 (.inl h2) (by decide) rfl
  · have hspared : SparedFrom 1 18 CANCTRL := by decide +kernel
    exact hends.reg_reset hs (by decide) (s.keeps_hostOnly (by decide) rfl _) hspared h1 (.inl h2) (by decide) rfl

/-- Settles O40: the registers the operation's 19 transactions wrote, and where the schedule is quiet all that R197
lists. -/
theorem constructionReachesItsEndState : Obligations.ConstructionReachesItsEndState := by
  unfold Obligations.ConstructionReachesItsEndState
  intro s c hs hu hx hc
  have hends := endsAfter_ctorEnded_built s c (.returned .unit)
  have hw := hends.wrote hs hc
  have hctrl : ((s.built c 19).ctorEnded (.returned .unit)).reg CANCTRL = 0x07 := by
    rw [State.reg_ctorEnded, State.reg_canctrl_built hs c]
  have hbus : ((s.built c 19).ctorEnded (.returned .unit)).bus.length = 19 := by
    rw [State.ctorEnded_bus, State.length_built_bus le_rfl]
  have hstd : ((s.built c 19).ctorEnded (.returned .unit)).standard := hs.of_chip (by simp)
  refine ⟨_, exec_ctor_completes hs hu hc (hx.completesFirst 19), rfl, by simp, by simp, by simp, by simp,
    by rw [State.ctorEnded_sched, State.built_sched le_rfl], rfl, hbus, hw.cnf1 (by decide), hw.cnf2 (by decide),
    hw.cnf3 (by decide), fun i hi => ⟨hw.filters0 (by decide) i hi, hw.filters3 (by decide) i hi⟩,
    hw.masks (by decide), fun n i hn h1 hi => hw.txBuffers n hn (by omega) i h1 hi, hw.canInte (by decide),
    hw.bfpctrl (by decide), hw.txrtsctrl (by decide), hctrl, ?_,
    hw.rxMode 0 (by decide) (by decide), hw.rxMode 1 (by decide) (by decide), fun hq => ?_⟩
  · rw [State.reqop_eq hstd, hctrl]
    decide
  have hlast {b i : Nat} (hb : b < 0x80) (hspared : SparedFrom i 19 b) (hi : i ≤ 19) :
      ((s.built c 19).ctorEnded (.returned .unit)).reg b = (s.built c i).reg b :=
    hends.reg_eq_built hs hb (.inl hq) hspared hi (.inr rfl) le_rfl
  refine ⟨?_, ?_, fun n hn => ?_, fun n hn => ?_, fun n hn => ?_⟩
  · have hspared : SparedFrom 1 19 CANSTAT := by decide +kernel
    rw [State.opmod_eq hstd, hends.reg_reset hs (by decide) (.inl hq) hspared (by decide) (.inr rfl) le_rfl rfl]
    decide
  · have hspared : SparedFrom 1 19 CANINTF := by decide +kernel
    exact hends.reg_reset hs (by decide) (.inl hq) hspared (by decide) (.inr rfl) le_rfl rfl
  · obtain ⟨-, hafter, -⟩ := sparedFrom_txb ⟨n, hn⟩
    rw [hlast (txb_lt hn) hafter (by omega), State.reg_txbCtrl_built hs c hq hn]
  · obtain ⟨-, -, hafter⟩ := sparedFrom_rxb ⟨n, hn⟩
    rw [hlast (rxb_lt hn) hafter (by omega), State.reg_rxbCtrl_built hs c hq hn]
  · obtain ⟨-, -, hspared⟩ := sparedFrom_txb ⟨n, hn⟩
    have hlt : txb n + 13 < 0x80 := by
      unfold txb
      omega
    obtain ⟨d, hd⟩ := State.reg_built_one (c := c) hs hlt
    exact ⟨d, by rw [hlast hlt hspared (by omega), hd, resetValue_txbD7 hn]⟩

end Sys2Proof.Machine
end

section
/-! PROOFS. The frame codec (42_frame_codec.md: R210 to R217, R220, R221, R231 to R235; R56): the identifier layouts,
the checks made before any bus access, a receive buffer decoded while CANSIDE acts, the poll, and a frame laid out in its
transmit buffer. -/

namespace Sys2Proof.Machine

/-! ## Identifiers (R114, R115, R210, R214, R235) -/

theorem toNat_lt_of_le_SFF_MASK {id : IdentWord} (h : id ≤ SFF_MASK) : id.toNat < 2 ^ 11 := by
  have hle : id.toNat ≤ 0x7FF := by simpa using BitVec.le_def.1 h
  omega

theorem toNat_lt_of_le_EFF_MASK {id : IdentWord} (h : id ≤ EFF_MASK) : id.toNat < 2 ^ 29 := by
  have hle : id.toNat ≤ 0x1FFFFFFF := by simpa using BitVec.le_def.1 h
  omega

theorem getElem_of_lt_two_pow {id : IdentWord} {k : Nat} (h : id.toNat < 2 ^ k) {i : Nat} (hi : i < 32) (hk : k ≤ i) :
    id[i] = false := by
  rw [← BitVec.getLsbD_eq_getElem]
  exact Nat.testBit_lt_two_pow (h.trans_le (Nat.pow_le_pow_right (by omega) hk))

/-- SIDL of a standard identifier carries the low three bits in 7:5 alone, so the extended-identifier flag is clear. -/
theorem ide_encodeStdId (id : IdentWord) : (encodeStdId id).2 &&& (1#8 <<< 3) = 0 := by
  rw [and_bit_eq_zero _ (by omega)]
  simp [encodeStdId]

/-- SIDL's bits 7:5 are bits 2:0 of the base identifier and SIDH is its bits 10:3 (R114). -/
theorem getElem_baseId (sidh sidl : Byte) {i : Nat} (hi : i < 32) :
    (baseId sidh sidl)[i] = if i < 3 then sidl.getLsbD (5 + i) else sidh.getLsbD (i - 3) := by
  unfold baseId
  by_cases h : i < 3
  · simp [h]
    omega
  · have hdead : sidl.getLsbD (5 + i) = false := BitVec.getLsbD_of_ge _ _ (by omega)
    simp [h, hdead]

theorem baseId_encodeStdId {id : IdentWord} (h : id ≤ SFF_MASK) :
    baseId (encodeStdId id).1 (encodeStdId id).2 = id := by
  ext i hi
  have hzero := getElem_of_lt_two_pow (toNat_lt_of_le_SFF_MASK h) hi
  rw [getElem_baseId]
  unfold encodeStdId
  by_cases h3 : i < 3
  · simp [h3]
    grind
  · simp [h3]
    grind

/-- SIDL of an extended identifier (R115): id[17:16] in bits 1:0, the extended-identifier flag alone in bits 4:2, and
id[20:18] in bits 7:5. -/
theorem getElem_extendedSidl (id : IdentWord) {i : Nat} (hi : i < 8) :
    (id.extractLsb' 18 3 ++ 0b010#3 ++ id.extractLsb' 16 2 : Byte)[i] =
      if i < 2 then id[16 + i] else if i < 5 then decide (i = 3) else id[13 + i] := by
  have hupper {j : Nat} (hj : j < 6) : (id.extractLsb' 18 3 ++ 0b010#3 : BitVec 6)[j] =
      if h : j < 3 then (0b010#3)[j] else (id.extractLsb' 18 3)[j - 3] := BitVec.getElem_append hj
  refine (BitVec.getElem_append (x := id.extractLsb' 18 3 ++ 0b010#3) (y := id.extractLsb' 16 2) hi).trans ?_
  interval_cases i <;> simp [hupper]

theorem storeExtId_eq_append (id : IdentWord) : storeExtId 3 id =
    (id.extractLsb' 21 8, id.extractLsb' 18 3 ++ 0b010#3 ++ id.extractLsb' 16 2, id.extractLsb' 8 8,
      id.extractLsb' 0 8) := by
  unfold storeExtId
  refine Prod.ext ?_ (Prod.ext ?_ (Prod.ext ?_ ?_))
  · ext i hi; simp
  · ext i hi
    rw [getElem_extendedSidl]
    interval_cases i <;> simp
  · ext i hi; simp
  · ext i hi; simp

/-- SIDL holds its part of the extended identifier id, with the extended-identifier flag set; bits 4 and 2 are free
(R210). -/
structure HoldsExtended (id : IdentWord) (sidl : Byte) : Prop where
  ide  : sidl[3] = true
  low  : sidl[0] = id[16] ∧ sidl[1] = id[17]
  high : sidl[5] = id[18] ∧ sidl[6] = id[19] ∧ sidl[7] = id[20]

theorem holdsExtended (id : IdentWord) :
    HoldsExtended id (id.extractLsb' 18 3 ++ 0b010#3 ++ id.extractLsb' 16 2 : Byte) := by
  constructor <;> simp [getElem_extendedSidl]

/-- The bits above the two extension bytes (R210). -/
theorem HoldsExtended.upper {id : IdentWord} {sidl : Byte} (h : HoldsExtended id sidl) (hid : id.toNat < 2 ^ 29)
    {j : Nat} (hj : j < 16) :
    ((baseId (id.extractLsb' 21 8) sidl <<< 2) ||| (sidl &&& 0x03).setWidth 32)[j] = id[16 + j] := by
  have hzero : id[29] = false ∧ id[30] = false ∧ id[31] = false :=
    ⟨getElem_of_lt_two_pow hid _ le_rfl, getElem_of_lt_two_pow hid _ (by omega), getElem_of_lt_two_pow hid _ (by omega)⟩
  obtain ⟨-, hlow, hhigh⟩ := h
  interval_cases j <;> simp [getElem_baseId, hlow, hhigh, hzero]

theorem HoldsExtended.decodeIdent_eq {id : IdentWord} {sidl : Byte} (h : HoldsExtended id sidl)
    (hid : id.toNat < 2 ^ 29) :
    decodeIdent 3 (id.extractLsb' 21 8) sidl (id.extractLsb' 8 8) (id.extractLsb' 0 8) = id ||| EFF_FLAG := by
  unfold decodeIdent
  rw [if_pos ((and_bit_bne_zero sidl (by omega)).trans h.ide)]
  refine congrArg (· ||| EFF_FLAG) ?_
  ext i hi
  rw [BitVec.getElem_or, BitVec.getElem_or, BitVec.getElem_shiftLeft, BitVec.getElem_shiftLeft]
  by_cases h16 : i < 16
  · simp [h16]
    grind
  · rw [h.upper hid (by omega)]
    simp [h16]
    grind

/-- Settles O25: both layouts bit by bit. -/
theorem identifierRoundTrips : Obligations.IdentifierRoundTrips := by
  unfold Obligations.IdentifierRoundTrips
  refine ⟨fun id eid8 eid0 hid => ⟨?_, ?_⟩, fun id hid => ⟨storeExtId_eq_append id, ?_⟩⟩
  · rw [decodeIdent, if_neg (by simpa using ide_encodeStdId id), baseId_encodeStdId hid]
  · rw [show EFF_FLAG = BitVec.twoPow 32 31 from rfl, BitVec.and_twoPow, BitVec.getLsbD_eq_getElem (by omega),
      getElem_of_lt_two_pow (toNat_lt_of_le_SFF_MASK hid) _ (by omega)]
    rfl
  · exact (holdsExtended id).decodeIdent_eq (toNat_lt_of_le_EFF_MASK hid)

/-! ## Checks before any bus access (R217, R231, R232) -/

/-- Settles O29: the index is checked before any bus access. -/
theorem readFrameChecksIndexBeforeBus : Obligations.ReadFrameChecksIndexBeforeBus := by
  unfold Obligations.ReadFrameChecksIndexBeforeBus
  intro s n hs hn
  have hprog : readFrameProg s.chip n = .raise (.argument .bufferNumber) := if_neg (by omega)
  rw [exec_call_of (i := .readFrame n) rfl (callRefused_ready rfl hs), hprog, Prog.run_raise]
  rfl

/-- Settles O36: validation raises before any bus access. -/
theorem writeFrameRejectsBeforeBus : Obligations.WriteFrameRejectsBeforeBus := by
  unfold Obligations.WriteFrameRejectsBeforeBus
  intro s f n e hs hf
  have hprog : writeFrameProg s.chip f n = .raise e := by simp [writeFrameProg, hf]
  rw [exec_call_of (i := .writeFrame f n) rfl (callRefused_ready rfl hs), hprog, Prog.run_raise]
  rfl

/-- R231's checks by what each requires, with R116's masks as numbers. -/
theorem frameFault_eq (f : Frame) (n : Nat) : frameFault f n =
    if ¬n < 3 then some (.argument .bufferIndex)
    else if ¬(f.payloadLength ≤ 8 ∧ f.payload.length = f.payloadLength) then some (.argument .payloadLength)
    else if ¬f.ident &&& 0x20000000#32 = 0 then some (.argument .ident)
    else if ¬f.ident &&& 0xC0000000#32 = 0 then some .unsupported
    else if ¬f.ident ≤ 0x7FF#32 then some (.argument .ident)
    else none := by
  have hlength : (8 < f.payloadLength ∨ f.payload.length ≠ f.payloadLength) ↔
      ¬(f.payloadLength ≤ 8 ∧ f.payload.length = f.payloadLength) := by omega
  unfold frameFault
  simp only [hlength, BitVec.not_le]
  rfl

/-- Settles O26: each clause is the chain of checks read at one of its outcomes. -/
theorem frameValidationReportsFirstFault : Obligations.FrameValidationReportsFirstFault := by
  unfold Obligations.FrameValidationReportsFirstFault
  intro f n ok1 ok2 ok3 ok4 ok5
  refine ⟨?_, ?_, ?_, ?_, ?_, fun s e hs hf => ⟨_, writeFrameRejectsBeforeBus s f n e hs hf, rfl, rfl, rfl⟩⟩
  all_goals
    simp only [frameFault_eq, ite_eq_iff, not_not, Option.some.injEq, HostError.argument.injEq, reduceCtorEq, and_true,
      and_false, or_false, false_or]
    exact Iff.rfl

/-! ## What a run of completed transactions leaves -/

@[simp] theorem State.afterXfers_status (s : State) (cs : List Command) : (s.afterXfers cs).status = s.status := by
  induction cs generalizing s with
  | nil => rfl
  | cons c cs ih => simp [State.afterXfers, ih]

/-- Transactions that spare register b leave its bits m, where CANSIDE does too. -/
theorem State.Keeps.reg_afterXfers {s : State} {b : Nat} {m : Byte} (h : s.Keeps b m) (hs : s.standard) (hb : b < 0x80)
    {cs : List Command} (hc : ∀ c ∈ cs, Spares b (commandTargets c)) :
    (s.afterXfers cs).reg b &&& m = s.reg b &&& m := by
  induction cs generalizing s with
  | nil => rfl
  | cons c cs ih =>
    obtain ⟨hc, hcs⟩ := List.forall_mem_cons.1 hc
    have hk : (s.afterXfer c).Keeps b m := h.of_sched (k := 1) (by simp)
    rw [State.afterXfers, ih hk (hs.of_chip (by simp)) hcs, h.reg_afterXfer hs hb hc]

/-- A BITMOD of a register that honours the mask and is never protected (R88). -/
theorem State.reg_bitmodReg_unprotected {s : State} (hs : s.standard) {a : Nat} (ha : a < 0x80)
    (hp : Chip.standard.configProtected a = false) (hcap : Chip.standard.bitmodCapable a = true) (m v : Byte) :
    (s.bitmodReg a m v).reg a =
      (s.reg a &&& ~~~(m &&& Chip.standard.wmask a)) ||| (v &&& m &&& Chip.standard.wmask a) := by
  have hun : s.protectedNow a = false := State.protectedNow_eq_false_iff.2 (.inl (by rw [hs, hp]))
  rw [State.bitmodReg, s.reg_storeReg _ _ ha, if_pos rfl, storedValue_unprotected _ hun, hs, hcap,
    maskedWrite_bitmodValue_capable]

/-! ## A receive buffer that keeps its frame (R56) -/

/-- Receive buffer n keeps its registers whatever the schedule holds: it is full, or CANSIDE is quiet. -/
def State.HoldsFrame (s : State) (n : Nat) : Prop := s.rxFlag n = true ∨ s.canQuiet

section
variable {s : State} {n : Nat}

theorem State.rxFlag_beforeXfer (hs : s.standard) (h : s.rxFlag n = true) : s.beforeXfer.rxFlag n = true :=
  State.rxFlag_canSteps (s := s.slotTaken) hs h _

/-- A transaction that does not store to CANINTF leaves a full buffer full. -/
theorem State.rxFlag_afterXfer (hs : s.standard) (h : s.beforeXfer.rxFlag n = true) {c : Command}
    (hc : Spares CANINTF (commandTargets c)) : (s.afterXfer c).rxFlag n = true := by
  have hkept : (s.afterXfer c).reg CANINTF = s.beforeXfer.reg CANINTF :=
    State.reg_engineEffect_of_spares (s := s.beforeXfer) (hs.of_chip (by simp)) (by decide) hc
  exact State.rxFlag_of_kept (s := s.beforeXfer) (hs.of_chip (by simp)) (hs.of_chip (by simp))
    (hkept ▸ bitsKept_refl _) h

theorem State.HoldsFrame.afterXfer (h : s.HoldsFrame n) (hs : s.standard) {c : Command}
    (hc : Spares CANINTF (commandTargets c)) : (s.afterXfer c).HoldsFrame n :=
  h.imp (fun hf => State.rxFlag_afterXfer hs (State.rxFlag_beforeXfer hs hf) hc) (State.canQuiet_afterXfer · c)

end

/-! ## The frame two states show -/

/-- The buffer registers of s and t read the same. -/
def SameBuffer (n : Nat) (s t : State) : Prop := ∀ k, k < 14 → t.reg (rxb n + k) = s.reg (rxb n + k)

section
variable {s t u : State} {n : Nat}

theorem SameBuffer.trans (h : SameBuffer n s t) (h' : SameBuffer n t u) : SameBuffer n s u :=
  fun k hk => (h' k hk).trans (h k hk)

theorem State.HoldsFrame.sameBuffer_beforeXfer (h : s.HoldsFrame n) (hs : s.standard) (hn : n < 2) :
    SameBuffer n s s.beforeXfer := fun k hk => by
  rcases h with hf | hq
  · exact State.reg_canSteps_locked (s := s.slotTaken) hs hn hf _ hk
  · exact State.reg_beforeXfer_quiet hq _

theorem State.HoldsFrame.sameBuffer_afterXfer (h : s.HoldsFrame n) (hs : s.standard) (hn : n < 2) {c : Command}
    (hc : ∀ k, k < 14 → Spares (rxb n + k) (commandTargets c)) : SameBuffer n s (s.afterXfer c) := fun k hk => by
  rw [State.reg_afterXfer, State.reg_engineEffect_of_spares (hs.of_chip (by simp)) (rxb_add_lt hn hk) (hc k hk),
    h.sameBuffer_beforeXfer hs hn k hk]

/-- The transactions store to no register (R87): READs and RDSTATUS. -/
def OnlyQuery (cs : List Command) : Prop := ∀ c ∈ cs, commandTargets c = []

theorem engineEffect_of_query {c : Command} (h : commandTargets c = []) (s : State) : s.engineEffect c = s := by
  cases c with
  | read | rdstatus => rfl
  | reset => cases h
  | bitmod => cases h
  | write a ds =>
    cases ds with
    | nil => rfl
    | cons d ds => simp [commandTargets] at h

theorem spares_of_query {c : Command} (h : commandTargets c = []) (b : Nat) : Spares b (commandTargets c) := by
  rw [h]
  exact fun _ ha => by cases ha

/-- Across queries a buffer that keeps its frame keeps it, and keeps it from then on. -/
theorem State.HoldsFrame.afterQueries (h : s.HoldsFrame n) (hs : s.standard) (hn : n < 2) {cs : List Command}
    (hc : OnlyQuery cs) : (s.afterXfers cs).HoldsFrame n ∧ SameBuffer n s (s.afterXfers cs) := by
  induction cs generalizing s with
  | nil => exact ⟨h, fun _ _ => rfl⟩
  | cons c cs ih =>
    obtain ⟨hc, hcs⟩ := List.forall_mem_cons.1 hc
    obtain ⟨hlast, hsame⟩ := ih (h.afterXfer hs (spares_of_query hc _)) (hs.of_chip (by simp)) hcs
    exact ⟨hlast, (h.sameBuffer_afterXfer hs hn fun _ _ => spares_of_query hc _).trans hsame⟩

theorem State.rxFlag_afterQueries (hs : s.standard) (h : s.rxFlag n = true) {cs : List Command} (hc : OnlyQuery cs) :
    (s.afterXfers cs).rxFlag n = true := by
  induction cs generalizing s with
  | nil => exact h
  | cons c cs ih =>
    obtain ⟨hc, hcs⟩ := List.forall_mem_cons.1 hc
    exact ih (hs.of_chip (by simp))
      (State.rxFlag_afterXfer hs (State.rxFlag_beforeXfer hs h) (spares_of_query hc _)) hcs

theorem State.regs_afterQueries (h : s.canQuiet) {cs : List Command} (hc : OnlyQuery cs) :
    (s.afterXfers cs).regs = s.regs := by
  induction cs generalizing s with
  | nil => rfl
  | cons c cs ih =>
    obtain ⟨hc, hcs⟩ := List.forall_mem_cons.1 hc
    have heffect : s.beforeXfer.engineEffect c = s.beforeXfer := engineEffect_of_query hc _
    rw [State.afterXfers, ih (State.canQuiet_afterXfer h c) hcs, State.afterXfer_regs, heffect,
      State.beforeXfer_regs_quiet h]

/-- So the next transaction meets the buffer as it was. -/
theorem State.HoldsFrame.sameBuffer_afterQueries (h : s.HoldsFrame n) (hs : s.standard) (hn : n < 2) {cs : List Command}
    (hc : OnlyQuery cs) : SameBuffer n s (s.afterXfers cs).beforeXfer :=
  have ⟨hlast, hsame⟩ := h.afterQueries hs hn hc
  hsame.trans (hlast.sameBuffer_beforeXfer (hs.of_chip (by simp)) hn)

/-- The identifier that readFrame(n) decodes from what its first READ met in s and its second in t (R210, R211). -/
def identRead (n : Nat) (s t : State) : IdentWord :=
  tagRtr 3 (t.readReg (rxb n)) (decodeIdent 3 (s.readReg (rxb n + 1)) (s.readReg (rxb n + 2)) (s.readReg (rxb n + 3))
    (s.readReg (rxb n + 4)))

theorem State.rxDlc_eq (hs : s.standard) (hn : n < 2) : s.rxDlc n = dlcOf 0 (s.readReg (rxb n + 5)) := by
  unfold State.rxDlc
  rw [hs, rxb_standard hn]
  rfl

theorem State.frameIn_eq (hs : s.standard) (hn : n < 2) :
    s.frameIn n = ⟨identRead n s s, s.rxDlc n, s.readRegs (rxb n + 6) (s.rxDlc n)⟩ := by
  unfold State.frameIn identRead
  rw [hs, rxb_standard hn]
  rfl

variable (hc : t.chip = s.chip) (h : SameBuffer n s t)
include hc h

theorem SameBuffer.readReg {k : Nat} (hk : k < 14) : t.readReg (rxb n + k) = s.readReg (rxb n + k) := by
  unfold State.readReg
  rw [h k hk, hc]

theorem SameBuffer.rxDlc (hs : s.standard) (hn : n < 2) : t.rxDlc n = s.rxDlc n := by
  rw [State.rxDlc_eq hs hn, State.rxDlc_eq (hs.of_chip hc) hn, h.readReg hc (by omega)]

theorem SameBuffer.identRead_left (v : State) : identRead n t v = identRead n s v := by
  unfold identRead
  simp only [h.readReg hc (show 1 < 14 by omega), h.readReg hc (show 2 < 14 by omega),
    h.readReg hc (show 3 < 14 by omega), h.readReg hc (show 4 < 14 by omega)]

theorem SameBuffer.identRead_right (v : State) : identRead n v t = identRead n v s := by
  have hctrl : t.readReg (rxb n) = s.readReg (rxb n) := h.readReg hc (k := 0) (by omega)
  unfold identRead
  rw [hctrl]

/-- At most 8 data bytes lie inside the buffer. -/
theorem SameBuffer.readRegs {d : Nat} (hd : d ≤ 8) : t.readRegs (rxb n + 6) d = s.readRegs (rxb n + 6) d := by
  refine List.map_congr_left fun i hi => ?_
  have hi : i < d := List.mem_range.1 hi
  rw [Nat.add_assoc]
  exact h.readReg hc (by omega)

theorem SameBuffer.frameIn (hs : s.standard) (hn : n < 2) (hd : s.rxDlc n ≤ 8) : t.frameIn n = s.frameIn n := by
  rw [State.frameIn_eq hs hn, State.frameIn_eq (hs.of_chip hc) hn, h.rxDlc hc hs hn, h.identRead_left hc,
    h.identRead_right hc, h.readRegs hc hd]

end

/-! ## readFrame(n)'s transactions (R215) -/

/-- T1 to T4 of R215, for a frame with this DLC. -/
def readFrameCommands (n dlc : Nat) : List Command :=
  [.read (addressByte (rxb n + 1)) 5, .read (addressByte (rxb n)) 1, .read (addressByte (rxb n + 6)) dlc,
    .bitmod (addressByte CANINTF) (1#8 <<< n) 0x00]

theorem onlyQuery_readFrameCommands {n dlc : Nat} : OnlyQuery ((readFrameCommands n dlc).take 3) := by
  simp [OnlyQuery, readFrameCommands, commandTargets]

theorem onlyQuery_take_readFrameCommands {n dlc k : Nat} (hk : k ≤ 3) : OnlyQuery ((readFrameCommands n dlc).take k) :=
  fun c hc => onlyQuery_readFrameCommands c (List.take_subset_take_left _ hk hc)

theorem readFrameCommands_eq (n dlc : Nat) : readFrameCommands n dlc =
    (readFrameCommands n dlc).take 3 ++ [.bitmod (addressByte CANINTF) (1#8 <<< n) 0x00] := rfl

/-- What is left of readFrame(n) after T2, for the identifier and the DLC read. -/
def decodeRest (n : Nat) (ident : IdentWord) (dlc : Nat) : Prog :=
  if 8 < dlc then .raise (.corruptFrame n dlc)
  else
    readRegister Chip.standard (addressByte (rxb n + 6)) dlc fun payload =>
    modifyRegister Chip.standard (addressByte CANINTF) (1#8 <<< n) 0x00
      (.ret (.frame { ident := ident, payloadLength := dlc, payload := payload }))

section
variable {ends : State → Result → State} {s : State} {n : Nat} (hs : s.standard) (hx : s.busCompletes) (hn : n < 2)

theorem toNat_addressByte_rxb (hn : n < 2) {k : Nat} (hk : k < 14) :
    (addressByte (rxb n + k)).toNat = rxb n + k := by
  have := rxb_add_lt hn hk
  exact toNat_addressByte (by omega)

include hs hx hn

/-- T1 and T2, under every schedule: what they met decides what follows (R210 to R213). -/
theorem run_decodeBuffer : (decodeBuffer Chip.standard n).run ends s =
    (decodeRest n (identRead n s.beforeXfer (s.afterXfer (.read (addressByte (rxb n + 1)) 5)).beforeXfer)
      (s.beforeXfer.rxDlc n)).run ends (s.afterXfers ((readFrameCommands n (s.beforeXfer.rxDlc n)).take 2)) := by
  have h1 : (addressByte (rxb n + 1)).toNat = rxb n + 1 := toNat_addressByte_rxb hn (by omega)
  have h0 : (addressByte (rxb n)).toNat = rxb n := toNat_addressByte_rxb hn (k := 0) (by omega)
  unfold decodeBuffer
  rw [rxb_standard hn, bufferAt_SIDH, bufferAt_CTRL, bufferAt_D0,
    run_readRegister hs distinct_standard (State.busCompletes_ending hx)
      (by rw [h1]; exact registersExist_iff.2 (by unfold rxb; omega)),
    run_readRegister (hs.of_chip (by simp)) distinct_standard
      (State.busCompletes_ending (State.busCompletes_afterXfer hx _))
      (by rw [h0]; exact registersExist_iff.2 (by unfold rxb; omega))]
  simp (disch := omega) only [h1, h0, State.getD_readRegs]
  unfold clearRxFlag decodeRest
  rw [State.rxDlc_eq (hs.of_chip (by simp)) hn, rxIF_standard hn]
  rfl

/-- A DLC over 8 at T1 ends the operation after T2 (R213). -/
theorem run_decodeBuffer_corrupt (hd : 8 < s.beforeXfer.rxDlc n) : (decodeBuffer Chip.standard n).run ends s =
    .next (ends (s.afterXfers ((readFrameCommands n (s.beforeXfer.rxDlc n)).take 2))
      (.raised (.corruptFrame n (s.beforeXfer.rxDlc n)))) := by
  rw [run_decodeBuffer hs hx hn, decodeRest, if_pos hd, Prog.run_raise]

/-- A buffer that keeps its frame is decoded to it by T1 to T4, whatever CANSIDE does between them. -/
theorem run_decodeBuffer_valid (hd : s.rxDlc n ≤ 8) (hf : s.HoldsFrame n) :
    (decodeBuffer Chip.standard n).run ends s =
      .next (ends (s.afterXfers (readFrameCommands n (s.rxDlc n))) (.returned (.frame (s.frameIn n)))) := by
  have hdata : (addressByte (rxb n + 6)).toNat = rxb n + 6 := toNat_addressByte_rxb hn (by omega)
  have hx' : (s.afterXfers ((readFrameCommands n (s.rxDlc n)).take 2)).busCompletes :=
    State.busCompletes_afterXfer (State.busCompletes_afterXfer hx _) _
  have hu : SameBuffer n s s.beforeXfer := hf.sameBuffer_beforeXfer hs hn
  have hu' := (hf.sameBuffer_afterXfer hs hn (c := .read (addressByte (rxb n + 1)) 5)
    fun _ _ => spares_of_query rfl _).trans ((hf.afterXfer hs (spares_of_query rfl _)).sameBuffer_beforeXfer
      (hs.of_chip (by simp)) hn)
  have hu'' := hf.sameBuffer_afterQueries hs hn (onlyQuery_take_readFrameCommands (n := n) (dlc := s.rxDlc n) (k := 2)
    (by omega))
  rw [run_decodeBuffer hs hx hn, hu.rxDlc (by simp) hs hn, decodeRest, if_neg (by omega),
    run_readRegister (hs.of_chip (by simp)) distinct_standard (State.busCompletes_ending hx')
      (by rw [hdata]; exact registersExist_iff.2 (by unfold rxb; omega)),
    run_modifyRegister (hs.of_chip (by simp)) distinct_standard
      (State.busCompletes_ending (State.busCompletes_afterXfer hx' _)) (by decide),
    Prog.run_ret, hdata, hu.identRead_left (by simp), hu'.identRead_right (by simp), hu''.readRegs (by simp) hd,
    State.frameIn_eq hs hn]
  rfl

end

/-! ## What readFrame(n)'s transactions leave -/

section
variable {s : State} {n dlc : Nat}

/-- T1 to T3 store to no register, and T4 to CANINTF alone. -/
theorem spares_readFrameCommands {b : Nat} (hb : slotOf CANINTF ≠ slotOf b) :
    ∀ c ∈ readFrameCommands n dlc, Spares b (commandTargets c) := by
  rw [readFrameCommands_eq]
  refine List.forall_mem_append.2 ⟨fun c hc => ?_, List.forall_mem_singleton.2 (List.forall_mem_singleton.2 hb)⟩
  exact spares_of_query (onlyQuery_readFrameCommands c hc) b

theorem mosi_readFrameCommands (n dlc : Nat) : (readFrameCommands n dlc).map (encodeCommand Chip.standard.commands) =
    [[0x03, BitVec.ofNat 8 (rxb n + 1), 0, 0, 0, 0, 0], [0x03, BitVec.ofNat 8 (rxb n), 0],
      0x03 :: BitVec.ofNat 8 (rxb n + 6) :: List.replicate dlc 0x00, [0x05, 0x2C, 1#8 <<< n, 0x00]] := rfl

theorem State.afterXfers_readFrame : s.afterXfers (readFrameCommands n dlc) =
    (s.afterXfers ((readFrameCommands n dlc).take 3)).afterXfer (.bitmod (addressByte CANINTF) (1#8 <<< n) 0x00) := rfl

variable (hs : s.standard)
include hs

/-- T4 clears RXnIF alone, in the CANINTF it meets (R216). -/
theorem State.reg_canintf_readFrame : (s.afterXfers (readFrameCommands n dlc)).reg CANINTF =
    (s.afterXfers ((readFrameCommands n dlc).take 3)).beforeXfer.reg CANINTF &&& ~~~(1#8 <<< n) := by
  have hu : (s.afterXfers ((readFrameCommands n dlc).take 3)).beforeXfer.standard := hs.of_chip (by simp)
  have hmask : ~~~((1#8 <<< n) &&& Chip.standard.wmask CANINTF) = ~~~(1#8 <<< n) :=
    congrArg (~~~·) BitVec.and_allOnes
  rw [State.afterXfers_readFrame, State.reg_afterXfer, State.engineEffect, toNat_addressByte (by decide),
    State.reg_bitmodReg_unprotected hu (by decide) (by decide) (by decide), hmask]
  simp

theorem State.reg_canintf_readFrame_quiet (hq : s.canQuiet) :
    (s.afterXfers (readFrameCommands n dlc)).reg CANINTF = s.reg CANINTF &&& ~~~(1#8 <<< n) := by
  have hregs : (s.afterXfers ((readFrameCommands n dlc).take 3)).regs = s.regs :=
    State.regs_afterQueries hq onlyQuery_readFrameCommands
  have hq' : (s.afterXfers ((readFrameCommands n dlc).take 3)).canQuiet :=
    State.canQuiet_of_sched hq (k := 3) (by simp [readFrameCommands])
  rw [State.reg_canintf_readFrame hs, State.reg_beforeXfer_quiet hq', State.reg_of_regs (by simp) hregs]

theorem sameRegsExcept_readFrame_quiet (hq : s.canQuiet) :
    sameRegsExcept [CANINTF] s (s.afterXfers (readFrameCommands n dlc)) := by
  intro b hb hfar
  rw [hs, List.forall_mem_singleton] at hfar
  have hkeep : s.Keeps b 0xFF := .inl hq
  exact eq_of_and_allOnes (hkeep.reg_afterXfers hs hb (spares_readFrameCommands hfar))

theorem State.rxFlag_readFrame (hn : n < 2) : (s.afterXfers (readFrameCommands n dlc)).rxFlag n = false := by
  rw [State.rxFlag_eq (hs.of_chip (by simp)) hn, State.reg_canintf_readFrame hs, BitVec.and_assoc,
    BitVec.and_comm (~~~_)]
  simp

theorem State.HoldsFrame.sameBuffer_readFrame (h : s.HoldsFrame n) (hn : n < 2) :
    SameBuffer n s (s.afterXfers (readFrameCommands n dlc)) := by
  rw [State.afterXfers_readFrame]
  obtain ⟨hlast, hsame⟩ := h.afterQueries hs hn (onlyQuery_readFrameCommands (n := n) (dlc := dlc))
  refine hsame.trans (hlast.sameBuffer_afterXfer (hs.of_chip (by simp)) hn fun k hk => ?_)
  have hfar := State.home_rxb_ne_canintf hs hn hk
  rw [hs] at hfar
  exact List.forall_mem_singleton.2 hfar

end

/-! ## The calls (R215, R220) -/

/-- From s to the end t of its call the transactions cs were sent, each on its own slot of the schedule, and nothing of
HOST's own changed. -/
structure CallSent (s t : State) (cs : List Command) : Prop where
  sameHost : sameHost s t
  sched    : t.sched = s.sched.drop cs.length
  mosi     : t.bus.map (·.mosi) = cs.map (encodeCommand s.chip.commands)

theorem callSent_afterXfers (s : State) (cs : List Command) : CallSent s (s.clearBus.afterXfers cs) cs where
  sameHost := by simp [Machine.sameHost]
  sched := by simp
  mosi := by simp

theorem CallSent.length_bus {s t : State} {cs : List Command} (h : CallSent s t cs) : t.bus.length = cs.length := by
  simpa using congrArg List.length h.mosi

theorem exec_readFrame {s : State} {n : Nat} (hs : s.standard) (hr : s.status = .ready) (hn : n < 2) :
    exec (.readFrame n) s = (decodeBuffer Chip.standard n).run State.ended s.clearBus := by
  have hprog : readFrameProg Chip.standard n = decodeBuffer Chip.standard n := if_pos hn
  rw [exec_call_of (i := .readFrame n) rfl (callRefused_ready rfl hr), hs, hprog]
  rfl

/-- Settles O27: a buffer that keeps its frame shows it to all four transactions. -/
theorem readFrameDecodesTheBuffer : Obligations.ReadFrameDecodesTheBuffer := by
  unfold Obligations.ReadFrameDecodesTheBuffer
  intro s n hs hr hn hx hf hd
  have hs' : s.clearBus.standard := hs
  have hf' : s.clearBus.HoldsFrame n := hf
  have hrun : exec (.readFrame n) s = .next ((s.clearBus.afterXfers (readFrameCommands n (s.rxDlc n))).ended
      (.returned (.frame (s.frameIn n)))) :=
    (exec_readFrame hs hr hn).trans (run_decodeBuffer_valid hs' hx hn hd hf')
  have hsent := callSent_afterXfers s (readFrameCommands n (s.rxDlc n))
  have hflag := State.rxFlag_readFrame (dlc := s.rxDlc n) hs' hn
  have hsame := hf'.sameBuffer_readFrame (dlc := s.rxDlc n) hs' hn
  have hquiet := sameRegsExcept_readFrame_quiet (n := n) (dlc := s.rxDlc n) hs'
  have hclear := State.reg_canintf_readFrame_quiet (n := n) (dlc := s.rxDlc n) hs'
  generalize s.clearBus.afterXfers (readFrameCommands n (s.rxDlc n)) = t at *
  obtain ⟨hhost, hsched, hmosi⟩ := hsent
  rw [hs, mosi_readFrameCommands] at hmosi
  exact ⟨_, hrun, hhost, hsched, rfl, hd, State.length_readRegs _ _ _, hflag, hsame, hmosi,
    fun hq => ⟨hquiet hq, hclear hq⟩⟩

/-- Settles O28: the DLC that T1 reads ends the call after T2, and no query clears a flag. -/
theorem readFrameReportsCorruptDlc : Obligations.ReadFrameReportsCorruptDlc := by
  unfold Obligations.ReadFrameReportsCorruptDlc
  intro s n hs hr hn hx hd
  have hs' : s.clearBus.standard := hs
  have hdlc : s.clearBus.beforeXfer.rxDlc n = s.beforeXfer.rxDlc n :=
    SameBuffer.rxDlc (s := s.beforeXfer) (by simp) (fun k _ => s.reg_beforeXfer_clearBus _) (hs.of_chip (by simp)) hn
  have hquery : OnlyQuery ((readFrameCommands n (s.beforeXfer.rxDlc n)).take 2) :=
    onlyQuery_take_readFrameCommands (by omega)
  have hrun : exec (.readFrame n) s =
      .next ((s.clearBus.afterXfers ((readFrameCommands n (s.beforeXfer.rxDlc n)).take 2)).ended
        (.raised (.corruptFrame n (s.beforeXfer.rxDlc n)))) := by
    rw [exec_readFrame hs hr hn, run_decodeBuffer_corrupt hs' hx hn (by rwa [hdlc]), hdlc]
  have hsent := callSent_afterXfers s ((readFrameCommands n (s.beforeXfer.rxDlc n)).take 2)
  have hflag (hf : s.clearBus.rxFlag n = true) := State.rxFlag_afterQueries hs' hf hquery
  have hregs (hq : s.clearBus.canQuiet) := State.regs_afterQueries hq hquery
  generalize s.clearBus.afterXfers ((readFrameCommands n (s.beforeXfer.rxDlc n)).take 2) = t at *
  obtain ⟨hhost, hsched, hmosi⟩ := hsent
  rw [hs, List.map_take, mosi_readFrameCommands] at hmosi
  exact ⟨_, hrun, hhost, hsched, rfl, hmosi, hflag, hregs⟩

/-! ## The poll (R220, R221) -/

/-- A bit of the status byte is that bit (R252). -/
theorem statusBit_eq (b : Byte) {i : Nat} (hi : i < 8) : statusBit b i = b[i] := by
  have hand : bitOf b i = (b >>> i) &&& (1#8 <<< 0) := rfl
  rw [statusBit, hand]
  refine (and_bit_bne_zero _ (by omega)).trans ?_
  simp [BitVec.getLsbD_eq_getElem hi]

/-- The poll takes the buffer whose receive flag is set, buffer 0 first. -/
theorem rxBuffer_statusByte {u : State} (hu : u.standard) : rxBuffer Chip.standard u.statusByte =
    if u.rxFlag 0 then some 0 else if u.rxFlag 1 then some 1 else none := by
  obtain ⟨h0, h1, -⟩ := statusByteCollectsFlagsAndRequests u hu
  have hf (n : Nat) (hn : n < 2) : u.rxFlag n = (u.reg CANINTF)[n] :=
    (State.rxFlag_eq hu hn).trans (and_bit_bne_zero _ (by omega))
  rw [rxBuffer, standard_bit_statusRX0IF, standard_bit_statusRX1IF, statusBit_eq _ (by omega),
    statusBit_eq _ (by omega), h0, h1, hf 0 (by omega), hf 1 (by omega)]

/-- What the poll does for the status byte it read. -/
def pollNext (c : Chip) (b : Byte) : Prog :=
  match rxBuffer c b with
  | some n => readFrameProg c n
  | none => .ret .noFrame

theorem pollFrameProg_eq (c : Chip) : pollFrameProg c = readStatus c (pollNext c) := rfl

theorem pollNext_some {c : Chip} {b : Byte} {n : Nat} (h : rxBuffer c b = some n) :
    pollNext c b = readFrameProg c n := by
  rw [pollNext, h]

theorem pollNext_none {c : Chip} {b : Byte} (h : rxBuffer c b = none) : pollNext c b = .ret .noFrame := by
  rw [pollNext, h]

section
variable {s : State} (hs : s.standard) (hr : s.status = .ready) (hx : s.busCompletes)
include hs hr hx

theorem exec_pollFrame : exec .pollFrame s =
    (pollNext Chip.standard s.beforeXfer.statusByte).run State.ended (s.clearBus.afterXfer .rdstatus) := by
  have hstatus : s.clearBus.beforeXfer.statusByte = s.beforeXfer.statusByte := by
    rw [State.statusByte_standard (hs.of_chip (by simp)), State.statusByte_standard (hs.of_chip (by simp))]
    simp only [State.reg_beforeXfer_clearBus]
  have hs' : s.clearBus.standard := hs
  rw [exec_call_of (i := .pollFrame) rfl (callRefused_ready rfl hr), hs, pollFrameProg_eq, ← hstatus]
  exact run_readStatus hs' distinct_standard (State.busCompletes_ending hx)

theorem exec_pollFrame_none (h0 : s.beforeXfer.rxFlag 0 = false) (h1 : s.beforeXfer.rxFlag 1 = false) :
    exec .pollFrame s = .next ((s.clearBus.afterXfer .rdstatus).ended (.returned .noFrame)) := by
  have hbuffer : rxBuffer Chip.standard s.beforeXfer.statusByte = none := by
    rw [rxBuffer_statusByte (hs.of_chip (by simp))]
    simp [h0, h1]
  rw [exec_pollFrame hs hr hx, pollNext_none hbuffer, Prog.run_ret]

theorem exec_pollFrame_some {n : Nat} (hn : n < 2)
    (hf : n = 0 ∧ s.beforeXfer.rxFlag 0 = true ∨
      n = 1 ∧ s.beforeXfer.rxFlag 0 = false ∧ s.beforeXfer.rxFlag 1 = true) :
    exec .pollFrame s = (decodeBuffer Chip.standard n).run State.ended (s.clearBus.afterXfer .rdstatus) := by
  have hbuffer : rxBuffer Chip.standard s.beforeXfer.statusByte = some n := by
    rw [rxBuffer_statusByte (hs.of_chip (by simp))]
    rcases hf with ⟨rfl, h0⟩ | ⟨rfl, h0, h1⟩
    · simp [h0]
    · simp [h0, h1]
  rw [exec_pollFrame hs hr hx, pollNext_some hbuffer, readFrameProg, if_pos hn]

end

/-- The RDSTATUS changes no register. -/
theorem State.reg_afterStatus (s : State) (b : Nat) : (s.clearBus.afterXfer .rdstatus).reg b = s.beforeXfer.reg b :=
  s.reg_beforeXfer_clearBus b

theorem State.rxFlag_afterStatus {s : State} (hs : s.standard) {n : Nat} (hn : n < 2) :
    (s.clearBus.afterXfer .rdstatus).rxFlag n = s.beforeXfer.rxFlag n := by
  rw [State.rxFlag_eq (hs.of_chip (by simp)) hn, State.rxFlag_eq (hs.of_chip (by simp)) hn, State.reg_afterStatus]

/-- Settles O30: the RDSTATUS decides, and from then on the buffer it chose is full. -/
theorem pollFollowsStatusByte : Obligations.PollFollowsStatusByte := by
  unfold Obligations.PollFollowsStatusByte
  intro s hs hr hx u
  have hu : u.standard := hs.of_chip (by simp [u])
  have hregs : (s.clearBus.afterXfer .rdstatus).regs = u.regs := s.beforeXfer_regs_clearBus
  have hflag (n : Nat) (hn : n < 2) : (s.clearBus.afterXfer .rdstatus).rxFlag n = u.rxFlag n :=
    State.rxFlag_afterStatus hs hn
  have hreg : ∀ b, (s.clearBus.afterXfer .rdstatus).reg b = u.reg b := s.reg_afterStatus
  have hchip : (s.clearBus.afterXfer .rdstatus).chip = u.chip := by simp [u]
  have hxw : (s.clearBus.afterXfer .rdstatus).busCompletes := State.busCompletes_afterXfer (s := s.clearBus) hx _
  have hnone := exec_pollFrame_none hs hr hx
  have hsome {n : Nat} := exec_pollFrame_some hs hr hx (n := n)
  have hsent (cs : List Command) : CallSent s ((s.clearBus.afterXfer .rdstatus).afterXfers cs) (.rdstatus :: cs) :=
    callSent_afterXfers s (.rdstatus :: cs)
  generalize s.clearBus.afterXfer .rdstatus = w at *
  refine ⟨fun ⟨h0, h1⟩ => ?_, fun n hn hf => ?_⟩
  · obtain ⟨hhost, -, hmosi⟩ := hsent []
    rw [hs] at hmosi
    exact ⟨_, hnone h0 h1, hhost, rfl, hmosi, hregs⟩
  have hw : w.standard := hu.of_chip hchip
  have hfull : w.rxFlag n = true := by
    rw [hflag n hn]
    obtain ⟨rfl, h0⟩ | ⟨rfl, -, h1⟩ := hf
    · exact h0
    · exact h1
  have hsame : SameBuffer n u w := fun k _ => hreg _
  have hdlc : w.rxDlc n = u.rxDlc n := hsame.rxDlc hchip hu hn
  rw [hsome hn hf]
  refine ⟨fun hd => ?_, fun hd => ?_⟩
  · rw [run_decodeBuffer_valid hw hxw hn (by rwa [hdlc]) (.inl hfull), hsame.frameIn hchip hu hn hd]
    have hclear := State.rxFlag_readFrame (dlc := w.rxDlc n) hw hn
    have hlength := (hsent (readFrameCommands n (w.rxDlc n))).length_bus
    obtain ⟨hhost, -, -⟩ := hsent (readFrameCommands n (w.rxDlc n))
    generalize w.afterXfers (readFrameCommands n (w.rxDlc n)) = t at *
    exact ⟨_, rfl, hhost, rfl, hclear, hlength⟩
  · have hbefore : w.beforeXfer.rxDlc n = u.rxDlc n :=
      ((State.HoldsFrame.sameBuffer_beforeXfer (.inl hfull) hw hn).rxDlc (by simp) hw hn).trans hdlc
    rw [run_decodeBuffer_corrupt hw hxw hn (by rwa [hbefore]), hbefore]
    have hkept := State.rxFlag_afterQueries hw hfull
      (onlyQuery_take_readFrameCommands (n := n) (dlc := u.rxDlc n) (k := 2) (by omega))
    have hlength := (hsent ((readFrameCommands n (u.rxDlc n)).take 2)).length_bus
    obtain ⟨hhost, -, -⟩ := hsent ((readFrameCommands n (u.rxDlc n)).take 2)
    generalize w.afterXfers ((readFrameCommands n (u.rxDlc n)).take 2) = t at *
    exact ⟨_, rfl, hhost, rfl, hkept, hlength⟩

/-! ## writeFrame's transactions (R233, R234) -/

/-- The byte that writeFrame stores to register +k of the transmit buffer. -/
def frameByte (f : Frame) (k : Nat) : Byte :=
  if k = 1 then (encodeStdId f.ident).1
  else if k = 2 then (encodeStdId f.ident).2
  else if k = 5 then BitVec.ofNat 8 f.payloadLength
  else f.payload.getD (k - 6) 0

theorem frameByte_data (f : Frame) (i : Nat) : frameByte f (6 + i) = f.payload.getD i 0 := by
  rw [frameByte, if_neg (by omega), if_neg (by omega), if_neg (by omega), Nat.add_sub_cancel_left]

/-- The registers of the transmit buffer that writeFrame stores to before the request, in MF's order: SIDH, SIDL, DLC
and the data registers of the payload. -/
def frameOffsets (length : Nat) : List Nat := [1, 2, 5] ++ (List.range length).map (6 + ·)

/-- The WRITE of one of them. -/
def frameStore (f : Frame) (n k : Nat) : Command := .write (addressByte (txb n + k)) [frameByte f k]

/-- The transmit request (R234). -/
def transmitRequest (n : Nat) : Command := .bitmod (addressByte (txb n)) 0x08 0x08

/-- W1 to W3, the payload's WRITEs and the transmit request. -/
def writeFrameCommands (f : Frame) (n : Nat) : List Command :=
  (frameOffsets f.payloadLength).map (frameStore f n) ++ [transmitRequest n]

theorem mem_frameOffsets {length k : Nat} :
    k ∈ frameOffsets length ↔ k = 1 ∨ k = 2 ∨ k = 5 ∨ (6 ≤ k ∧ k < 6 + length) := by
  simp only [frameOffsets, List.mem_append, List.mem_cons, List.not_mem_nil, or_false, List.mem_map, List.mem_range,
    or_assoc]
  refine or_congr_right (or_congr_right (or_congr_right ⟨?_, fun h => ⟨k - 6, by omega⟩⟩))
  rintro ⟨i, hi, rfl⟩
  omega

theorem lt_of_mem_frameOffsets {length k : Nat} (h8 : length ≤ 8) (h : k ∈ frameOffsets length) : 1 ≤ k ∧ k < 14 := by
  have := mem_frameOffsets.1 h
  omega

theorem length_writeFrameCommands (f : Frame) (n : Nat) : (writeFrameCommands f n).length = 4 + f.payloadLength := by
  simp [writeFrameCommands, frameOffsets]
  omega

theorem sendAll_append (cmd : CommandBytes) (cs ds : List Command) (p : Prog) :
    sendAll cmd (cs ++ ds) p = sendAll cmd cs (sendAll cmd ds p) := by
  induction cs with
  | nil => rfl
  | cons c cs ih => simp only [List.cons_append, sendAll, ih]

theorem writePayload_eq_sendAll (c : Chip) (p : Prog) (as : List Nat) (bs : List Byte) : writePayload c p as bs =
    sendAll c.commands (List.zipWith (fun a b => .write (addressByte a) [b]) as bs) p := by
  induction as generalizing bs with
  | nil => rfl
  | cons a as ih =>
    cases bs with
    | nil => rfl
    | cons b bs => simp only [writePayload, writeRegister, ih, List.zipWith_cons_cons, sendAll]

/-- Data registers and payload bytes meet pairwise, D0 first. -/
theorem zipWith_payload {f : Frame} {n : Nat} (h8 : f.payloadLength ≤ 8) (hl : f.payload.length = f.payloadLength) :
    List.zipWith (fun a b => Command.write (addressByte a) [b]) ((List.range 8).map (txb n + 6 + ·)) f.payload =
      ((List.range f.payloadLength).map (6 + ·)).map (frameStore f n) := by
  refine List.ext_getElem (by simp [hl, h8]) fun i h1 h2 => ?_
  have hi : i < f.payload.length := by simpa [hl] using h2
  simp [frameStore, frameByte_data, Nat.add_assoc, hi]

theorem dlcByte_zero (length : Nat) : dlcByte 0 length = BitVec.ofNat 8 length := BitVec.shiftLeft_zero _

theorem encodeFrame_eq_sendAll {f : Frame} {n : Nat} (hf : frameFault f n = none) :
    encodeFrame Chip.standard f n = sendAll Chip.standard.commands (writeFrameCommands f n) (.ret .unit) := by
  obtain ⟨hn, h8, hl, -⟩ := frameFault_none hf
  unfold encodeFrame
  rw [txb_standard hn, standard_bit_DLC, dlcByte_zero, bufferAt_data, writePayload_eq_sendAll,
    zipWith_payload h8 hl, writeFrameCommands, frameOffsets, List.map_append, List.append_assoc, sendAll_append, sendAll_append]
  rfl

section
variable {f : Frame} {n k : Nat}

theorem txb_add_lt (hn : n < 3) (hk : k < 14) : txb n + k < 0x80 := by
  unfold txb
  omega

theorem commandTargets_frameStore (hn : n < 3) (hk : k < 14) : commandTargets (frameStore f n k) = [txb n + k] := by
  have := txb_add_lt hn hk
  simp [frameStore, commandTargets, toNat_addressByte (show txb n + k < 0x100 by omega)]

theorem commandTargets_transmitRequest (hn : n < 3) : commandTargets (transmitRequest n) = [txb n] := by
  have := txb_lt hn
  simp [transmitRequest, commandTargets, toNat_addressByte (show txb n < 0x100 by omega)]

theorem mosi_writeFrameCommands (f : Frame) (n : Nat) :
    (writeFrameCommands f n).map (encodeCommand Chip.standard.commands) =
      [[0x02, BitVec.ofNat 8 (txb n + 1), (encodeStdId f.ident).1],
       [0x02, BitVec.ofNat 8 (txb n + 2), (encodeStdId f.ident).2],
       [0x02, BitVec.ofNat 8 (txb n + 5), BitVec.ofNat 8 f.payloadLength]] ++
      (List.range f.payloadLength).map (fun i => [0x02, BitVec.ofNat 8 (txb n + 6 + i), f.payload.getD i 0]) ++
      [[0x05, BitVec.ofNat 8 (txb n), 0x08, 0x08]] := by
  have hdata : (encodeCommand Chip.standard.commands ∘ frameStore f n) ∘ (6 + ·) =
      fun i => [0x02, BitVec.ofNat 8 (txb n + 6 + i), f.payload.getD i 0] := by
    funext i
    simp only [Function.comp_apply, frameStore, frameByte_data, ← Nat.add_assoc]
    rfl
  rw [writeFrameCommands, frameOffsets, List.map_append, List.map_append, List.map_append, List.map_map, List.map_map,
    List.map_map, hdata]
  rfl

theorem writeFrameCommands_admitted (hf : frameFault f n = none) :
    (writeFrameCommands f n).all commandAdmitted = true := by
  obtain ⟨hn, h8, -, -⟩ := frameFault_none hf
  have hexists {k : Nat} (hk : k < 14) : registersExist (addressByte (txb n + k)).toNat 1 = true := by
    have hlt := txb_add_lt hn hk
    rw [toNat_addressByte (by omega)]
    exact registersExist_iff.2 (by omega)
  rw [writeFrameCommands, List.all_append, Bool.and_eq_true, List.all_map, List.all_eq_true]
  exact ⟨fun k hmem => hexists (lt_of_mem_frameOffsets h8 hmem).2,
    by simpa [commandAdmitted, transmitRequest] using hexists (k := 0) (by omega)⟩

/-- Each transaction stores to one register of the buffer. -/
theorem spares_frameStores (hn : n < 3) (h8 : f.payloadLength ≤ 8) {b : Nat}
    (hk : ∀ k ∈ frameOffsets f.payloadLength, slotOf (txb n + k) ≠ slotOf b) :
    ∀ c ∈ (frameOffsets f.payloadLength).map (frameStore f n), Spares b (commandTargets c) := by
  refine List.forall_mem_map.2 fun k hmem => ?_
  rw [commandTargets_frameStore hn (lt_of_mem_frameOffsets h8 hmem).2]
  exact List.forall_mem_singleton.2 (hk k hmem)

theorem spares_transmitRequest (hn : n < 3) {b : Nat} (h : slotOf (txb n) ≠ slotOf b) :
    Spares b (commandTargets (transmitRequest n)) := by
  rw [commandTargets_transmitRequest hn]
  exact List.forall_mem_singleton.2 h

theorem spares_writeFrameCommands (hn : n < 3) (h8 : f.payloadLength ≤ 8) {b : Nat} (h0 : slotOf (txb n) ≠ slotOf b)
    (hk : ∀ k ∈ frameOffsets f.payloadLength, slotOf (txb n + k) ≠ slotOf b) :
    ∀ c ∈ writeFrameCommands f n, Spares b (commandTargets c) :=
  List.forall_mem_append.2 ⟨spares_frameStores hn h8 hk, List.forall_mem_singleton.2 (spares_transmitRequest hn h0)⟩

theorem slotOf_txb_ne {j : Nat} (hn : n < 3) (hj : j < 14) (hk : k < 14) (h : j ≠ k) :
    slotOf (txb n + j) ≠ slotOf (txb n + k) :=
  slotOf_ne (txb_add_lt hn hj) (txb_add_lt hn hk) (by omega) (by unfold txb; omega)

/-! ## What writeFrame leaves in the registers of its buffer -/

/-- A WRITE of one byte to a register that is never protected (R86). -/
theorem State.reg_write_unprotected {s : State} (hs : s.standard) {a : Nat} (ha : a < 0x80)
    (hp : Chip.standard.configProtected a = false) (v : Byte) :
    (s.storeRegs a [v]).reg a = maskedWrite (Chip.standard.wmask a) (s.reg a) v := by
  have hun : s.protectedNow a = false := State.protectedNow_eq_false_iff.2 (.inl (by rw [hs, hp]))
  rw [State.storeRegs, State.storeRegs, s.reg_storeReg _ _ ha, if_pos rfl, storedValue_unprotected _ hun, hs]

/-- Registers +1 to +13 of a transmit buffer take writes in all their implemented bits, in every mode (R36). -/
theorem txb_columns (hn : n < 3) (h1 : 1 ≤ k) (hk : k < 14) : Chip.standard.configProtected (txb n + k) = false ∧
    Chip.standard.impl (txb n + k) = Chip.standard.wmask (txb n + k) := by
  have h : ∀ (n : Fin 3) (k : Fin 14), 1 ≤ k.val → Chip.standard.configProtected (txb n + k) = false ∧
      Chip.standard.impl (txb n + k) = Chip.standard.wmask (txb n + k) := by decide +kernel
  exact h ⟨n, hn⟩ ⟨k, hk⟩ h1

theorem maskedWrite_and_mask (m old v : Byte) : maskedWrite m old v &&& m = v &&& m := by
  unfold maskedWrite
  ext i hi
  simp only [BitVec.getElem_or, BitVec.getElem_and, BitVec.getElem_not]
  cases m[i] <;> simp

/-- A READ of a register of the buffer, after the last transaction that stores to it, finds the byte that one
carried. -/
theorem State.readReg_afterXfers_frameStore {s : State} (hs : s.standard) (hn : n < 3) (h1 : 1 ≤ k) (hk : k < 14)
    {cs : List Command} (hmem : frameStore f n k ∈ cs)
    (hc : ∀ c ∈ cs, c = frameStore f n k ∨ Spares (txb n + k) (commandTargets c)) :
    (s.afterXfers cs).readReg (txb n + k) = frameByte f k &&& Chip.standard.wmask (txb n + k) := by
  induction cs generalizing s with
  | nil => cases hmem
  | cons c cs ih =>
    obtain ⟨hc, hcs⟩ := List.forall_mem_cons.1 hc
    by_cases hlast : frameStore f n k ∈ cs
    · exact ih (hs.of_chip (by simp)) hlast hcs
    obtain rfl : c = frameStore f n k := ((List.mem_cons.1 hmem).resolve_right hlast).symm
    have hlt := txb_add_lt hn hk
    obtain ⟨hp, himpl⟩ := txb_columns hn h1 hk
    have hspared : ∀ c ∈ cs, Spares (txb n + k) (commandTargets c) := fun c hmem =>
      (hcs c hmem).resolve_left fun he => hlast (he ▸ hmem)
    have hkeep := (s.afterXfer (frameStore f n k)).keeps_hostOnly hlt (hostOnly_txb hn h1 hk) 0xFF
    have hreg := eq_of_and_allOnes (hkeep.reg_afterXfers (hs.of_chip (by simp)) hlt hspared)
    have hchip : (s.afterXfers (frameStore f n k :: cs)).chip = Chip.standard := by
      rw [State.afterXfers_chip, hs]
    rw [State.readReg, hchip, himpl, State.afterXfers, hreg, State.reg_afterXfer, frameStore, State.engineEffect,
      toNat_addressByte (by omega), State.reg_write_unprotected (hs.of_chip (by simp)) hlt hp, maskedWrite_and_mask]

/-- SIDL of a standard identifier carries bits 7:5 alone. -/
theorem encodeStdId_and_wmask (id : IdentWord) : (encodeStdId id).2 &&& 0xEB = (encodeStdId id).2 := by
  ext i hi
  unfold encodeStdId
  interval_cases i <;> simp

/-- writeFrame's byte has no bit that its register lacks (R36, R114, R117). -/
theorem frameByte_and_wmask (hf : frameFault f n = none) (hk : k ∈ frameOffsets f.payloadLength) :
    frameByte f k &&& Chip.standard.wmask (txb n + k) = frameByte f k := by
  obtain ⟨hn, h8, -, -⟩ := frameFault_none hf
  have hall : ∀ (n : Fin 3) (k : Fin 14), 1 ≤ k.val → k.val ≠ 2 → k.val ≠ 5 →
      Chip.standard.wmask (txb n + k) = 0xFF := by decide +kernel
  have hSIDL : ∀ n : Fin 3, Chip.standard.wmask (txb n + 2) = 0xEB := by decide
  have hDLC : ∀ n : Fin 3, Chip.standard.wmask (txb n + 5) = 0x4F := by decide
  have hlength : ∀ length : Fin 9, BitVec.ofNat 8 length.val &&& 0x4F#8 = BitVec.ofNat 8 length.val := by decide
  have hmem := mem_frameOffsets.1 hk
  by_cases h2 : k = 2
  · subst h2
    rw [hSIDL ⟨n, hn⟩]
    exact encodeStdId_and_wmask f.ident
  by_cases h5 : k = 5
  · subst h5
    rw [hDLC ⟨n, hn⟩]
    exact hlength ⟨f.payloadLength, by omega⟩
  rw [hall ⟨n, hn⟩ ⟨k, by omega⟩ (by simp only; omega) h2 h5]
  exact BitVec.and_allOnes

theorem and_not_or_self (x m : Byte) : x &&& ~~~m ||| m = x ||| m := by
  ext i hi
  simp only [BitVec.getElem_or, BitVec.getElem_and, BitVec.getElem_not]
  cases m[i] <;> simp

/-- The request sets TXREQ in the TXBnCTRL it meets, and no other bit (R234). -/
theorem State.reg_txbCtrl_writeFrame {s : State} (hs : s.standard) (hn : n < 3) :
    (s.afterXfers (writeFrameCommands f n)).reg (txb n) =
      (s.afterXfers ((frameOffsets f.payloadLength).map (frameStore f n))).beforeXfer.reg (txb n) ||| 0x08 := by
  have hcolumns : ∀ n : Fin 3, Chip.standard.configProtected (txb n) = false ∧
      Chip.standard.bitmodCapable (txb n) = true ∧ (0x08 &&& Chip.standard.wmask (txb n)) = 0x08 := by decide
  obtain ⟨hp, hcap, hmask⟩ := hcolumns ⟨n, hn⟩
  have hlt := txb_lt hn
  rw [writeFrameCommands, State.afterXfers_append, State.afterXfers, State.afterXfers, State.reg_afterXfer,
    transmitRequest, State.engineEffect, toNat_addressByte (by omega),
    State.reg_bitmodReg_unprotected (hs.of_chip (by simp)) hlt hp hcap, BitVec.and_self, hmask, and_not_or_self]

section
variable {s : State} (hs : s.standard) (hf : frameFault f n = none)
include hs hf

theorem exec_writeFrame (hr : s.status = .ready) (hx : s.busCompletes) : exec (.writeFrame f n) s =
    .next ((s.clearBus.afterXfers (writeFrameCommands f n)).ended (.returned .unit)) := by
  have hs' : s.clearBus.standard := hs
  have hprog : writeFrameProg Chip.standard f n = encodeFrame Chip.standard f n := by rw [writeFrameProg, hf]
  have hsends := sends_sendAll (s := s.clearBus) (congrArg Chip.commands hs') .unit (writeFrameCommands f n)
  have hx' : s.clearBus.completesFirst (writeFrameCommands f n).length := hx.completesFirst _
  rw [exec_call_of (i := .writeFrame f n) rfl (callRefused_ready rfl hr), hs, hprog, encodeFrame_eq_sendAll hf]
  exact hsends.run_completes hs'.distinct (writeFrameCommands_admitted hf) hx'

theorem State.readReg_writeFrame (hk : k ∈ frameOffsets f.payloadLength) :
    (s.afterXfers (writeFrameCommands f n)).readReg (txb n + k) = frameByte f k := by
  obtain ⟨hn, h8, -, -⟩ := frameFault_none hf
  obtain ⟨h1, h14⟩ := lt_of_mem_frameOffsets h8 hk
  have hstored : frameStore f n k ∈ writeFrameCommands f n := List.mem_append_left _ (List.mem_map_of_mem hk)
  rw [State.readReg_afterXfers_frameStore hs hn h1 h14 hstored, frameByte_and_wmask hf hk]
  refine List.forall_mem_append.2 ⟨List.forall_mem_map.2 fun j hj => ?_, List.forall_mem_singleton.2 (.inr ?_)⟩
  · by_cases hjk : j = k
    · exact .inl (by rw [hjk])
    · have hj14 := (lt_of_mem_frameOffsets h8 hj).2
      rw [commandTargets_frameStore hn hj14]
      exact .inr (List.forall_mem_singleton.2 (slotOf_txb_ne hn hj14 h14 hjk))
  · exact spares_transmitRequest hn (slotOf_txb_ne (j := 0) hn (by omega) h14 (by omega))

/-- A register of the buffer that no transaction stores to keeps its value, whatever CANSIDE does (R61). -/
theorem State.reg_writeFrame_of_not_mem (h1 : 1 ≤ k) (h14 : k < 14) (hk : k ∉ frameOffsets f.payloadLength) :
    (s.afterXfers (writeFrameCommands f n)).reg (txb n + k) = s.reg (txb n + k) := by
  obtain ⟨hn, h8, -, -⟩ := frameFault_none hf
  have hlt := txb_add_lt hn h14
  have hkeep := s.keeps_hostOnly hlt (hostOnly_txb hn h1 h14) 0xFF
  refine eq_of_and_allOnes (hkeep.reg_afterXfers hs hlt (spares_writeFrameCommands hn h8
    (slotOf_txb_ne (j := 0) hn (by omega) h14 (by omega)) fun j hj => ?_))
  exact slotOf_txb_ne hn (lt_of_mem_frameOffsets h8 hj).2 h14 fun hjk => hk (hjk ▸ hj)

theorem State.txRequested_writeFrame : (s.afterXfers (writeFrameCommands f n)).txRequested n = true := by
  obtain ⟨hn, -, -, -⟩ := frameFault_none hf
  rw [State.txRequested_eq (hs.of_chip (by simp)) hn, State.reg_txbCtrl_writeFrame hs hn,
    show (0x08 : Byte) = 1#8 <<< 3 from rfl, and_bit_bne_zero _ (by omega)]
  simp

theorem State.reg_txbCtrl_writeFrame_quiet (hq : s.canQuiet) :
    (s.afterXfers (writeFrameCommands f n)).reg (txb n) = s.reg (txb n) ||| 0x08 := by
  obtain ⟨hn, h8, -, -⟩ := frameFault_none hf
  have hspared : ∀ c ∈ (frameOffsets f.payloadLength).map (frameStore f n), Spares (txb n) (commandTargets c) :=
    spares_frameStores hn h8 fun k hk => by
      obtain ⟨h1, h14⟩ := lt_of_mem_frameOffsets h8 hk
      exact slotOf_txb_ne (k := 0) hn h14 (by omega) (by omega)
  have hkeep : s.Keeps (txb n) 0xFF := .inl hq
  have hq' : (s.afterXfers ((frameOffsets f.payloadLength).map (frameStore f n))).canQuiet :=
    State.canQuiet_of_sched hq (State.afterXfers_sched _ _)
  rw [State.reg_txbCtrl_writeFrame hs hn, State.reg_beforeXfer_quiet hq',
    eq_of_and_allOnes (hkeep.reg_afterXfers hs (txb_lt hn) hspared)]

/-- Where CANSIDE is quiet, the registers stored to are all that change. -/
theorem sameRegsExcept_writeFrame_quiet (hq : s.canQuiet) :
    sameRegsExcept ([txb n, txb n + 1, txb n + 2, txb n + 5] ++ (List.range f.payloadLength).map (txb n + 6 + ·)) s
      (s.afterXfers (writeFrameCommands f n)) := by
  obtain ⟨hn, h8, -, -⟩ := frameFault_none hf
  intro b hb hfar
  have hkeep : s.Keeps b 0xFF := .inl hq
  rw [hs] at hfar
  refine eq_of_and_allOnes (hkeep.reg_afterXfers hs hb (spares_writeFrameCommands hn h8 (hfar _ (by simp))
    fun k hk => hfar _ ?_))
  obtain rfl | rfl | rfl | ⟨h6, hk⟩ := mem_frameOffsets.1 hk
  · simp
  · simp
  · simp
  · exact List.mem_append_right _ (List.mem_map.2 ⟨k - 6, List.mem_range.2 (by omega), by omega⟩)

end

end

/-- Settles O35: each register is read back from the one transaction that stores to it; the others are spared. -/
theorem writeFrameLaysOutTheFrame : Obligations.WriteFrameLaysOutTheFrame := by
  unfold Obligations.WriteFrameLaysOutTheFrame
  intro s f n hs hr hx hf
  obtain ⟨hn, h8, hl, -⟩ := frameFault_none hf
  have hs' : s.clearBus.standard := hs
  have hrun := exec_writeFrame hs hf hr hx
  have hsent := callSent_afterXfers s (writeFrameCommands f n)
  have hread {k : Nat} (hk : k ∈ frameOffsets f.payloadLength) := State.readReg_writeFrame hs' hf hk
  have hkept {k : Nat} (h1 : 1 ≤ k) (h14 : k < 14) (hk : k ∉ frameOffsets f.payloadLength) :=
    State.reg_writeFrame_of_not_mem hs' hf h1 h14 hk
  have hrequest := State.txRequested_writeFrame hs' hf
  have hctrl (hq : s.clearBus.canQuiet) := State.reg_txbCtrl_writeFrame_quiet hs' hf hq
  have hframe (hq : s.clearBus.canQuiet) := sameRegsExcept_writeFrame_quiet hs' hf hq
  generalize s.clearBus.afterXfers (writeFrameCommands f n) = t at *
  obtain ⟨hhost, hsched, hmosi⟩ := hsent
  rw [length_writeFrameCommands] at hsched
  rw [hs, mosi_writeFrameCommands] at hmosi
  have hdlc : (t.readReg (txb n + 5)).toNat = f.payloadLength := by
    have hbyte : t.readReg (txb n + 5) = BitVec.ofNat 8 f.payloadLength := hread (by simp [mem_frameOffsets])
    rw [hbyte, BitVec.toNat_ofNat]
    omega
  have hdata (i : Nat) (hi : i < f.payloadLength) : t.readReg (txb n + 6 + i) = f.payload.getD i 0 := by
    rw [Nat.add_assoc, hread (mem_frameOffsets.2 (by omega)), frameByte_data]
  have hrest (i : Nat) (h1 : f.payloadLength ≤ i) (h2 : i < 8) : t.reg (txb n + 6 + i) = s.reg (txb n + 6 + i) := by
    rw [Nat.add_assoc]
    refine hkept (by omega) (by omega) ?_
    rw [mem_frameOffsets]
    omega
  exact ⟨_, hrun, hhost, hsched, rfl, hread (by simp [mem_frameOffsets]), hread (by simp [mem_frameOffsets]), hdlc,
    hdata, hkept (by omega) (by omega) (by simp [mem_frameOffsets]),
    hkept (by omega) (by omega) (by simp [mem_frameOffsets]), hrest, hrequest, hmosi,
    fun hq => ⟨hctrl hq, hframe hq⟩⟩

end Sys2Proof.Machine
end

section
/-! PROOFS. Status and interrupt flags (43_status_interrupt.md: R250 to R260; R216, R55, R119): the host calls that are
one transaction, the flag-clearing BITMOD, the WRITEs that host calls issue, and the flags that survive host calls. -/

namespace Sys2Proof.Machine

/-! ## A host call that is one transaction (R250, R254, R256) -/

/-- The MISO bytes depend on the registers, the parameters and the free values taken alone. -/
theorem sameEngine.engine_fst {s t : State} (h : sameEngine s t) (c : Command) : (s.engine c).1 = (t.engine c).1 := by
  have hresponse : s.engineResponse c = t.engineResponse c := State.engineResponse_of_regs h.chip h.regs
  rw [State.engine_fst, State.engine_fst, (h.engineEffect c).draws, hresponse]

/-- A call of a Ready HOST whose one exchange, of command c, completes has ENGINE's effect on the registers CANSIDE
left, and returns what it computes from the MISO bytes given there. -/
theorem readyCall_spec {i : Instr} {c : Command} {answer : List Byte → Value} {s : State} (hs : s.standard)
    (hr : s.status = .ready) (hx : s.nextSlot.ending = .completes) (hi : needsReady i = true)
    (hp : callProg Chip.standard i =
      some (.xfer (encodeCommand Chip.standard.commands c) fun miso => .ret (answer miso)))
    (hc : commandAdmitted c = true) :
    ∃ t, exec i s = .next t ∧ sameHost s t ∧ t.sched = s.sched.tail ∧
      t.result = some (.returned (answer (s.beforeXfer.engine c).1)) ∧
      t.bus.map (·.mosi) = [encodeCommand Chip.standard.commands c] ∧ t.regs = (s.beforeXfer.engineEffect c).regs := by
  obtain ⟨-, hctor⟩ := hostCall_of_needsReady hi
  have hbegun : s.callBegun i = s.clearBus := by rw [State.callBegun, hctor]
  have hrun : exec i s =
      .next ((s.clearBus.afterXfer c).ended (.returned (answer (s.clearBus.beforeXfer.engine c).1))) := by
    rw [exec_call_of (by rw [hs]; exact hp) (callRefused_ready hi hr), hbegun, callEnds_eq_ended hctor, ← hs]
    exact Prog.run_completes (s := s.clearBus) hs.distinct hx hc
  refine ⟨_, hrun, by simp [sameHost], by simp, ?_, by simp [hs], ?_⟩
  · rw [State.ended_result, (sameEngine_beforeXfer_clearBus s).engine_fst]
  · exact ((sameEngine_beforeXfer_clearBus s).engineEffect c).regs

/-! ## Availability (R250 to R252) -/

/-- A status byte shows a frame where it names a buffer to take it from. -/
theorem rxAvailable_eq_isSome (c : Chip) (b : Byte) : rxAvailable c b = (rxBuffer c b).isSome := by
  unfold rxAvailable rxBuffer
  cases statusBit b c.bits.statusRX0IF <;> cases statusBit b c.bits.statusRX1IF <;> rfl

theorem rxAvailable_statusByte {u : State} (hu : u.standard) :
    rxAvailable Chip.standard u.statusByte = (u.rxFlag 0 || u.rxFlag 1) := by
  rw [rxAvailable_eq_isSome, rxBuffer_statusByte hu]
  cases u.rxFlag 0 <;> cases u.rxFlag 1 <;> rfl

/-- Settles O37: the call is one RDSTATUS, whose byte shows the two receive flags. -/
theorem availabilityIsTheReceiveFlags : Obligations.AvailabilityIsTheReceiveFlags := by
  unfold Obligations.AvailabilityIsTheReceiveFlags
  intro s hs hr hx
  obtain ⟨t, ht, hhost, hsched, hres, hbus, hregs⟩ := readyCall_spec (i := .isFrameAvailable) (c := .rdstatus)
    (answer := fun miso => .bool (rxAvailable Chip.standard (miso.getD 1 0))) hs hr hx rfl rfl rfl
  have hbyte : (s.beforeXfer.engine .rdstatus).1.getD 1 0 = s.beforeXfer.statusByte := rfl
  rw [hbyte, rxAvailable_statusByte (hs.of_chip (by simp))] at hres
  exact ⟨t, ht, hhost, hsched, hres, hbus, hregs⟩

/-! ## The mode in effect (R254, R119) -/

/-- OPMOD is implemented, so a READ of CANSTAT shows it (R40, R87). -/
theorem opmodOf_readReg_canstat {u : State} (hu : u.standard) : opmodOf (u.readReg CANSTAT) = u.opmod := by
  have himpl : u.chip.impl CANSTAT = 0xEE := by rw [hu]; rfl
  rw [State.opmod_eq hu, State.readReg, himpl]
  generalize u.reg CANSTAT = b
  revert b
  decide +kernel

/-- What getMode reports for each value of the mode field. -/
theorem modeOfField_standard (v : BitVec 3) :
    (v = 0 → modeOfField Chip.standard v = .mode .normal) ∧ (v = 1 → modeOfField Chip.standard v = .mode .sleep) ∧
      (v = 2 → modeOfField Chip.standard v = .mode .loopback) ∧
      (v = 3 → modeOfField Chip.standard v = .mode .listenOnly) ∧
      (v = 4 → modeOfField Chip.standard v = .mode .configure) ∧
      (5 ≤ v.toNat → modeOfField Chip.standard v = .invalid v) := by
  revert v
  decide

/-- Settles O38: the call is one READ of CANSTAT, whose byte shows OPMOD. -/
theorem getModeReportsModeInEffect : Obligations.GetModeReportsModeInEffect := by
  unfold Obligations.GetModeReportsModeInEffect
  intro s hs hr hx
  obtain ⟨t, ht, hhost, hsched, hres, hbus, hregs⟩ := readyCall_spec (i := .getMode)
    (c := .read (addressByte CANSTAT) 1)
    (answer := fun miso => .mode (modeOfField Chip.standard (opmodOf (((miso.drop 2).take 1).getD 0 0))))
    hs hr hx rfl rfl rfl
  have hmiso : (s.beforeXfer.engine (.read (addressByte CANSTAT) 1)).1.drop 2 = [s.beforeXfer.readReg CANSTAT] :=
    s.beforeXfer.engine_response (.read (addressByte CANSTAT) 1)
  have hfield : opmodOf (([s.beforeXfer.readReg CANSTAT].take 1).getD 0 0) = s.beforeXfer.opmod :=
    opmodOf_readReg_canstat (hs.of_chip (by simp))
  rw [hmiso, hfield] at hres
  obtain ⟨h0, h1, h2, h3, h4, h5⟩ := modeOfField_standard s.beforeXfer.opmod
  exact ⟨t, _, ht, hhost, hsched, hres, h0, h1, h2, h3, h4, h5, hbus, hregs⟩

/-! ## The mode request (R256, R119) -/

/-- CANCTRL after setMode's masked modify: the three bits of REQOP are the new code, the other five the old ones. -/
def requestedCtrl (old : Byte) (code : BitVec 3) : Byte := (old &&& 0x1F) ||| atField 5 code

theorem fieldAt_requestedCtrl (old : Byte) (code : BitVec 3) : fieldAt 5 (requestedCtrl old code) = code := by
  unfold requestedCtrl fieldAt atField
  revert old code
  decide +kernel

theorem requestedCtrl_eq_masked (old : Byte) (code : BitVec 3) :
    (old &&& ~~~(0xE0 &&& 0xFF)) ||| (atField 5 code &&& 0xE0 &&& 0xFF) = requestedCtrl old code := by
  unfold requestedCtrl atField
  revert old code
  decide +kernel

/-- R119's codes, as a byte and as the mode field. -/
theorem modeCode_of_mem {m : Mode} {code : Byte}
    (h : (m, code) ∈ [(Mode.normal, (0 : Byte)), (.sleep, 1), (.loopback, 2), (.listenOnly, 3), (.configure, 4)]) :
    code.setWidth 3 = Chip.standard.modeCode m ∧ code <<< 5 = atField 5 (Chip.standard.modeCode m) := by
  simp only [List.mem_cons, Prod.mk.injEq, List.not_mem_nil, or_false] at h
  rcases h with ⟨rfl, rfl⟩ | ⟨rfl, rfl⟩ | ⟨rfl, rfl⟩ | ⟨rfl, rfl⟩ | ⟨rfl, rfl⟩ <;> exact ⟨rfl, rfl⟩

/-- setMode's BITMOD replaces REQOP in CANCTRL, in every mode (R88, R89). -/
theorem State.reg_canctrl_requestMode {u : State} (hu : u.standard) (code : BitVec 3) :
    (u.engineEffect (.bitmod (addressByte CANCTRL) 0xE0 (atField 5 code))).reg CANCTRL =
      requestedCtrl (u.reg CANCTRL) code := by
  rw [← requestedCtrl_eq_masked]
  exact State.reg_bitmodReg_unprotected hu (by decide) (by decide) (by decide) _ _

/-- CANSIDE leaves CANCTRL alone before a transaction too (R61). -/
theorem State.reg_canctrl_beforeXfer {s : State} (hs : s.standard) : s.beforeXfer.reg CANCTRL = s.reg CANCTRL :=
  State.reg_canSteps_hostOnly (s := s.slotTaken) hs _ (by decide) (by decide)

/-- A BITMOD changes no register but its own. -/
theorem sameRegsExcept_bitmod {u t : State} (hc : t.chip = u.chip) {a m v : Byte}
    (hr : t.regs = (u.engineEffect (.bitmod a m v)).regs) : sameRegsExcept [a.toNat] u t := by
  intro b _ hfar
  rw [State.reg_of_regs (by simpa using hc) hr b]
  exact u.reg_storeReg_ne _ (hfar _ (List.mem_singleton_self _))

/-- Settles O39: the call is one BITMOD of REQOP, and CANCTRL is not CANSTAT. -/
theorem setModeWritesOnlyTheRequest : Obligations.SetModeWritesOnlyTheRequest := by
  unfold Obligations.SetModeWritesOnlyTheRequest
  refine ⟨fun s m code hs hr hx hm => ?_, fun s v hr => ?_⟩
  · obtain ⟨hcode, hbits⟩ := modeCode_of_mem hm
    obtain ⟨t, ht, hhost, hsched, hres, hbus, hregs⟩ := readyCall_spec (i := .setMode (.enumerator m))
      (c := .bitmod (addressByte CANCTRL) 0xE0 (atField 5 (Chip.standard.modeCode m))) (answer := fun _ => .unit)
      hs hr hx rfl rfl rfl
    rw [hcode, hbits]
    have hu : s.beforeXfer.standard := hs.of_chip (by simp)
    have hchip : t.chip = s.beforeXfer.chip := by simpa using chip_of_sameHost hhost
    have hreg := State.reg_of_regs (by simpa using hchip) hregs
    have hctrl : t.reg CANCTRL = requestedCtrl (s.reg CANCTRL) (Chip.standard.modeCode m) := by
      rw [hreg, State.reg_canctrl_requestMode hu, State.reg_canctrl_beforeXfer hs]
    have hreqop : t.reqop = Chip.standard.modeCode m := by
      rw [State.reqop_eq (hu.of_chip hchip), hctrl, fieldAt_requestedCtrl]
    have hopmod : t.opmod = s.beforeXfer.opmod := by
      rw [State.opmod_eq (hu.of_chip hchip), hreg, State.reg_canstat_engineEffect hu (by simp), State.opmod_eq hu]
    exact ⟨t, ht, hhost, hsched, hres, hbus, hctrl, hreqop, hopmod, sameRegsExcept_bitmod hchip hregs⟩
  · rw [exec_call_of (i := .setMode (.outside v)) rfl (callRefused_ready rfl hr)]
    rfl

/-! ## The clear of a receive flag (R216, R259) -/

/-- A BITMOD of CANINTF changes the masked bits, in every mode (R88, R89). -/
theorem State.reg_canintf_bitmod {u : State} (hu : u.standard) (m v : Byte) :
    (u.engineEffect (.bitmod (addressByte CANINTF) m v)).reg CANINTF = (u.reg CANINTF &&& ~~~m) ||| (v &&& m) := by
  have hand (x : Byte) : x &&& Chip.standard.wmask CANINTF = x := BitVec.and_allOnes
  have hstored := State.reg_bitmodReg_unprotected hu (a := CANINTF) (by decide) (by decide) (by decide) m v
  rwa [hand, hand] at hstored

theorem getElem_and_not_bit (b : Byte) (n : Nat) {k : Nat} (hk : k < 8) :
    (b &&& ~~~(1#8 <<< n))[k] = (b[k] && decide (k ≠ n)) := by
  rw [← BitVec.twoPow_eq, BitVec.getElem_and, BitVec.getElem_not, BitVec.getElem_twoPow, decide_not]

/-- Settles O34: the call is one BITMOD of CANINTF, which honours the mask. -/
theorem flagClearIsMaskedModify : Obligations.FlagClearIsMaskedModify := by
  unfold Obligations.FlagClearIsMaskedModify
  intro s n hs hn hx
  obtain ⟨t, ht, hhost, -, -, -, hregs⟩ := completedCall_spec (i := .modifyRegister 0x2C (1#8 <<< n) 0x00)
    hs.distinct hx rfl (by simp [Command.toInstr]) rfl
  have hu : s.beforeXfer.standard := hs.of_chip (by simp)
  have hchip : t.chip = s.beforeXfer.chip := by simpa using chip_of_sameHost hhost
  have hreg : t.reg CANINTF = s.beforeXfer.reg CANINTF &&& ~~~(1#8 <<< n) := by
    rw [State.reg_of_regs (by simpa using hchip) hregs]
    exact (State.reg_canintf_bitmod hu (1#8 <<< n) 0x00).trans (by simp)
  refine ⟨t, ht, hhost, ?_, fun k hk hkn => ?_, sameRegsExcept_bitmod hchip hregs⟩
  · rw [State.rxFlag_eq (hu.of_chip hchip) hn, and_bit_bne_zero _ (by omega), hreg, getElem_and_not_bit]
    simp
  · rw [hreg, getElem_and_not_bit, decide_eq_true hkn, Bool.and_true]

/-! ## What a whole host call keeps -/

/-- A host call that answers is its operation run to its end. -/
theorem hostCall_run {i : Instr} {s t : State} (hs : s.standard) (hi : i.command? = none) (h : exec i s = .next t) :
    ∃ p, callProg Chip.standard i = some p ∧ p.run (callEnds i) (s.callBegun i) = .next t := by
  obtain ⟨c, rfl, -⟩ | ⟨p, hp, -, -, hrun⟩ := exec_next hs h
  · rw [command?_toInstr] at hi
    cases hi
  · exact ⟨p, hs ▸ hp, hrun⟩

/-- Where an operation ends, what its commands keep holds between its start and its end. -/
theorem Prog.Issues.kept_of_run {C : Command → Bool} {R : State → State → Prop} {p : Prog} {s t : State}
    {ends : State → Result → State} (h : p.Only C) (hR : KeptBy C R) (hs : s.standard) (hrun : p.run ends s = .next t) :
    ∃ u r, t = ends u r ∧ R s u := by
  obtain ⟨u, r, hu, hkept, -⟩ := h.run (ends := ends) hR hs
  exact ⟨u, r, Host.Outcome.next.inj (hrun.symm.trans hu), hkept⟩

/-! ## The WRITEs of host calls (R258, R260) -/

/-- From s to t only encodings of admitted commands that C allows are recorded. -/
def recordsOnly (C : Command → Bool) (s t : State) : Prop :=
  ∀ x ∈ t.bus, x ∈ s.bus ∨ ∃ c, C c = true ∧ commandAdmitted c = true ∧
    x.mosi = encodeCommand Chip.standard.commands c

theorem recordsOnly_one {C : Command → Bool} {s t : State} {c : Command} (hc : C c = true)
    (ha : commandAdmitted c = true) {x : Exchange} (hx : x.mosi = encodeCommand Chip.standard.commands c)
    (hb : t.bus = s.bus ++ [x]) : recordsOnly C s t := by
  intro y hy
  rw [hb, List.mem_append, List.mem_singleton] at hy
  exact hy.imp_right fun hyx => ⟨c, hc, ha, by rw [hyx, hx]⟩

theorem keptBy_recordsOnly (C : Command → Bool) : KeptBy C (recordsOnly C) where
  refl _ _ hx := .inl hx
  trans h k x hx := (k x hx).elim (h x) .inr
  done c hc ha s hs := recordsOnly_one hc ha (by rw [← hs]) (s.afterXfer_bus c)
  failed c hc ha s hs _ := recordsOnly_one hc ha (by rw [← hs]) (s.afterFailure_bus c)

/-- A register that a host call may name in a WRITE: it exists and is neither CANINTF nor a mirror of CANCTRL (R258). -/
def writeTarget (x : Nat) : Prop := x < 0x80 ∧ x ≠ CANINTF ∧ x % 16 ≠ 15

/-- The WRITEs of ctor are R190's. -/
theorem ctorCommand_write {a : Byte} {ds : List Byte} (h : ctorCommand (.write a ds) = true) {k : Nat}
    (hk : k < ds.length) : writeTarget (a.toNat + k) := by
  have hrange : ∀ w ∈ [(CNF1, 1), (CNF2, 1), (CNF3, 1), (RXF0SIDH, 12), (RXF3SIDH, 12), (RXM0SIDH, 8), (txb 0, 13),
      (txb 1, 13), (txb 2, 13), (rxb 0, 1), (rxb 1, 1), (CANINTE, 1), (BFPCTRL, 1), (TXRTSCTRL, 1)],
      ∀ k < w.2, writeTarget (w.1 + k) := by
    unfold writeTarget
    decide
  exact hrange (a.toNat, ds.length) (List.contains_iff_mem.1 h) k hk

/-- A WRITE of writeFrame is one byte to a register +1 to +13 of a transmit buffer. -/
theorem writeCommand_write {n : Nat} {a : Byte} {ds : List Byte} (h : writeCommand n (.write a ds) = true)
    (ha : commandAdmitted (.write a ds) = true) {k : Nat} (hk : k < ds.length) : writeTarget (a.toNat + k) := by
  obtain ⟨-, hlt⟩ := registersExist_iff.1 ha
  obtain ⟨hbuffer, hlen⟩ := Bool.and_eq_true_iff.1 h
  obtain ⟨hlo, hhi⟩ := of_decide_eq_true hbuffer
  have hone : ds.length = 1 := of_decide_eq_true hlen
  unfold txb at hlo hhi
  unfold writeTarget CANINTF
  omega

theorem mayIssue_write_of_hostCall {i : Instr} (hi : i.command? = none) {a : Byte} {ds : List Byte}
    (h : mayIssue i (.write a ds) = true) (ha : commandAdmitted (.write a ds) = true) {k : Nat} (hk : k < ds.length) :
    writeTarget (a.toNat + k) := by
  cases i with
  | ctor config => exact ctorCommand_write h hk
  | writeFrame f n => exact writeCommand_write h ha hk
  | readFrame | pollFrame | isFrameAvailable | getMode | setMode => simp [mayIssue, readCommand, modeCommand] at h
  | _ => cases hi

/-- Settles O47: the exchanges of a call encode commands it may issue, which the decoder reads back. -/
theorem hostCallsWriteNoFlagOrModeRegister : Obligations.HostCallsWriteNoFlagOrModeRegister := by
  unfold Obligations.HostCallsWriteNoFlagOrModeRegister
  intro s t i hs hi h x hx a ds hdecode k hk
  obtain ⟨p, hp, hrun⟩ := hostCall_run hs hi h
  have honly := only_callProg (by simp [callAdmitted, hi]) hp
  obtain ⟨u, r, rfl, hrecorded⟩ := honly.kept_of_run (keptBy_recordsOnly _) (hs.of_chip (by simp)) hrun
  rw [callEnds_bus] at hx
  obtain hold | ⟨c, hc, ha, hmosi⟩ := hrecorded x hx
  · simp at hold
  · have hback : decodeCommand CommandBytes.standard (encodeCommand Chip.standard.commands c) = .ok c :=
      decodeCommand_encodeCommand distinct_standard c
    rw [hmosi, hback] at hdecode
    obtain rfl := Except.ok.inj hdecode
    exact mayIssue_write_of_hostCall hi hc ha hk

/-! ## Flags that survive (R54, R221, R258 to R260) -/

/-- The command leaves bit k of CANINTF alone: it stores to other registers, or masks the bit out. -/
def sparesFlag (k : Nat) : Command → Bool
  | .reset => false
  | .read _ _ => true
  | .write a ds => decide (Spares CANINTF (commandTargets (.write a ds)))
  | .bitmod a m _ => decide (slotOf a.toNat ≠ slotOf CANINTF) || !m.getLsbD k
  | .rdstatus => true

theorem slotOf_eq_canintf {a : Nat} (h : slotOf a = slotOf CANINTF) : a = CANINTF := by
  by_contra hne
  by_cases ha : a < 0x80
  · exact slotOf_ne (b := a) (by decide) ha (Ne.symm hne) (by decide) h.symm
  · exact slotOf_ne_of_ge (by omega) (by decide) h

theorem State.flag_engineEffect {u : State} (hu : u.standard) {k : Nat} {c : Command} (hc : sparesFlag k c = true) :
    ((u.engineEffect c).reg CANINTF).getLsbD k = (u.reg CANINTF).getLsbD k := by
  by_cases hspares : Spares CANINTF (commandTargets c)
  · rw [State.reg_engineEffect_of_spares hu (by decide) hspares]
  · cases c with
    | reset => cases hc
    | read | rdstatus => exact absurd (spares_of_query rfl _) hspares
    | write a ds => exact absurd (of_decide_eq_true hc) hspares
    | bitmod a m v =>
      have hslot : slotOf a.toNat = slotOf CANINTF := by simpa [Spares, commandTargets] using hspares
      obtain rfl : a = addressByte CANINTF := BitVec.eq_of_toNat_eq (slotOf_eq_canintf hslot)
      have hm : m.getLsbD k = false := by simpa [sparesFlag, hslot] using hc
      by_cases hk : k < 8
      · rw [State.reg_canintf_bitmod hu, BitVec.getLsbD_or, BitVec.getLsbD_and, BitVec.getLsbD_and,
          BitVec.getLsbD_not, hm]
        simp [hk]
      · rw [BitVec.getLsbD_of_ge _ _ (by omega), BitVec.getLsbD_of_ge _ _ (by omega)]

theorem State.flag_failedEffect {u : State} (hu : u.standard) {k : Nat} {c : Command} (hc : sparesFlag k c = true)
    (e : XferEnd) : ((u.failedEffect c e).reg CANINTF).getLsbD k = (u.reg CANINTF).getLsbD k := by
  obtain h | h | ⟨a, ds, j, rfl, -⟩ := u.failedEffect_cases c e
  · rw [h]
  · rw [h, State.flag_engineEffect hu hc]
  · rw [State.reg_failedEffect_of_spares hu (by decide) (of_decide_eq_true hc)]

/-- From s to t bit k of CANINTF is not cleared. -/
def keepsFlag (k : Nat) (s t : State) : Prop :=
  (s.reg CANINTF).getLsbD k = true → (t.reg CANINTF).getLsbD k = true

theorem getLsbD_of_bitsKept {a b : Byte} (h : bitsKept a b) {k : Nat} (ha : a.getLsbD k = true) :
    b.getLsbD k = true := by
  rw [← h, BitVec.getLsbD_and, Bool.and_eq_true] at ha
  exact ha.2

/-- The CANSIDE steps before a transaction clear no flag (R54, R61). -/
theorem keepsFlag_beforeXfer {s : State} (hs : s.standard) (k : Nat) : keepsFlag k s s.beforeXfer :=
  getLsbD_of_bitsKept (State.intf_canSteps (s := s.slotTaken) hs _)

theorem keptBy_keepsFlag (k : Nat) : KeptBy (sparesFlag k) (keepsFlag k) where
  refl _ h := h
  trans h h' hk := h' (h hk)
  done c hc _ s hs hk := by
    rw [State.reg_afterXfer, State.flag_engineEffect (hs.of_chip (by simp)) hc]
    exact keepsFlag_beforeXfer hs k hk
  failed c hc _ s hs _ hk := by
    rw [State.reg_afterFailure, State.flag_failedEffect (hs.of_chip (by simp)) hc]
    exact keepsFlag_beforeXfer hs k hk

/-- readFrame(n) clears bit n alone (R216). -/
theorem sparesFlag_readFrame {n k : Nat} (h : n < 2 → k ≠ n) :
    (readFrameProg Chip.standard n).Only (sparesFlag k) := by
  by_cases hn : n < 2
  · refine only_readFrame (fun _ _ _ _ => rfl) ?_
    have hne : n ≠ k := (h hn).symm
    simp [sparesFlag, ← BitVec.twoPow_eq, BitVec.getLsbD_twoPow, hne]
  · rw [readFrameProg, if_neg hn]
    exact .raise _

/-- writeFrame stores to its transmit buffer alone (R233). -/
theorem sparesFlag_writeFrame (f : Frame) (n k : Nat) : (writeFrameProg Chip.standard f n).Only (sparesFlag k) := by
  refine only_writeFrame (fun a b hlo _ => decide_eq_true ?_) fun hn => ?_
  · refine List.forall_mem_singleton.2 fun h => ?_
    have haddr : a.toNat = 0x2C := slotOf_eq_canintf h
    unfold txb at hlo
    omega
  · have haddr : (addressByte (txb n)).toNat = txb n := toNat_addressByte (by unfold txb; omega)
    have hne : slotOf (txb n) ≠ slotOf CANINTF := fun h => by
      have hbase : txb n = 0x2C := slotOf_eq_canintf h
      unfold txb at hbase
      omega
    simp [sparesFlag, haddr, hne]

/-- A host call that needs HOST Ready, the poll apart, clears no flag but that of the buffer it reads. -/
theorem sparesFlag_callProg {i : Instr} (hi : needsReady i = true) (hpoll : i ≠ .pollFrame) {k : Nat}
    (hread : ∀ n, n < 2 → i = .readFrame n → k ≠ n) {p : Prog} (hp : callProg Chip.standard i = some p) :
    p.Only (sparesFlag k) := by
  cases i with
  | readFrame n =>
    obtain rfl := Option.some.inj hp
    exact sparesFlag_readFrame fun hn => hread n hn rfl
  | pollFrame => exact absurd rfl hpoll
  | writeFrame f n =>
    obtain rfl := Option.some.inj hp
    exact sparesFlag_writeFrame f n k
  | isFrameAvailable =>
    obtain rfl := Option.some.inj hp
    exact only_readStatus rfl fun _ => .ret _
  | getMode =>
    obtain rfl := Option.some.inj hp
    unfold getModeProg getMode
    exact only_readRegister rfl rfl fun _ => .ret _
  | setMode mode =>
    obtain rfl := Option.some.inj hp
    cases mode with
    | enumerator m => exact only_modifyRegister rfl rfl (.ret _)
    | outside v => exact .raise _
  | _ => cases hi

/-- After its RDSTATUS the poll clears bit 0, or bit 1 if the status byte showed RX0IF clear, or none (R221). -/
theorem sparesFlag_pollNext {k : Nat} (h0 : k ≠ 0) {b : Byte} (h1 : k = 1 → b[0] = true) :
    (pollNext Chip.standard b).Only (sparesFlag k) := by
  have hb : statusBit b Chip.standard.bits.statusRX0IF = b[0] := statusBit_eq b (i := 0) (by decide)
  unfold pollNext rxBuffer
  rw [hb]
  cases hbit : b[0] with
  | true => exact sparesFlag_readFrame fun _ => h0
  | false =>
    have hk : k ≠ 1 := fun hk => by simp [h1 hk] at hbit
    cases statusBit b Chip.standard.bits.statusRX1IF with
    | true => exact sparesFlag_readFrame fun _ => hk
    | false => exact .ret _

theorem statusByte_beforeXfer_clearBus (s : State) : s.clearBus.beforeXfer.statusByte = s.beforeXfer.statusByte :=
  List.head_eq_of_cons_eq (State.engineResponse_of_regs (c := .rdstatus) (by simp) s.beforeXfer_regs_clearBus)

theorem run_readStatus_fails {c : Chip} {next : Byte → Prog} {ends : State → Result → State} {s : State}
    (h : s.chip = c) (hd : c.commands.distinct) (hs : s.nextSlot.ending ≠ .completes) :
    (readStatus c next).run ends s = .next (ends (s.afterFailure .rdstatus) (.raised (.transport .rdstatus none))) := by
  subst h
  exact Prog.run_fails hd hs rfl

/-- The poll is its RDSTATUS, which clears nothing, and what follows from the byte it read. -/
theorem keepsFlag_exec_pollFrame {s t : State} (hs : s.standard) (h : exec .pollFrame s = .next t)
    {k : Nat} (h0 : k ≠ 0) (h1 : k = 1 → s.beforeXfer.statusByte[0] = true) : keepsFlag k s t := by
  have hkept := keptBy_keepsFlag k
  have hs' : s.clearBus.standard := hs
  obtain ⟨p, hp, hrun⟩ := hostCall_run hs rfl h
  obtain rfl := Option.some.inj hp
  have hrun : (readStatus Chip.standard (pollNext Chip.standard)).run State.ended s.clearBus = .next t := hrun
  by_cases hx : s.nextSlot.ending = .completes
  · rw [run_readStatus hs' distinct_standard hx, statusByte_beforeXfer_clearBus] at hrun
    obtain ⟨u, r, rfl, hR⟩ := (sparesFlag_pollNext h0 h1).kept_of_run hkept (hs.of_chip (by simp)) hrun
    exact hkept.trans (hkept.done .rdstatus rfl rfl s.clearBus hs') hR
  · rw [run_readStatus_fails hs' distinct_standard hx] at hrun
    obtain rfl := Host.Outcome.next.inj hrun
    exact hkept.failed .rdstatus rfl rfl s.clearBus hs' hx

/-- Settles O32: every command the call issues spares the flag, completed or failed, and so does CANSIDE. -/
theorem otherFlagsSurviveHostCalls : Obligations.OtherFlagsSurviveHostCalls := by
  unfold Obligations.OtherFlagsSurviveHostCalls
  intro s t i hs hi h k hk hset hread hpoll
  have hkept : keepsFlag k s t := by
    by_cases hip : i = .pollFrame
    · obtain ⟨h0, h1⟩ := hpoll hip
      exact keepsFlag_exec_pollFrame hs (hip ▸ h) h0 h1
    · obtain ⟨p, hp, hrun⟩ := hostCall_run hs (hostCall_of_needsReady hi).1 h
      obtain ⟨u, r, rfl, hR⟩ :=
        (sparesFlag_callProg hi hip hread hp).kept_of_run (keptBy_keepsFlag k) (hs.of_chip (by simp)) hrun
      simpa [keepsFlag] using hR
  rw [← BitVec.getLsbD_eq_getElem] at hset ⊢
  exact hkept hset

end Sys2Proof.Machine
end

section
/-! PROOFS. Exceptions and interrupts (60_exceptions.md: R161, R270, R271, R276, R279): a failed exchange and E_TRANSPORT
are one and the same, a host call sets no interrupt flag, and the codes of the error categories. -/

namespace Sys2Proof.Machine

/-! ## Error codes (R270) -/

/-- Settles O48: the code is read off the category, whatever information it carries. -/
theorem errorCategoriesHaveDistinctCodes : Obligations.ErrorCategoriesHaveDistinctCodes :=
  ⟨fun _ _ => rfl, fun _ _ => rfl, fun _ => rfl, rfl⟩

/-! ## No operation raises E_TRANSPORT by itself (R271, R272 to R274) -/

/-- The error is E_TRANSPORT, whatever it names. -/
def HostError.isTransport : HostError → Bool
  | .transport _ _ => true
  | .corruptFrame _ _ => false
  | .argument _ => false
  | .unsupported => false

/-- Whatever the responses, no error that the operation itself raises is E_TRANSPORT. -/
def Prog.RaisesNoTransport : Prog → Prop
  | .ret _ => True
  | .raise e => e.isTransport = false
  | .xfer _ next => ∀ miso, (next miso).RaisesNoTransport

theorem frameFault_not_transport {f : Frame} {n : Nat} {e : HostError} (h : frameFault f n = some e) :
    e.isTransport = false := by
  simp only [frameFault_eq, ite_eq_iff, Option.some.injEq, reduceCtorEq, and_false, or_false] at h
  rcases h with ⟨-, rfl⟩ | ⟨-, ⟨-, rfl⟩ | ⟨-, ⟨-, rfl⟩ | ⟨-, ⟨-, rfl⟩ | ⟨-, -, rfl⟩⟩⟩⟩ <;> rfl

theorem readFrameProg_raisesNoTransport (c : Chip) (n : Nat) : (readFrameProg c n).RaisesNoTransport := by
  unfold readFrameProg decodeBuffer
  split
  · intro _ _
    dsimp only
    split
    · exact rfl
    · exact fun _ _ => trivial
  · exact rfl

theorem writePayload_raisesNoTransport {c : Chip} {p : Prog} (hp : p.RaisesNoTransport) (as : List Nat)
    (bs : List Byte) : (writePayload c p as bs).RaisesNoTransport := by
  induction as generalizing bs with
  | nil => exact hp
  | cons a as ih =>
    cases bs with
    | nil => exact hp
    | cons b bs => exact fun _ => ih bs

theorem writeFrameProg_raisesNoTransport (c : Chip) (f : Frame) (n : Nat) :
    (writeFrameProg c f n).RaisesNoTransport := by
  unfold writeFrameProg
  split
  next e he => exact frameFault_not_transport he
  next =>
    have hrequest : (modifyRegister c (addressByte (c.txb n).CTRL) (txreq c) (txreq c)
      (.ret .unit)).RaisesNoTransport := fun _ => trivial
    exact fun _ _ _ => writePayload_raisesNoTransport hrequest _ _

theorem ctorProg_raisesNoTransport (c : Chip) (config : ControllerConfig) :
    (ctorProg c config).RaisesNoTransport := by
  have henable : (enableOperation c config (.ret .unit)).RaisesNoTransport := fun _ _ _ _ _ _ => trivial
  have htiming : (configureTiming c config (clearBuffers c (enableOperation c config
      (.ret .unit)))).RaisesNoTransport := fun _ _ _ _ _ _ _ _ _ _ _ => henable
  unfold ctorProg
  split
  · exact rfl
  · intro _ _
    dsimp only
    split
    · exact htiming
    · exact fun _ => htiming

theorem callProg_raisesNoTransport {c : Chip} {i : Instr} {p : Prog} (hp : callProg c i = some p) :
    p.RaisesNoTransport := by
  cases i with
  | reset | read | write | bitmod | rdstatus => cases hp
  | resetCall | readRegister | writeRegister | modifyRegister | readStatus | isFrameAvailable | getMode =>
    obtain rfl := Option.some.inj hp
    exact fun _ => trivial
  | ctor config =>
    obtain rfl := Option.some.inj hp
    exact ctorProg_raisesNoTransport c config
  | readFrame n =>
    obtain rfl := Option.some.inj hp
    exact readFrameProg_raisesNoTransport c n
  | pollFrame =>
    obtain rfl := Option.some.inj hp
    intro _
    dsimp only
    split
    · exact readFrameProg_raisesNoTransport c _
    · trivial
  | writeFrame f n =>
    obtain rfl := Option.some.inj hp
    exact writeFrameProg_raisesNoTransport c f n
  | setMode mode =>
    obtain rfl := Option.some.inj hp
    cases mode with
    | enumerator m => exact fun _ => trivial
    | outside v => exact rfl

/-! ## A failed exchange is the call's last and is what E_TRANSPORT means (R161, R271, R279) -/

/-- Every recorded exchange completed. -/
def AllCompleted (xs : List Exchange) : Prop := ∀ x ∈ xs, x.miso ≠ none

theorem AllCompleted.append_some {xs : List Exchange} (h : AllCompleted xs) (mosi miso : List Byte) :
    AllCompleted (xs ++ [⟨mosi, some miso⟩]) :=
  List.forall_mem_append.2 ⟨h, List.forall_mem_singleton.2 nofun⟩

/-- How the exchanges of a call and its result go together: all of them completed and the result is not E_TRANSPORT, or
the last one alone failed and the result is E_TRANSPORT with its command and address. -/
inductive EndsAs (cmd : CommandBytes) : List Exchange → Result → Prop where
  | returned {xs : List Exchange} (h : AllCompleted xs) (v : Value) : EndsAs cmd xs (.returned v)
  | raised {xs : List Exchange} (h : AllCompleted xs) {e : HostError} (he : e.isTransport = false) :
      EndsAs cmd xs (.raised e)
  | failed {xs : List Exchange} (h : AllCompleted xs) {mosi : List Byte} {c : Command}
      (hc : decodeCommand cmd mosi = .ok c) :
      EndsAs cmd (xs ++ [⟨mosi, none⟩]) (.raised (.transport c.kind c.address?))

/-- Between two transactions of an operation every exchange has completed; the first that fails ends it. -/
theorem Prog.RaisesNoTransport.run {p : Prog} {ends : State → Result → State} {s t : State} (h : p.RaisesNoTransport)
    (hb : AllCompleted s.bus) (ht : p.run ends s = .next t) :
    ∃ u r, t = ends u r ∧ EndsAs s.chip.commands u.bus r := by
  induction p generalizing s with
  | ret v => exact ⟨s, .returned v, (Host.Outcome.next.inj ht).symm, .returned hb v⟩
  | raise e => exact ⟨s, .raised e, (Host.Outcome.next.inj ht).symm, .raised hb h⟩
  | xfer mosi next ih =>
    unfold Prog.run at ht
    split at ht
    next miso u hx =>
      have hchip : u.chip = s.chip := State.xfer_completed_chip hx
      obtain ⟨c, -, -, -, -, rfl⟩ := State.exchange_completed hx
      rw [← hchip]
      refine ih miso (h miso) ?_ ht
      simpa [State.engine_snd] using hb.append_some mosi miso
    next e u hx =>
      obtain ⟨c, hc, -, -, rfl, rfl⟩ := State.exchange_failed hx
      refine ⟨_, _, (Host.Outcome.next.inj ht).symm, ?_⟩
      rw [State.beforeXfer_chip] at hc
      simpa using EndsAs.failed hb hc
    next => cases ht

/-- A call begins with no exchange recorded, so at its end the exchanges are its own. -/
theorem endsAs_exec {s t : State} {i : Instr} (hi : ∀ c : Command, i ≠ c.toInstr) (h : exec i s = .next t) :
    ∃ r, t.result = some r ∧ EndsAs s.chip.commands t.bus r := by
  obtain ⟨p, hp⟩ := callProg_of_ne_toInstr hi s.chip
  rw [exec_call hp] at h
  split at h
  next => cases h
  next =>
    obtain ⟨u, r, rfl, hends⟩ := (callProg_raisesNoTransport hp).run (by simp [AllCompleted]) h
    exact ⟨r, callEnds_result i u r, by simpa using hends⟩

/-- Settles O18: each clause holds in each of the three ways a call can end. -/
theorem failedExchangeEndsTheCall : Obligations.FailedExchangeEndsTheCall := by
  unfold Obligations.FailedExchangeEndsTheCall
  intro s t i hi h
  obtain ⟨r, hr, hends⟩ := endsAs_exec hi h
  generalize t.bus = xs at hends
  rw [hr]
  cases hends with
  | returned hall v =>
    exact ⟨fun x hx => hall x (List.mem_of_mem_dropLast hx),
      fun x hx hnone => absurd hnone (hall x (List.mem_of_getLast? hx)), nofun⟩
  | raised hall he =>
    refine ⟨fun x hx => hall x (List.mem_of_mem_dropLast hx),
      fun x hx hnone => absurd hnone (hall x (List.mem_of_getLast? hx)), fun k a hka => ?_⟩
    obtain rfl := Result.raised.inj (Option.some.inj hka)
    cases he
  | failed hall hc =>
    refine ⟨by rwa [List.dropLast_concat], fun x hx _ => ?_, fun _ _ _ => ⟨_, List.getLast?_concat, rfl⟩⟩
    obtain rfl := Option.some.inj (List.getLast?_concat.symm.trans hx)
    exact ⟨_, hc, rfl⟩

/-! ## A host call sets no interrupt flag (R276, R54) -/

/-- The command sets no bit of CANINTF: it is RESET, it stores elsewhere, or it is a BITMOD whose value is 0. -/
def SetsNoFlag (c : Command) : Prop :=
  c = .reset ∨ Spares CANINTF (commandTargets c) ∨ ∃ a m, c = .bitmod a m 0x00

/-- Every flag of t is a flag of s. -/
def noFlagSet (s t : State) : Prop := bitsKept (t.reg CANINTF) (s.reg CANINTF)

theorem noFlagSet_of_reg_eq {s t : State} (h : t.reg CANINTF = s.reg CANINTF) : noFlagSet s t := by
  unfold noFlagSet
  rw [h]
  exact bitsKept_refl _

theorem noFlagSet_engineEffect {u : State} (hu : u.standard) {c : Command} (h : SetsNoFlag c) :
    noFlagSet u (u.engineEffect c) := by
  rcases h with rfl | hspares | ⟨a, m, rfl⟩
  · have hclear : (u.engineEffect .reset).reg CANINTF = 0 := by
      rw [State.engineEffect, State.reg_resetRegisters hu (by decide), resetValue_fixed (by decide)]
      rfl
    unfold noFlagSet bitsKept
    rw [hclear]
    exact BitVec.zero_and
  · exact noFlagSet_of_reg_eq (State.reg_engineEffect_of_spares hu (by decide) hspares)
  · by_cases hslot : slotOf a.toNat = slotOf CANINTF
    · obtain rfl : a = addressByte CANINTF := BitVec.eq_of_toNat_eq (slotOf_eq_canintf hslot)
      have hcleared : (u.engineEffect (.bitmod (addressByte CANINTF) m 0x00)).reg CANINTF = u.reg CANINTF &&& ~~~m :=
        (State.reg_canintf_bitmod hu m 0x00).trans (by simp)
      unfold noFlagSet bitsKept
      rw [hcleared, BitVec.and_comm, ← BitVec.and_assoc, BitVec.and_self]
    · exact noFlagSet_of_reg_eq
        (State.reg_engineEffect_of_spares hu (by decide) (List.forall_mem_singleton.2 hslot))

/-- A failed exchange leaves the effect of the command, none, or that of a shorter WRITE (R161). -/
theorem noFlagSet_failedEffect {u : State} (hu : u.standard) {c : Command} (h : SetsNoFlag c) (e : XferEnd) :
    noFlagSet u (u.failedEffect c e) := by
  obtain he | he | ⟨a, ds, j, rfl, -⟩ := u.failedEffect_cases c e
  · exact noFlagSet_of_reg_eq (by rw [he])
  · rw [he]
    exact noFlagSet_engineEffect hu h
  · obtain h | hspares | ⟨_, _, h⟩ := h
    · cases h
    · exact noFlagSet_of_reg_eq (State.reg_failedEffect_of_spares hu (by decide) hspares e)
    · cases h

/-- Under a quiet schedule, which stays quiet, no flag is set from s to t. -/
def quietlySetsNoFlag (s t : State) : Prop := s.canQuiet → t.canQuiet ∧ noFlagSet s t

theorem noFlagSet_of_beforeXfer {s t : State} (hq : s.canQuiet) (h : noFlagSet s.beforeXfer t) : noFlagSet s t := by
  unfold noFlagSet at h
  rwa [State.reg_beforeXfer_quiet hq] at h

theorem keptBy_quietlySetsNoFlag {C : Command → Bool}
    (hC : ∀ c, C c = true → commandAdmitted c = true → SetsNoFlag c) : KeptBy C quietlySetsNoFlag where
  refl _ hq := ⟨hq, noFlagSet_of_reg_eq rfl⟩
  trans h h' hq := by
    obtain ⟨hqt, hst⟩ := h hq
    obtain ⟨hqu, htu⟩ := h' hqt
    exact ⟨hqu, bitsKept_trans htu hst⟩
  done c hc ha s hs hq := ⟨State.canQuiet_afterXfer hq c,
    noFlagSet_of_beforeXfer hq (noFlagSet_engineEffect (hs.of_chip (by simp)) (hC c hc ha))⟩
  failed c hc ha s hs _ hq := ⟨State.canQuiet_of_sched (k := 1) hq (by simp),
    noFlagSet_of_beforeXfer hq (noFlagSet_failedEffect (hs.of_chip (by simp)) (hC c hc ha) _)⟩

/-- No WRITE of a host call reaches CANINTF (R258). -/
theorem spares_canintf_write {a : Byte} {ds : List Byte} (h : ∀ k, k < ds.length → writeTarget (a.toNat + k)) :
    Spares CANINTF (commandTargets (.write a ds)) := by
  intro x hx hslot
  obtain ⟨k, hk, rfl⟩ := List.mem_map.1 hx
  obtain ⟨-, hne, -⟩ := h k (List.mem_range.1 hk)
  exact hne (slotOf_eq_canintf hslot)

theorem spares_canintf_bitmod {a m v : Byte} (h : a.toNat ≠ CANINTF) :
    Spares CANINTF (commandTargets (.bitmod a m v)) :=
  List.forall_mem_singleton.2 fun hslot => h (slotOf_eq_canintf hslot)

/-- A BITMOD of a host call has the value 0, for a receive flag, or reaches a control register (R216, R234, R256). -/
theorem mayIssue_bitmod_of_hostCall {i : Instr} (hi : i.command? = none) {a m v : Byte}
    (h : mayIssue i (.bitmod a m v) = true) : v = 0x00 ∨ a.toNat ≠ CANINTF := by
  cases i with
  | ctor config =>
    right
    have h : (a.toNat = rxb 0 ∨ a.toNat = rxb 1) ∧ m = 0x60 ∨ a.toNat = CANCTRL ∧ m = 0xE0 := by
      simpa [mayIssue, ctorCommand] using h
    unfold rxb CANCTRL at h
    unfold CANINTF
    omega
  | readFrame n =>
    simp only [mayIssue, readCommand, Bool.and_eq_true, decide_eq_true_eq] at h
    obtain ⟨-, hv⟩ := h
    exact .inl hv
  | pollFrame =>
    simp only [mayIssue, readCommand, Bool.or_eq_true, Bool.and_eq_true, decide_eq_true_eq, reduceCtorEq,
      false_or] at h
    exact .inl (h.elim And.right And.right)
  | writeFrame f n =>
    right
    obtain ⟨⟨haddr, -⟩, -⟩ : (a.toNat = txb n ∧ m = 0x08) ∧ v = 0x08 := by
      simpa only [mayIssue, writeCommand, Bool.and_eq_true, decide_eq_true_eq] using h
    unfold txb at haddr
    unfold CANINTF
    omega
  | setMode mode =>
    right
    obtain ⟨haddr, -⟩ : a.toNat = CANCTRL ∧ m = 0xE0 := by simpa [mayIssue, modeCommand] using h
    rw [haddr]
    decide
  | isFrameAvailable | getMode => simp [mayIssue] at h
  | _ => cases hi

theorem setsNoFlag_of_hostCall {i : Instr} (hi : i.command? = none) {c : Command} (h : mayIssue i c = true)
    (ha : commandAdmitted c = true) : SetsNoFlag c := by
  cases c with
  | reset => exact .inl rfl
  | read | rdstatus => exact .inr (.inl (spares_of_query rfl _))
  | write a ds => exact .inr (.inl (spares_canintf_write fun _ hk => mayIssue_write_of_hostCall hi h ha hk))
  | bitmod a m v =>
    obtain rfl | hne := mayIssue_bitmod_of_hostCall hi h
    · exact .inr (.inr ⟨a, m, rfl⟩)
    · exact .inr (.inl (spares_canintf_bitmod hne))

/-- Settles O33: no command that a host call may issue sets a flag, completed or failed. -/
theorem hostCallsSetNoInterruptFlag : Obligations.HostCallsSetNoInterruptFlag := by
  unfold Obligations.HostCallsSetNoInterruptFlag
  intro s t i hs hcall hq h k hk hset
  have hi : i.command? = none := by
    obtain hready | ⟨config, rfl⟩ := hcall
    · exact (hostCall_of_needsReady hready).1
    · rfl
  obtain ⟨p, hp, hrun⟩ := hostCall_run hs hi h
  have honly := only_callProg (by simp [callAdmitted, hi]) hp
  obtain ⟨u, r, rfl, hR⟩ := honly.kept_of_run
    (keptBy_quietlySetsNoFlag fun c hc ha => setsNoFlag_of_hostCall hi hc ha) (hs.of_chip (by simp)) hrun
  obtain ⟨-, hkept⟩ := hR (State.canQuiet_of_sched (k := 0) hq (by simp))
  rw [noFlagSet, State.reg_callBegun] at hkept
  rw [reg_callEnds, ← BitVec.getLsbD_eq_getElem] at hset
  rw [← BitVec.getLsbD_eq_getElem]
  exact getLsbD_of_bitsKept hkept hset

end Sys2Proof.Machine
end

section
/-! PROOFS. Reset and hazards (70_reset_and_hazards.md: R36, R300, R301, R303, R314, R318; log 5): the registers that a
RESET leaves, a corrupt frame that stays in buffer 0, how many transactions an instruction issues, and the status that
each host call needs. -/

namespace Sys2Proof.Machine

/-! ## The registers that a RESET leaves (R36, R150, R301) -/

/-- Every register has R36's reset value, its drawn bits from the free values from number d on. -/
def State.HoldsReset (s : State) (d : Nat) : Prop :=
  ∀ a, a < 0x80 → s.reg a = Chip.standard.resetValue a (Config.freeByte (d + slotOf a))

/-- Register a takes v at a RESET, and draws nothing. -/
abbrev ResetsTo (v : Byte) (a : Nat) : Prop :=
  a < 0x80 ∧ (Chip.standard.info a).drawn = 0 ∧ (Chip.standard.info a).fixed = v

/-- Register a draws all its implemented bits at a RESET. -/
abbrev ResetDraws (a : Nat) : Prop :=
  a < 0x80 ∧ (Chip.standard.info a).fixed = 0 ∧ (Chip.standard.info a).drawn = Chip.standard.impl a

theorem resetValue_drawn {c : Chip} {a : Nat} (h : (c.info a).fixed = 0) (d : Byte) :
    c.resetValue a d = d &&& (c.info a).drawn := by
  by_cases h0 : (c.info a).drawn = 0
  · rw [resetValue_fixed h0, h, h0]
    exact BitVec.and_zero.symm
  · unfold Chip.resetValue
    dsimp only
    rw [if_neg h0, h]
    exact BitVec.zero_or

section
variable {s : State} {d : Nat} (h : s.HoldsReset d)
include h

theorem State.HoldsReset.reg_fixed {a : Nat} {v : Byte} (ha : ResetsTo v a) : s.reg a = v := by
  obtain ⟨hlt, hdrawn, hfixed⟩ := ha
  rw [h a hlt, resetValue_fixed hdrawn, hfixed]

theorem State.HoldsReset.reg_drawn {a : Nat} (ha : ResetDraws a) :
    ∃ k, s.reg a = Config.freeByte k &&& Chip.standard.impl a := by
  obtain ⟨hlt, hfixed, hdrawn⟩ := ha
  exact ⟨_, by rw [h a hlt, resetValue_drawn hfixed, hdrawn]⟩

/-- The pin modes are 0; the pin levels are drawn (R52). -/
theorem State.HoldsReset.pinModes : s.reg TXRTSCTRL &&& 0x07 = 0x00 := by
  have hdrawn : (Chip.standard.info TXRTSCTRL).drawn &&& 0x07 = 0x00 := by decide
  rw [h TXRTSCTRL (by decide), resetValue_drawn (by decide), BitVec.and_assoc, hdrawn]
  exact BitVec.and_zero

theorem State.HoldsReset.reg_txbCtrl {n : Nat} (hn : n < 3) : s.reg (txb n) = 0x00 := by
  have hctrl : ∀ n : Fin 3, ResetsTo 0x00 (txb n) := by decide +kernel
  exact h.reg_fixed (hctrl ⟨n, hn⟩)

theorem State.HoldsReset.reg_rxbCtrl {n : Nat} (hn : n < 2) : s.reg (rxb n) = 0x00 := by
  have hctrl : ∀ n : Fin 2, ResetsTo 0x00 (rxb n) := by decide +kernel
  exact h.reg_fixed (hctrl ⟨n, hn⟩)

theorem State.HoldsReset.reg_mask {k : Nat} (hk : k < 8) : s.reg (RXM0SIDH + k) = 0x00 := by
  have hmask : ∀ k : Fin 8, ResetsTo 0x00 (RXM0SIDH + k) := by decide +kernel
  exact h.reg_fixed (hmask ⟨k, hk⟩)

/-- Configure is in effect and requested (R301). -/
theorem State.HoldsReset.configure (hs : s.standard) : s.opmod = 4 ∧ s.reqop = 4 := by
  rw [State.opmod_eq hs, State.reqop_eq hs, h.reg_fixed (a := CANSTAT) (v := 0x80) (by decide),
    h.reg_fixed (a := CANCTRL) (v := 0x87) (by decide)]
  decide

end

theorem resetDraws_RXF0 : ∀ k : Fin 12, ResetDraws (RXF0SIDH + k) := by
  decide +kernel

theorem resetDraws_RXF3 : ∀ k : Fin 12, ResetDraws (RXF3SIDH + k) := by
  decide +kernel

theorem resetDraws_txb : ∀ (n : Fin 3) (k : Fin 14), 1 ≤ k.val → ResetDraws (txb n + k) := by
  decide +kernel

theorem resetDraws_rxb : ∀ (n : Fin 2) (k : Fin 14), 1 ≤ k.val → ResetDraws (rxb n + k) := by
  decide +kernel

theorem State.holdsReset_resetRegisters {s : State} (hs : s.standard) : s.resetRegisters.HoldsReset s.draws :=
  fun _ ha => State.reg_resetRegisters hs ha

/-- Settles O2: the exchange's one effect gives every register its reset value, and R36's columns say which are fixed
and which drawn. -/
theorem resetCommandLoadsEveryResetValue : Obligations.ResetCommandLoadsEveryResetValue := by
  unfold Obligations.ResetCommandLoadsEveryResetValue
  intro s hs
  obtain ⟨t, ht, htx⟩ := exec_toInstr_isTransaction (c := .reset) rfl s
  obtain ⟨filler, hlength, hbus⟩ := htx.bus
  obtain ⟨x, rfl⟩ := List.length_eq_one_iff.1 hlength
  have hreset : t.HoldsReset s.draws := fun a ha => (htx.reg a).trans (State.holdsReset_resetRegisters hs a ha)
  obtain ⟨hopmod, hreqop⟩ := hreset.configure (hs.of_chip (chip_of_sameHost htx.sameHost))
  rw [hs] at hbus ⊢
  exact ⟨t, ht, htx.sameHost, htx.sched, htx.result, ⟨x, hbus⟩, hreset,
    hreset.reg_fixed (by decide), hreset.reg_fixed (by decide), hopmod, hreqop,
    hreset.reg_fixed (by decide), hreset.reg_fixed (by decide), hreset.reg_fixed (by decide),
    hreset.reg_fixed (by decide), hreset.reg_fixed (by decide), hreset.reg_fixed (by decide),
    hreset.reg_fixed (by decide), hreset.reg_fixed (by decide), hreset.reg_fixed (by decide), hreset.pinModes,
    fun _ => hreset.reg_txbCtrl, fun _ => hreset.reg_rxbCtrl, fun _ => hreset.reg_mask,
    fun k hk => hreset.reg_drawn (resetDraws_RXF0 ⟨k, hk⟩),
    fun k hk => hreset.reg_drawn (resetDraws_RXF3 ⟨k, hk⟩),
    fun n k hn h1 hk => hreset.reg_drawn (resetDraws_txb ⟨n, hn⟩ ⟨k, hk⟩ h1),
    fun n k hn h1 hk => hreset.reg_drawn (resetDraws_rxb ⟨n, hn⟩ ⟨k, hk⟩ h1)⟩

/-- Settles O1: the register file is a RESET's, with its draws from number 0 on. -/
theorem resetStateIsUnconstructedInConfigureMode : Obligations.ResetStateIsUnconstructedInConfigureMode := by
  unfold Obligations.ResetStateIsUnconstructedInConfigureMode
  have hs : State.reset.standard := rfl
  have hreset : State.reset.HoldsReset 0 := by
    rw [State.reset_eq_resetRegisters]
    exact State.holdsReset_resetRegisters rfl
  obtain ⟨hopmod, hreqop⟩ := hreset.configure hs
  refine ⟨rfl, rfl, rfl, rfl, hopmod, hreqop, hreset.reg_fixed (by decide), hreset.reg_fixed (by decide),
    hreset.reg_fixed (by decide), fun n hn => ?_, fun a ha => ?_⟩
  · rw [State.txRequested_eq hs hn, hreset.reg_txbCtrl hn]
    rfl
  · rw [hreset a ha, Nat.zero_add]

/-! ## A corrupt frame in buffer 0 (R314, R220, R221) -/

theorem State.busCompletes_afterXfers {s : State} (h : s.busCompletes) (cs : List Command) :
    (s.afterXfers cs).busCompletes := by
  induction cs generalizing s with
  | nil => exact h
  | cons c cs ih => exact ih (State.busCompletes_afterXfer h c)

/-- A poll that meets a corrupt frame in a full buffer 0: the RDSTATUS, then T1 and T2 of R215. -/
def corruptPollCommands (dlc : Nat) : List Command := .rdstatus :: (readFrameCommands 0 dlc).take 2

theorem onlyQuery_corruptPollCommands (dlc : Nat) : OnlyQuery (corruptPollCommands dlc) :=
  List.forall_mem_cons.2 ⟨rfl, onlyQuery_take_readFrameCommands (by omega)⟩

/-- Buffer 0, being full, keeps its frame until T1 reads the DLC, whatever CANSIDE does (R56). -/
theorem exec_pollFrame_corrupt {s : State} (hs : s.standard) (hr : s.status = .ready) (hx : s.busCompletes)
    (hf : s.rxFlag 0 = true) (hd : 8 < s.rxDlc 0) :
    exec .pollFrame s = .next ((s.clearBus.afterXfers (corruptPollCommands (s.rxDlc 0))).ended
      (.raised (.corruptFrame 0 (s.rxDlc 0)))) := by
  have hs' : s.clearBus.standard := hs
  have hholds : s.clearBus.HoldsFrame 0 := .inl hf
  have hquery : OnlyQuery [.rdstatus] := List.forall_mem_singleton.2 rfl
  have hdlc : (s.clearBus.afterXfer .rdstatus).beforeXfer.rxDlc 0 = s.rxDlc 0 :=
    (hholds.sameBuffer_afterQueries hs' (by omega) hquery).rxDlc (by simp) hs' (by omega)
  rw [exec_pollFrame_some hs hr hx (by omega) (.inl ⟨rfl, State.rxFlag_beforeXfer hs hf⟩),
    run_decodeBuffer_corrupt (hs.of_chip (by simp)) (State.busCompletes_afterXfer (s := s.clearBus) hx _) (by omega)
      (by rwa [hdlc]), hdlc]
  rfl

/-- Settles O31: the poll issues queries alone, across which a full buffer stays full and keeps its DLC. -/
theorem corruptFrameHidesBufferOne : Obligations.CorruptFrameHidesBufferOne := by
  unfold Obligations.CorruptFrameHidesBufferOne
  rintro corrupt s dlc ⟨hs, hr, hx, hf, rfl, hd⟩
  have hs' : s.clearBus.standard := hs
  have hholds : s.clearBus.HoldsFrame 0 := .inl hf
  have hquery := onlyQuery_corruptPollCommands (s.rxDlc 0)
  obtain ⟨-, hsame⟩ := hholds.afterQueries hs' (by omega) hquery
  refine ⟨_, exec_pollFrame_corrupt hs hr hx hf hd, rfl, ?standard, ?ready, ?completes, ?full, ?dlc, hd⟩
  case standard => exact hs.of_chip (by simp)
  case ready => simpa using hr
  case completes => exact State.busCompletes_afterXfers (s := s.clearBus) hx _
  case full => exact State.rxFlag_afterQueries hs' hf hquery
  case dlc => exact hsame.rxDlc (by simp) hs' (by omega)

/-! ## How many transactions an instruction issues (R318) -/

/-- Whatever the responses, the operation issues at most so many transactions. -/
def Prog.IssuesAtMost : Prog → Nat → Prop
  | .ret _, _ => True
  | .raise _, _ => True
  | .xfer _ _, 0 => False
  | .xfer _ next, k + 1 => ∀ miso, (next miso).IssuesAtMost k

theorem Prog.IssuesAtMost.mono {p : Prog} {j k : Nat} (h : p.IssuesAtMost j) (hjk : j ≤ k) : p.IssuesAtMost k := by
  induction p generalizing j k with
  | ret | raise => trivial
  | xfer mosi next ih =>
    cases j with
    | zero => exact h.elim
    | succ j =>
      obtain ⟨k, rfl⟩ := Nat.exists_eq_add_of_le' (show 1 ≤ k by omega)
      exact fun miso => ih miso (h miso) (by omega)

/-- So many exchanges at most are recorded where it ends, completed or failed. -/
theorem Prog.IssuesAtMost.run {p : Prog} {k : Nat} {ends : State → Result → State} {s t : State}
    (h : p.IssuesAtMost k) (ht : p.run ends s = .next t) :
    ∃ u r, t = ends u r ∧ u.bus.length ≤ s.bus.length + k := by
  induction p generalizing s k with
  | ret v => exact ⟨s, _, (Host.Outcome.next.inj ht).symm, by omega⟩
  | raise e => exact ⟨s, _, (Host.Outcome.next.inj ht).symm, by omega⟩
  | xfer mosi next ih =>
    cases k with
    | zero => exact h.elim
    | succ k =>
      unfold Prog.run at ht
      split at ht
      next miso u hx =>
        obtain ⟨v, r, hv, hlength⟩ := ih miso (h miso) ht
        have hone := State.xfer_completed_length_bus hx
        exact ⟨v, r, hv, by omega⟩
      next e u hx =>
        have hone := State.xfer_failed_length_bus hx
        exact ⟨u, _, (Host.Outcome.next.inj ht).symm, by omega⟩
      next => cases ht

theorem readFrameProg_issuesAtMost (c : Chip) (n : Nat) : (readFrameProg c n).IssuesAtMost 4 := by
  unfold readFrameProg decodeBuffer
  split
  · intro _ _
    dsimp only
    split
    · trivial
    · exact fun _ _ => trivial
  · trivial

theorem pollFrameProg_issuesAtMost (c : Chip) : (pollFrameProg c).IssuesAtMost 5 := by
  intro _
  dsimp only
  split
  · exact readFrameProg_issuesAtMost c _
  · trivial

/-- One transaction for each data register at most. -/
theorem writePayload_issuesAtMost {c : Chip} {p : Prog} {k : Nat} (hp : p.IssuesAtMost k) (as : List Nat)
    (bs : List Byte) : (writePayload c p as bs).IssuesAtMost (as.length + k) := by
  induction as generalizing bs with
  | nil => exact hp.mono (by omega)
  | cons a as ih =>
    cases bs with
    | nil => exact hp.mono (by omega)
    | cons b bs =>
      have hrest : (writePayload c p (a :: as) (b :: bs)).IssuesAtMost (as.length + k + 1) := fun _ => ih bs
      exact hrest.mono (by rw [List.length_cons]; omega)

theorem writeFrameProg_issuesAtMost (c : Chip) (f : Frame) (n : Nat) : (writeFrameProg c f n).IssuesAtMost 12 := by
  have hrequest : (modifyRegister c (addressByte (c.txb n).CTRL) (txreq c) (txreq c) (.ret .unit)).IssuesAtMost 1 :=
    fun _ => trivial
  have hpayload := writePayload_issuesAtMost (c := c) hrequest (c.txb n).data f.payload
  unfold writeFrameProg
  split
  · trivial
  · exact fun _ _ _ => hpayload

/-- The RESET, line 2, and line 3 where it is issued, then R190's 6, 5 and 6 transactions. -/
theorem ctorProg_issuesAtMost (c : Chip) (config : ControllerConfig) : (ctorProg c config).IssuesAtMost 20 := by
  have henable : (enableOperation c config (.ret .unit)).IssuesAtMost 6 := fun _ _ _ _ _ _ => trivial
  have hclear : (clearBuffers c (enableOperation c config (.ret .unit))).IssuesAtMost 11 := fun _ _ _ _ _ => henable
  have htiming : (configureTiming c config (clearBuffers c (enableOperation c config (.ret .unit)))).IssuesAtMost 17 :=
    fun _ _ _ _ _ _ => hclear
  unfold ctorProg
  split
  · trivial
  · intro _ _
    dsimp only
    split
    · exact htiming.mono (by omega)
    · exact fun _ => htiming

theorem callProg_issuesAtMost {c : Chip} {i : Instr} {p : Prog} (hp : callProg c i = some p) :
    p.IssuesAtMost (transactionBound i) := by
  cases i with
  | reset | read | write | bitmod | rdstatus => cases hp
  | resetCall | readRegister | writeRegister | modifyRegister | readStatus | isFrameAvailable | getMode =>
    obtain rfl := Option.some.inj hp
    exact fun _ => trivial
  | ctor config =>
    obtain rfl := Option.some.inj hp
    exact ctorProg_issuesAtMost c config
  | readFrame n =>
    obtain rfl := Option.some.inj hp
    exact readFrameProg_issuesAtMost c n
  | pollFrame =>
    obtain rfl := Option.some.inj hp
    exact pollFrameProg_issuesAtMost c
  | writeFrame f n =>
    obtain rfl := Option.some.inj hp
    exact writeFrameProg_issuesAtMost c f n
  | setMode mode =>
    obtain rfl := Option.some.inj hp
    cases mode with
    | enumerator m => exact fun _ => trivial
    | outside v => trivial

theorem transactionBound_toInstr (c : Command) : transactionBound c.toInstr = 1 := by
  cases c <;> rfl

/-- Settles O46: an SPI command is one exchange, and a call begins with none recorded. -/
theorem transactionCountsAreBounded : Obligations.TransactionCountsAreBounded := by
  unfold Obligations.TransactionCountsAreBounded
  intro s t i h
  obtain ⟨c, rfl⟩ | ⟨p, hp⟩ := toInstr_or_call s.chip i
  · rw [exec_toInstr] at h
    obtain ⟨-, rfl⟩ := linkCommand_next.1 h
    simp [transactionBound_toInstr, State.engine_snd]
  · rw [exec_call hp] at h
    split at h
    next => cases h
    next =>
      obtain ⟨u, r, rfl, hlength⟩ := (callProg_issuesAtMost hp).run h
      simpa using hlength

/-! ## The status that a host call needs (R303) -/

theorem exec_call_refused {i : Instr} {s : State} {p : Prog} {x : Refusal} (hp : callProg s.chip i = some p)
    (hr : s.callRefused i = some x) : exec i s = .refused x := by
  rw [exec_call hp, hr]

theorem callRefused_notReady {i : Instr} {s : State} (hi : needsReady i = true) (hs : s.status ≠ .ready) :
    s.callRefused i = some .hostNotReady :=
  if_pos ⟨hi, hs⟩

theorem callRefused_constructed (config : ControllerConfig) {s : State} (hs : s.status ≠ .unconstructed) :
    s.callRefused (.ctor config) = some .alreadyConstructed := by
  simp [State.callRefused, needsReady, ctorConfig, hs]

/-- A call that needs HOST Ready has an operation. -/
theorem callProg_of_needsReady {i : Instr} (hi : needsReady i = true) (c : Chip) : ∃ p, callProg c i = some p :=
  callProg_of_ne_toInstr (by rintro k rfl; cases k <;> cases hi) c

/-- Settles O44: each of these calls has an operation, and its status refuses it before it begins. -/
theorem hostCallsNeedTheirStatus : Obligations.HostCallsNeedTheirStatus := by
  unfold Obligations.HostCallsNeedTheirStatus
  refine ⟨fun s i hi hs => ?_, fun s config hs => ?_⟩
  · obtain ⟨p, hp⟩ := callProg_of_needsReady hi s.chip
    exact exec_call_refused hp (callRefused_notReady hi hs)
  · exact exec_call_refused rfl (callRefused_constructed config hs)

end Sys2Proof.Machine
end
